-- ==== Sys2Proof/Word.lean ====
section
/-! DEFINITION. The word types of HUFENC and their plainest arithmetic: the 16-bit command word (R80), the byte (R62, and the
symbol of R21) and the 255-bit codeword field (R25, R31). -/

namespace Sys2Proof

/-- A 16-bit command word (R80). -/
abbrev Word := BitVec 16

/-- Eight bits: a cell of `IN` or `OUT` (R60, R61), a Symbol (R21), an opcode or an operand byte (R80). -/
abbrev Byte := BitVec 8

/-- The `code` field of a node and of a codeword ROM entry, 255 bits (R25, R30). -/
abbrev CodeBits := BitVec 255

end Sys2Proof
end

