-- ==== Sys2Proof/Config.lean ====
section
/-! DEFINITION. What an implementation of HUFENC fixes when it is built: the two parameters of R6 and the fixed sizes of R7.
The parameters are no architectural state (R45) and no command changes them (R40); see assumption log entry 1 for where the
model keeps them. The spec leaves no value open, so this file holds no free value. -/

namespace Sys2Proof

/-- The two parameters of R6: `FREQ_W`, the width of every frequency counter, weight and of `LEN`, and `IN_CAP`, the capacity
of `IN` in bytes. Which values are legal is `Params.wellFormed`. -/
structure Params where
  freqW : Nat
  inCap : Nat
  deriving DecidableEq, Repr

/-- The spec's defaults (R6): `FREQ_W = 32`, `IN_CAP = 2^FREQ_W - 1`. -/
def Params.default : Params := { freqW := 32, inCap := 2 ^ 32 - 1 }

/-- The number of symbols (R7). -/
def numSymbols : Nat := 256

/-- The number of arena entries (R7). -/
def nodeMax : Nat := 511

/-- The greatest codeword length in bits (R7). -/
def clenMax : Nat := 255

/-- The greatest number of entries of the merge queue at a time (R7, R29). -/
def mqMax : Nat := 256

end Sys2Proof
end

