-- ==== Sys2Proof/Syntax.lean ====
section
/-! DEFINITION. The syntax of HUFENC's command set (R82): one constructor of `Instr` per row of spec/opcode_table.json, and
the four pseudo-instructions of the spec's listings (R87). -/

namespace Sys2Proof

/-- The eight commands (R16, R82). -/
inductive Instr where
  /-- `NOP`: nothing (R103). -/
  | nop
  /-- `CLR`: return to the reset state (R104). -/
  | clr
  /-- `PUT b`: append one input byte (R106); `b` is `cmd[7:0]` (R81). -/
  | put (b : Byte)
  /-- `CNT`: Symbol Table, count frequencies (R122). -/
  | cnt
  /-- `BLD`: Tree Builder, build the tree (R145). -/
  | bld
  /-- `ASG`: Code Assigner, assign codewords and fill `CROM` (R165). -/
  | asg
  /-- `ENC`: Bit Encoder, concatenate, pad and pack (R185). -/
  | enc
  /-- `RUN`: `CNT`, `BLD`, `ASG`, `ENC` in one command (R108). -/
  | run
  deriving DecidableEq, Repr

/-- The pseudo-instructions of the spec's listings (R87). They have no encoding; `Pseudo.expand` gives their commands. -/
inductive Pseudo where
  /-- `PUTS "c1c2...ck"`. -/
  | puts (chars : List Char)
  /-- `PUTB b1, b2, ..., bk`. -/
  | putb (bytes : List Byte)
  /-- `COMPRESS <bytes>`. -/
  | compress (bytes : List Byte)
  /-- `STEPS`. -/
  | steps
  deriving DecidableEq, Repr

end Sys2Proof
end

