-- ==== Sys2Proof/WellFormed.lean ====
section
/-! DEFINITION. Which terms of the syntax and which parameters are well formed. The operand of `PUT` is one byte by its type
(R81), so every `Instr` is well formed; the checks that can fail are those on the parameters (R6) and on the characters of
`PUTS` (R87). -/

namespace Sys2Proof

/-- R6: `FREQ_W` is positive and `1 <= IN_CAP <= 2^FREQ_W - 1`. -/
def Params.wellFormed (p : Params) : Bool :=
  decide (0 < p.freqW) && (decide (1 ≤ p.inCap) && decide (p.inCap ≤ 2 ^ p.freqW - 1))

/-- R80, R81: the only operand of any command is `PUT`'s byte, `0..255`. -/
def Instr.wellFormed : Instr → Bool
  | .put b => decide (b.toNat ≤ 255)
  | .nop | .clr | .cnt | .bld | .asg | .enc | .run => true

/-- R87: `PUTS` takes a string of ASCII characters. -/
def Pseudo.wellFormed : Pseudo → Bool
  | .puts cs => cs.all fun c => decide (c.toNat < 128)
  | .putb _ | .compress _ | .steps => true

end Sys2Proof
end

