-- ==== Sys2Proof/Decode.lean ====
section
/-! DEFINITION. Decoding a command word (R80 to R84), the encoder beside it, and the opcode map of R82 as a table of match and
mask. Decoding is total and context-free (R84). -/

namespace Sys2Proof

/-- `op = cmd[15:8]` (R80). -/
def opField (cmd : Word) : Byte := cmd.extractLsb' 8 8

/-- `arg = cmd[7:0]` (R80, R81). -/
def argField (cmd : Word) : Byte := cmd.extractLsb' 0 8

/-- The word with the fields `op` and `arg` (R80). -/
def mkWord (op arg : Byte) : Word := op ++ arg

/-- Why a word is illegal (R83). The spec has one fault for both, `ILLEGAL_COMMAND`. -/
inductive DecodeError where
  /-- `op` is in `0x08 .. 0xFF`. -/
  | reservedOpcode (op : Byte)
  /-- A command that takes no operand came with a non-zero `arg`. -/
  | nonzeroOperand (op arg : Byte)
  deriving DecidableEq, Repr

/-- The command of an opcode, given the operand byte; `none` for a reserved opcode (R82, R83). -/
def commandOf (op arg : Byte) : Option Instr :=
  match op.toNat with
  | 0 => some .nop
  | 1 => some .clr
  | 2 => some (.put arg)
  | 3 => some .cnt
  | 4 => some .bld
  | 5 => some .asg
  | 6 => some .enc
  | 7 => some .run
  | _ => none

/-- R81: only `PUT`'s opcode takes an operand. -/
def takesOperand (op : Byte) : Bool := op == 2

/-- The command a word stands for, or why it is illegal (R82, R83, R84). -/
def decode (cmd : Word) : Except DecodeError Instr :=
  match commandOf (opField cmd) (argField cmd) with
  | none => .error (.reservedOpcode (opField cmd))
  | some i =>
    if takesOperand (opField cmd) = true ∨ argField cmd = 0 then .ok i
    else .error (.nonzeroOperand (opField cmd) (argField cmd))

/-- The word of a command (R82). -/
def encode : Instr → Word
  | .nop => mkWord 0x00 0x00
  | .clr => mkWord 0x01 0x00
  | .put b => mkWord 0x02 b
  | .cnt => mkWord 0x03 0x00
  | .bld => mkWord 0x04 0x00
  | .asg => mkWord 0x05 0x00
  | .enc => mkWord 0x06 0x00
  | .run => mkWord 0x07 0x00

/-- The mnemonic of a command (R82). -/
def Instr.mnemonic : Instr → String
  | .nop => "NOP"
  | .clr => "CLR"
  | .put _ => "PUT"
  | .cnt => "CNT"
  | .bld => "BLD"
  | .asg => "ASG"
  | .enc => "ENC"
  | .run => "RUN"

/-- One row of the opcode map (R82): a word `cmd` is the row's command exactly when `cmd & mask = match`. -/
structure OpcodeRow where
  mnemonic : String
  matchBits : Word
  mask : Word
  deriving DecidableEq, Repr

/-- `cmd & mask = match` (R82). -/
def OpcodeRow.accepts (r : OpcodeRow) (cmd : Word) : Bool := cmd &&& r.mask == r.matchBits

/-- The opcode map (R82). -/
def opcodeMap : List OpcodeRow :=
  [ ⟨"NOP", 0x0000, 0xFFFF⟩, ⟨"CLR", 0x0100, 0xFFFF⟩, ⟨"PUT", 0x0200, 0xFF00⟩, ⟨"CNT", 0x0300, 0xFFFF⟩,
    ⟨"BLD", 0x0400, 0xFFFF⟩, ⟨"ASG", 0x0500, 0xFFFF⟩, ⟨"ENC", 0x0600, 0xFFFF⟩, ⟨"RUN", 0x0700, 0xFFFF⟩ ]

/-- The command word of `nbits` bits whose bits are `w`, bits above `nbits` zero. -/
def tableWord (nbits w : Nat) : Word := BitVec.ofNat 16 (w % 2 ^ nbits)

/-- What the decoder reads from a row of spec/opcode_table.json. Every command is one 16-bit word (R80), so a longer row
stands for no command. -/
def decodeTableWord (nbits w : Nat) : Option Instr :=
  if nbits ≤ 16 then (decode (tableWord nbits w)).toOption else none

end Sys2Proof
end

