-- ==== Sys2Proof/Machine/State.lean ====
section
/-! DEFINITION. The state of HUFENC as plain data: everything of R20, and two fields of the model's own (the parameters, log
entry 1; the host's pending commands, log entry 2). An array whose entries may hold no value (R38) is a list of index and value
pairs with the indices rising, in which an entry that holds no value is not listed; a frequency counter that is not listed is 0
(log entry 4). -/

namespace Sys2Proof.Machine

/-- `PHASE` (R34). Its 3-bit codes are `Phase.code`; the values 5 and 6 are never held, so the type has no name for them. -/
inductive Phase where
  | load
  | counted
  | built
  | assigned
  | done
  | fault
  deriving DecidableEq, Repr

/-- `ERR` (R35). Its 3-bit codes are `ErrCode.code`; the reserved value 7 is never held. `ioError` and `malformedArtifact` are
named by R35 and never set by the block (R233): fault entry takes a `FaultKind`. -/
inductive ErrCode where
  | none
  | emptyInput
  | ioError
  | malformedArtifact
  | illegalCommand
  | badSequence
  | inputOverflow
  deriving DecidableEq, Repr

/-- The complete list of faults HUFENC can raise (R225). Taking one is a NEXT state (R100, R228), not a stop of the machine. -/
inductive FaultKind where
  | emptyInput
  | illegalCommand
  | badSequence
  | inputOverflow
  deriving DecidableEq, Repr

/-- A codeword in its stored form (R31): `clen` bits, right-aligned in the 255-bit field, first bit most significant. -/
structure Codeword where
  clen : Nat
  code : CodeBits
  deriving DecidableEq, Repr

/-- The fields `depth`, `clen`, `code` of a node (R25), which hold no value until `ASG` and are written together by it. -/
structure PathLabel where
  depth : Nat
  word : Codeword
  deriving DecidableEq, Repr

/-- A tree-node record (R25). `label` holds `depth`, `clen`, `code`; `none` is 'no value until `ASG`' (R38). -/
structure Node where
  leaf : Bool
  sym : Byte
  left : Nat
  right : Nat
  weight : Nat
  label : Option PathLabel
  deriving DecidableEq, Repr

/-- A Priority Entry of the merge queue (R29). -/
structure Entry where
  weight : Nat
  seq : Nat
  node : Nat
  deriving DecidableEq, Repr

/-- A partial map from indices to values, as pairs with rising indices; an index that is not listed holds no value. -/
abbrev SparseMap (α : Type) := List (Nat × α)

/-- A byte memory (R60, R61): the cells that hold a value. -/
abbrev Memory := List Host.Cell

/-- The state of the block (R20), with the two fields of the model's own first. Numbers of a stated width are natural numbers
(R8; log entry 3); `State.Inv` bounds each by its width. -/
structure State where
  /-- The parameters `FREQ_W` and `IN_CAP` (R6): not architectural state (R45), changed by no step (log entry 1). -/
  params : Params
  /-- The command words the host will issue, the next one first: the host's, not the block's (R45; log entry 2). -/
  cmds : List Word
  /-- `PHASE`, 3 bits (R34). -/
  phase : Phase
  /-- `ERR`, 3 bits (R35). -/
  err : ErrCode
  /-- `LEN`, `FREQ_W` bits (R22). -/
  len : Nat
  /-- `IN`, `IN_CAP` bytes (R60). -/
  inMem : Memory
  /-- `FREQ[0..255]`, `FREQ_W` bits each (R23); a counter not listed is 0. -/
  freq : SparseMap Nat
  /-- `NSYM`, 9 bits (R24). -/
  nsym : Nat
  /-- `NODE[0..510]` (R25); an entry not listed holds no value (R39). -/
  node : SparseMap Node
  /-- `NNODE`, 9 bits (R27). -/
  nnode : Nat
  /-- `ROOT`, 9 bits (R27). -/
  root : Nat
  /-- `MQ`, the set of pending Priority Entries (R29), listed in order of insertion. -/
  mq : List Entry
  /-- `NSEQ`, 9 bits (R29). -/
  nseq : Nat
  /-- `CROM[0..255]` (R30); an entry is listed exactly when its `valid` bit is 1. -/
  crom : SparseMap Codeword
  /-- `TOTALBITS`, `FREQ_W + 8` bits (R32). -/
  totalBits : Nat
  /-- `PAD`, 3 bits (R32). -/
  pad : Nat
  /-- `OUTLEN`, `FREQ_W + 5` bits (R32). -/
  outLen : Nat
  /-- `OUT`, `2^(FREQ_W+5)` bytes (R61). -/
  outMem : Memory
  deriving DecidableEq, Repr

/-- Why the machine stops at an address or index that does not exist. None is a fault of HUFENC: R69 and R8 say that no rule
generates such an access, and no state that meets `State.Inv` reaches one. All are safe (log entry 6). -/
inductive Fault where
  /-- Raised by `PUT`: a write of `IN` at or above `IN_CAP` (R60, R69). Safe. -/
  | inAddressOutside
  /-- Raised by `ENC` and `RUN`: a write of `OUT` at or above `2^(FREQ_W+5)` (R61, R69). Safe. -/
  | outAddressOutside
  /-- Raised by `BLD` and `RUN`: a write of `NODE` above entry 510 (R25). Safe. -/
  | arenaIndexOutside
  deriving DecidableEq, Repr

/-- Why the model gives no result. Beside `notModelled` these are the cases R38 (U13) and R136 (U7) ask a model to refuse; no
state that meets `State.Inv` reaches one. All are safe (log entry 6). -/
inductive Refusal where
  /-- An instruction that has no meaning yet; raised by its arm of `exec` and by nothing else. Safe. -/
  | notModelled (mnemonic : String)
  /-- Raised by `CNT`, `ENC`, `RUN`: a read of an `IN` cell that holds no value (R38). Safe. -/
  | inputCellHoldsNoValue
  /-- Raised by `ASG` and `RUN`: an access to an arena entry that does not exist (R39). Safe. -/
  | arenaEntryAbsent
  /-- Raised by `ASG` and `RUN`: a read of codeword fields that hold no value (R38). Safe. -/
  | codewordHoldsNoValue
  /-- Raised by `ENC` and `RUN`: a read of a codeword ROM entry whose `valid` bit is 0 (R38, R190). Safe. -/
  | romEntryInvalid
  /-- Raised by `BLD` and `RUN`: `MQ.extractMin` on an empty queue (R136). Safe. -/
  | extractMinOnEmptyQueue
  /-- Raised by `ASG` and `RUN`: the arena is no tree, and the traversal does not end after `NNODE` visits (R102). Safe. -/
  | traversalDoesNotEnd
  deriving DecidableEq, Repr

/-- The reset state (R40) of a block built with the given parameters. -/
def State.resetWith (p : Params) : State where
  params := p
  cmds := []
  phase := .load
  err := .none
  len := 0
  inMem := []
  freq := []
  nsym := 0
  node := []
  nnode := 0
  root := 0
  mq := []
  nseq := 0
  crom := []
  totalBits := 0
  pad := 0
  outLen := 0
  outMem := []

/-- The machine right after hardware reset (R40, R250), built with the spec's default parameters (R6), no command pending. -/
def State.reset : State := State.resetWith Params.default

end Sys2Proof.Machine
end

