-- ==== Sys2Proof/Machine/Flags.lean ====
section
/-! DEFINITION. The control and status values: the codes of `PHASE` and `ERR` (R34, R35), the fault codes (R225), the table of
allowed phases (R101) and the padding rule (R187). HUFENC has no condition codes (R37). -/

namespace Sys2Proof.Machine

/-- The 3-bit value of `PHASE` (R34). -/
def Phase.code : Phase → BitVec 3
  | .load => 0
  | .counted => 1
  | .built => 2
  | .assigned => 3
  | .done => 4
  | .fault => 7

/-- The 3-bit value of `ERR` (R35). -/
def ErrCode.code : ErrCode → BitVec 3
  | .none => 0
  | .emptyInput => 1
  | .ioError => 2
  | .malformedArtifact => 3
  | .illegalCommand => 4
  | .badSequence => 5
  | .inputOverflow => 6

/-- What fault entry records in `ERR` (R225). -/
def FaultKind.err : FaultKind → ErrCode
  | .emptyInput => .emptyInput
  | .illegalCommand => .illegalCommand
  | .badSequence => .badSequence
  | .inputOverflow => .inputOverflow

/-- The phases in which a command is allowed (R101's table). Phase `FAULT` is decided before this check (R101 step 1). -/
def allowed : Instr → Phase → Bool
  | .nop, _ => true
  | .clr, _ => true
  | .put _, p => p == .load
  | .cnt, p => p == .load
  | .bld, p => p == .counted
  | .asg, p => p == .built
  | .enc, p => p == .assigned
  | .run, p => p == .load

/-- `PAD` from `TOTALBITS` (R187). -/
def padOf (totalBits : Nat) : Nat := (8 - totalBits % 8) % 8

end Sys2Proof.Machine
end

