-- ==== Sys2Proof/Machine/Ops.lean ====
section
/-! DEFINITION. The named operations over the state: reading and writing the memories and register arrays, fault entry and the
return from a fault, sequencing, the merge queue's four operations, creating a node, and accepting a command word. -/

namespace Sys2Proof.Machine

/-! ### Partial maps: the two memories and the register arrays (R11, R38) -/

/-- The value at index `i`, or `none` where the entry holds no value (R38). -/
def lookup {α : Type} : SparseMap α → Nat → Option α
  | [], _ => none
  | (j, v) :: m, i => if j = i then some v else lookup m i

/-- The map with value `v` at index `i` (R11), its indices kept rising. -/
def store {α : Type} : SparseMap α → Nat → α → SparseMap α
  | [], i, v => [(i, v)]
  | (j, w) :: m, i, v =>
    if i < j then (i, v) :: (j, w) :: m
    else if i = j then (i, v) :: m
    else (j, w) :: store m i v

/-- The canonical form: indices strictly rising. -/
abbrev SparseMap.wf {α : Type} (m : SparseMap α) : Prop := m.Pairwise fun c d => c.1 < d.1

/-- The canonical form of a memory. An unlisted address holds no value, so no listed cell repeats what an unlisted one reads
as. -/
abbrev Memory.wf (m : Memory) : Prop := SparseMap.wf m

/-- `MemRead(m, a, 1)` (R11, R62): one byte. -/
def Memory.read (m : Memory) (a : Nat) : Option Byte := lookup m a

/-- `MemWrite(m, a, 1, v)` (R11, R62): one byte. -/
def Memory.write (m : Memory) (a : Nat) (v : Byte) : Memory := store m a v

/-- `MemWrite` of a string of bytes at ascending addresses from `a` (R61). -/
def Memory.writeBytes (m : Memory) (a : Nat) : List Byte → Memory
  | [] => m
  | b :: bs => Memory.writeBytes (Memory.write m a b) (a + 1) bs

/-! ### Fault entry and return (R228, R104) -/

/-- `raise F` (R228): `PHASE` and `ERR` are written and nothing else. -/
def State.raise (s : State) (f : FaultKind) : State := { s with phase := .fault, err := f.err }

/-- The only return from a fault, and the effect of `CLR` in every phase (R104, R230): every piece of state takes its reset
value. The parameters and the host's pending commands are not state of the block (R40, R45). -/
def State.clear (s : State) : State :=
  { params := s.params, cmds := s.cmds,
    phase := .load, err := .none, len := 0, nsym := 0,
    freq := [], crom := [],
    nnode := 0, root := 0, mq := [], nseq := 0,
    totalBits := 0, pad := 0, outLen := 0,
    inMem := [], outMem := [], node := [] }

/-! ### Sequencing -/

/-- The outcome of one step of the model. -/
abbrev Result := Host.Outcome State Fault Refusal

/-- First `r`, then `k` from the state it reaches; a stop of `r` stays. -/
def andThen (r : Result) (k : State → Result) : Result :=
  match r with
  | .next s => k s
  | .fault f => .fault f
  | .refused e => .refused e

/-- `k` of a value, or a refusal where there is none. -/
def orRefuse {α : Type} (o : Option α) (e : Refusal) (k : α → Result) : Result :=
  match o with
  | some a => k a
  | none => .refused e

/-- Steps 1, 3 and 4 of dispatch for a legal command (R101): in phase `FAULT` nothing happens; in a phase that does not allow
the command `BAD_SEQUENCE` is raised; otherwise the command's own rule runs. -/
def dispatch (i : Instr) (body : State → Result) (s : State) : Result :=
  if s.phase = .fault then .next s
  else if allowed i s.phase = true then body s
  else .next (s.raise .badSequence)

/-- Steps 1 and 2 of dispatch for an illegal word (R101, R83). -/
def execIllegal (s : State) : Result :=
  if s.phase = .fault then .next s else .next (s.raise .illegalCommand)

/-- The next command word the host issues, and the state with it consumed (R80). -/
def State.takeCommand (s : State) : Option (Word × State) :=
  match s.cmds with
  | [] => none
  | w :: rest => some (w, { s with cmds := rest })

/-! ### The merge queue (R130 to R136) -/

/-- The key order of R130: weight first, then insertion sequence number. -/
def Entry.before (a b : Entry) : Bool :=
  decide (a.weight < b.weight) || (decide (a.weight = b.weight) && decide (a.seq < b.seq))

/-- The entry of smallest key; `none` for the empty queue. -/
def minEntry : List Entry → Option Entry
  | [] => none
  | e :: q =>
    match minEntry q with
    | none => some e
    | some m => if Entry.before m e = true then some m else some e

/-- `MQ.insert(node, weight)` (R131). -/
def State.mqInsert (s : State) (node weight : Nat) : State :=
  { s with mq := s.mq ++ [{ weight := weight, seq := s.nseq, node := node }], nseq := s.nseq + 1 }

/-- `MQ.extractMin()` (R132): the entry and the state without it; no result on the empty queue (R136). -/
def State.mqExtractMin (s : State) : Option (Entry × State) :=
  match minEntry s.mq with
  | none => none
  | some e => some (e, { s with mq := s.mq.erase e })

/-- `MQ.size()` (R134). -/
def State.mqSize (s : State) : Nat := s.mq.length

/-- `MQ.isEmpty()` (R135). -/
def State.mqIsEmpty (s : State) : Bool := s.mqSize == 0

/-! ### The node arena (R25, R27, R39) -/

/-- `NODE[NNODE] <- n; MQ.insert(NNODE, n.weight); NNODE <- NNODE + 1`, the creation of a node in both parts of `BLD`
(R145). Entry 510 is the last (R25). -/
def State.createNode (s : State) (n : Node) : Result :=
  if s.nnode < nodeMax then
    let s' := State.mqInsert { s with node := store s.node s.nnode n } s.nnode n.weight
    .next { s' with nnode := s.nnode + 1 }
  else .fault .arenaIndexOutside

end Sys2Proof.Machine
end

