-- ==== Sys2Proof/Machine/Operands.lean ====
section
/-! DEFINITION. The operands of the commands. `PUT`'s byte comes with the instruction (R81); every other operand of every
command is implicit architectural state, read through the accessors of this file, which give no value where R38 says that there
is none. -/

namespace Sys2Proof.Machine

/-- `MemRead(IN, a, 1)`: a cell at or above `LEN` holds no value (R38, R60). -/
def State.inAt (s : State) (a : Nat) : Option Byte := if a < s.len then Memory.read s.inMem a else none

/-- `OUT[a]`: a cell at or above `OUTLEN` holds no value (R38, R61). -/
def State.outAt (s : State) (a : Nat) : Option Byte := if a < s.outLen then Memory.read s.outMem a else none

/-- `n` reads at ascending addresses from `a`; no value if one of them has none. -/
def readRange (read : Nat → Option Byte) (a : Nat) : Nat → Option (List Byte)
  | 0 => some []
  | n + 1 =>
    match read a, readRange read (a + 1) n with
    | some b, some bs => some (b :: bs)
    | _, _ => none

/-- The input `IN[0], ..., IN[LEN-1]`, read once each in ascending order (R22, R60). -/
def State.input? (s : State) : Option (List Byte) := readRange s.inAt 0 s.len

/-- The packed bytes `OUT[0], ..., OUT[OUTLEN-1]` (R61). -/
def State.output? (s : State) : Option (List Byte) := readRange s.outAt 0 s.outLen

/-- `FREQ[b]` (R23): a counter that is not listed is 0. -/
def freqIn (m : SparseMap Nat) (b : Byte) : Nat := (lookup m b.toNat).getD 0

/-- `FREQ[b]` (R23). -/
def State.freqAt (s : State) (b : Byte) : Nat := freqIn s.freq b

/-- The 256 symbols in ascending order of their unsigned value (R21, R147). -/
def allSymbols : List Byte := (List.range numSymbols).map (BitVec.ofNat 8)

/-- The symbols that occur, in ascending order (R23, R147). -/
def State.occurring (s : State) : List Byte := allSymbols.filter fun b => decide (0 < s.freqAt b)

/-- `NODE[i]`; an entry at or above `NNODE` does not exist (R39). -/
def State.nodeAt (s : State) (i : Nat) : Option Node := if i < s.nnode then lookup s.node i else none

/-- `CROM[b]`: the codeword where `valid = 1`, no value where `valid = 0` (R30, R38). -/
def State.romAt (s : State) (b : Byte) : Option Codeword := lookup s.crom b.toNat

/-- The `valid` bit of `CROM[b]` (R30). -/
def State.romValid (s : State) (b : Byte) : Bool := (s.romAt b).isSome

/-- The signed view of a symbol, which no hardware rule uses (R9, R21). -/
def signedView (b : Byte) : Int := if b.toNat ≥ 128 then (b.toNat : Int) - 256 else b.toNat

/-! ### Codewords (R31) -/

/-- The empty codeword. -/
def Codeword.empty : Codeword := { clen := 0, code := 0 }

/-- `code <- (code << 1) | b`, `clen <- clen + 1`: one bit appended at the end. -/
def Codeword.append (w : Codeword) (b : Bool) : Codeword :=
  { clen := w.clen + 1, code := (w.code <<< 1) ||| (if b then 1 else 0) }

/-- Bit `k` of the codeword, counted from the first, is `code[clen-1-k]`. -/
def Codeword.bitAt (w : Codeword) (k : Nat) : Bool := w.code.getLsbD (w.clen - 1 - k)

/-- The codeword as a bit string, first bit first. -/
def Codeword.bits (w : Codeword) : List Bool := (List.range w.clen).map w.bitAt

/-- The stored form of a bit string. -/
def Codeword.ofBits (bits : List Bool) : Codeword := bits.foldl Codeword.append Codeword.empty

end Sys2Proof.Machine
end

