-- ==== Sys2Proof/Machine/BitEncoder.lean ====
section
/-! DEFINITION. The Bit Encoder: command `ENC` (R185 to R195). The meaning is the three equations of R186 to R188, which R185
says are the definition; the shift-and-OR procedure of R185 stands beside them as `emitBits`. -/

namespace Sys2Proof.Machine

/-- The codewords of a byte string, looked up in the ROM one by one (R186, R190). -/
def lookupAll (rom : Byte → Option Codeword) : List Byte → Option (List Codeword)
  | [] => some []
  | b :: bs =>
    match rom b, lookupAll rom bs with
    | some w, some ws => some (w :: ws)
    | _, _ => none

/-- `BITS` (R186): the codewords one after the other, each first bit first. -/
def concatBits (ws : List Codeword) : List Bool := ws.flatMap Codeword.bits

/-- `TOTALBITS` (R186): the sum of the codeword lengths. -/
def sumLengths (ws : List Codeword) : Nat := (ws.map Codeword.clen).sum

/-- `PADDED` (R187): `BITS` and then the padding zeros. -/
def padBits (bits : List Bool) (pad : Nat) : List Bool := bits ++ List.replicate pad false

/-- `OUT[j] = sum for k in 0..7 of p_(8j+k) * 2^(7-k)` (R64, R188). -/
def packedByte (p : List Bool) (j : Nat) : Byte :=
  BitVec.ofNat 8 ((List.range 8).map fun k => (p.getD (8 * j + k) false).toNat * 2 ^ (7 - k)).sum

/-- `OUT[0], ..., OUT[n-1]` (R188). -/
def packBits (p : List Bool) (n : Nat) : List Byte := (List.range n).map (packedByte p)

/-- The number of cells of `OUT` (R61). -/
def outCells (p : Params) : Nat := 2 ^ (p.freqW + 5)

/-- The results of the encoder written to the state (R185, R188). -/
def State.writeOutput (s : State) (totalBits pad : Nat) (bytes : List Byte) : Result :=
  if bytes.length ≤ outCells s.params then
    .next { s with outMem := Memory.writeBytes s.outMem 0 bytes, totalBits := totalBits, pad := pad,
                   outLen := bytes.length, phase := .done }
  else .fault .outAddressOutside

/-- The rule of `ENC` (R185) by the equations of R186 to R188. -/
def bodyEnc (s : State) : Result :=
  orRefuse s.input? .inputCellHoldsNoValue fun bytes =>
    orRefuse (lookupAll s.romAt bytes) .romEntryInvalid fun ws =>
      let tb := sumLengths ws
      let pad := padOf tb
      s.writeOutput tb pad (packBits (padBits (concatBits ws) pad) ((tb + pad) / 8))

/-- `ENC` (R185). -/
def execEnc (s : State) : Result := dispatch .enc bodyEnc s

/-! ### The shift-and-OR procedure of R185 -/

/-- The transient values of the packer (R185): `acc`, `nb`, and the bytes written so far, whose number is `ol`. -/
structure Packer where
  acc : Byte
  nb : Nat
  out : List Byte
  deriving DecidableEq, Repr

/-- The packer as a command finds it (R185). -/
def Packer.start : Packer := { acc := 0, nb := 0, out := [] }

/-- `emit(bit)` (R185). -/
def Packer.emit (p : Packer) (bit : Bool) : Packer :=
  let acc := (p.acc <<< 1) ||| (if bit then 1 else 0)
  if p.nb + 1 = 8 then { acc := 0, nb := 0, out := p.out ++ [acc] } else { acc := acc, nb := p.nb + 1, out := p.out }

/-- `emit` of a string of bits, first bit first. -/
def emitBits (p : Packer) (bits : List Bool) : Packer := bits.foldl Packer.emit p

/-- `BITS` and then the padding, emitted bit by bit: the bytes that R185's loops write. -/
def emitAll (ws : List Codeword) : Packer :=
  emitBits (ws.foldl (fun p w => emitBits p w.bits) Packer.start) (List.replicate (padOf (sumLengths ws)) false)

end Sys2Proof.Machine
end

