-- ==== Sys2Proof/Machine/CodeAssigner.lean ====
section
/-! DEFINITION. The Code Assigner and the codeword ROM: command `ASG` (R165 to R173). -/

namespace Sys2Proof.Machine

/-- `NODE[i].depth`, `.clen`, `.code <- l` (R165); the entry must exist (R39). -/
def State.setLabel (s : State) (i : Nat) (l : PathLabel) : Option State :=
  match s.nodeAt i with
  | none => none
  | some n => some { s with node := store s.node i { n with label := some l } }

/-- The label of the root (R166): depth 0 and the empty codeword, but the codeword `"0"` when the root is a leaf (R169). -/
def rootLabel (n : Node) : PathLabel :=
  { depth := 0, word := if n.leaf then Codeword.empty.append false else Codeword.empty }

/-- The label of a child (R167): the parent's codeword and one more bit, the parent's depth plus one. -/
def PathLabel.child (l : PathLabel) (b : Bool) : PathLabel :=
  { depth := l.depth + 1, word := l.word.append b }

/-- The visit of internal node `n` with label `l` (R167): the right child gets `1`, the left child `0`. -/
def labelChildren (n : Node) (l : PathLabel) (s : State) : Option State :=
  match s.setLabel n.right (l.child true) with
  | none => none
  | some s1 => s1.setLabel n.left (l.child false)

/-- The traversal (R165): a first-in first-out queue of arena indices, the right child put in before the left. Every node is
visited once (R167), so `NNODE` turns are enough on every tree (R102). -/
def traverse : Nat → List Nat → State → Result
  | _, [], s => .next s
  | 0, _ :: _, _ => .refused .traversalDoesNotEnd
  | k + 1, p :: q, s =>
    orRefuse (s.nodeAt p) .arenaEntryAbsent fun n =>
      if n.leaf then traverse k q s
      else orRefuse n.label .codewordHoldsNoValue fun l =>
        orRefuse (labelChildren n l s) .arenaEntryAbsent fun s1 => traverse k (q ++ [n.right, n.left]) s1

/-- The labels of all nodes (R165 to R169). A root that is a leaf is not traversed (R169). -/
def assignLabels (s : State) : Result :=
  orRefuse (s.nodeAt s.root) .arenaEntryAbsent fun r =>
    orRefuse (s.setLabel s.root (rootLabel r)) .arenaEntryAbsent fun s1 =>
      if r.leaf then .next s1 else traverse s.nnode [s.root] s1

/-- Filling the ROM (R172): for each listed arena index in order, the codeword of a leaf goes to `CROM[sym]`. -/
def fillRom : List Nat → State → Result
  | [], s => .next s
  | i :: is, s =>
    orRefuse (s.nodeAt i) .arenaEntryAbsent fun n =>
      if n.leaf then
        orRefuse n.label .codewordHoldsNoValue fun l =>
          fillRom is { s with crom := store s.crom n.sym.toNat l.word }
      else fillRom is s

/-- The rule of `ASG` (R165). -/
def bodyAsg (s : State) : Result :=
  andThen (assignLabels s) fun s1 =>
    andThen (fillRom (List.range s1.nnode) s1) fun s2 => .next { s2 with phase := .assigned }

/-- `ASG` (R165). -/
def execAsg (s : State) : Result := dispatch .asg bodyAsg s

end Sys2Proof.Machine
end

