-- ==== Sys2Proof/Machine/SymbolTable.lean ====
section
/-! DEFINITION. The Symbol Table: command `CNT` (R120 to R124). -/

namespace Sys2Proof.Machine

/-- `FREQ[b] <- FREQ[b] + 1` for every byte of the input in order (R122). -/
def countBytes (m : SparseMap Nat) : List Byte → SparseMap Nat
  | [] => m
  | b :: bs => countBytes (store m b.toNat (freqIn m b + 1)) bs

/-- The number of symbols whose counter is not 0 (R24, R122). -/
def countSymbols (m : SparseMap Nat) : Nat := allSymbols.countP fun b => decide (0 < freqIn m b)

/-- The rule of `CNT` (R122), with the empty-input check first (R121). -/
def bodyCnt (s : State) : Result :=
  if s.len = 0 then .next (s.raise .emptyInput)
  else orRefuse s.input? .inputCellHoldsNoValue fun bytes =>
    let m := countBytes s.freq bytes
    .next { s with freq := m, nsym := countSymbols m, phase := .counted }

/-- `CNT` (R122). -/
def execCnt (s : State) : Result := dispatch .cnt bodyCnt s

end Sys2Proof.Machine
end

