-- ==== Sys2Proof/Machine/TreeBuilder.lean ====
section
/-! DEFINITION. The Tree Builder: command `BLD` (R145 to R155). -/

namespace Sys2Proof.Machine

/-- The leaf record of a symbol (R145, R25). -/
def Node.ofSymbol (b : Byte) (weight : Nat) : Node :=
  { leaf := true, sym := b, left := 0, right := 0, weight := weight, label := none }

/-- The internal record over two extracted entries: the first extracted is the right child, the second the left (R148, R153);
the placeholder symbol is 0 (R26). -/
def Node.ofMerge (first second : Entry) : Node :=
  { leaf := false, sym := 0, left := second.node, right := first.node, weight := first.weight + second.weight, label := none }

/-- Seeding (R147): one leaf and one queue entry for each symbol of the list that occurs, in the list's order. -/
def seed : List Byte → State → Result
  | [], s => .next s
  | b :: bs, s =>
    if 0 < s.freqAt b then andThen (s.createNode (Node.ofSymbol b (s.freqAt b))) (seed bs) else seed bs s

/-- One merge (R148): two extractions and the creation of their parent. -/
def mergeOnce (s : State) : Result :=
  orRefuse s.mqExtractMin .extractMinOnEmptyQueue fun x =>
    orRefuse x.2.mqExtractMin .extractMinOnEmptyQueue fun y => y.2.createNode (Node.ofMerge x.1 y.1)

/-- `while MQ.size() > 1` (R148). Each merge lowers the size by one, so a bound of `MQ.size()` turns is never used up. -/
def mergeLoop : Nat → State → Result
  | 0, s => .next s
  | k + 1, s => if 1 < s.mqSize then andThen (mergeOnce s) (mergeLoop k) else .next s

/-- The end of the build (R149): the last entry is extracted and names the root. -/
def finishBuild (s : State) : Result :=
  orRefuse s.mqExtractMin .extractMinOnEmptyQueue fun x => .next { x.2 with root := x.1.node, phase := .built }

/-- The rule of `BLD` (R145), with the empty check first (R146). -/
def bodyBld (s : State) : Result :=
  if s.nsym = 0 then .next (s.raise .emptyInput)
  else andThen (seed allSymbols s) fun s1 => andThen (mergeLoop s1.mqSize s1) finishBuild

/-- `BLD` (R145). -/
def execBld (s : State) : Result := dispatch .bld bodyBld s

end Sys2Proof.Machine
end

