-- ==== Sys2Proof/Machine/Control.lean ====
section
/-! DEFINITION. The commands that are no pipeline stage: `NOP` (R103), `CLR` (R104), `PUT` (R106) and `RUN` (R108). -/

namespace Sys2Proof.Machine

/-- `NOP` (R103): the next state equals the current state. -/
def execNop (s : State) : Result := dispatch .nop .next s

/-- `CLR` (R104), in every phase, `FAULT` among them (R101 step 1). -/
def execClr (s : State) : Result := .next s.clear

/-- `MemWrite(IN, a, 1, b)`; `IN` has `IN_CAP` cells (R60). -/
def State.writeIn (s : State) (a : Nat) (b : Byte) (k : State → Result) : Result :=
  if a < s.params.inCap then k { s with inMem := Memory.write s.inMem a b } else .fault .inAddressOutside

/-- The rule of `PUT` (R106). -/
def bodyPut (b : Byte) (s : State) : Result :=
  if s.len = s.params.inCap then .next (s.raise .inputOverflow)
  else s.writeIn s.len b fun s1 => .next { s1 with len := s1.len + 1 }

/-- `PUT b` (R106). -/
def execPut (b : Byte) (s : State) : Result := dispatch (.put b) (bodyPut b) s

/-- 'If it raised a fault, stop' (R108). -/
def unlessFaulted (k : State → Result) (s : State) : Result := if s.phase = .fault then .next s else k s

/-- The rule of `RUN` (R108): the rules of the four stage commands in order, without their dispatch checks. -/
def bodyRun (s : State) : Result :=
  andThen (bodyCnt s) <| unlessFaulted fun s1 =>
    andThen (bodyBld s1) <| unlessFaulted fun s2 => andThen (bodyAsg s2) bodyEnc

/-- `RUN` (R108). -/
def execRun (s : State) : Result := dispatch .run bodyRun s

end Sys2Proof.Machine
end

