-- ==== Sys2Proof/Machine/Dispatch.lean ====
section
/-! DEFINITION. `exec`: one arm per command, each one call of the command's meaning (R101 steps 1, 3 and 4 are inside it). -/

namespace Sys2Proof.Machine

def exec (i : Instr) (s : State) : Host.Outcome State Fault Refusal :=
  match i with
  | .nop => Sys2Proof.Machine.execNop s
  | .clr => Sys2Proof.Machine.execClr s
  | .put b => Sys2Proof.Machine.execPut b s
  | .cnt => Sys2Proof.Machine.execCnt s
  | .bld => Sys2Proof.Machine.execBld s
  | .asg => Sys2Proof.Machine.execAsg s
  | .enc => Sys2Proof.Machine.execEnc s
  | .run => Sys2Proof.Machine.execRun s

end Sys2Proof.Machine
end

