-- ==== Sys2Proof/Machine/Accept.lean ====
section
/-! DEFINITION. The spec's own step function: the current state and one command word give the next state (R100, R101). -/

namespace Sys2Proof.Machine

/-- The block accepts one command word (R101): a legal word is executed, an illegal one raises `ILLEGAL_COMMAND`. -/
def execWord (w : Word) (s : State) : Result :=
  match decode w with
  | .ok i => exec i s
  | .error _ => execIllegal s

end Sys2Proof.Machine
end

