-- ==== Sys2Proof/Machine/Step.lean ====
section
/-! DEFINITION. One step of the model: the block accepts the next command word the host has issued (R100, R101). It has no program
counter and fetches nothing (R36); with no command pending it waits (R250; log entry 2). -/

namespace Sys2Proof.Machine

/-- One step: the next pending command word is consumed and executed. -/
def step (s : State) : Host.Outcome State Fault Refusal :=
  match s.takeCommand with
  | none => .next s
  | some (w, s1) => execWord w s1

/-- The state in which the host issues the word of `nbits` bits `w` as its next command. -/
def State.withFetchWord (s : State) (nbits w : Nat) : State := { s with cmds := tableWord nbits w :: s.cmds }

end Sys2Proof.Machine
end

