-- ==== Sys2Proof/Machine/Serializer.lean ====
section
/-! DEFINITION. The Artifact Serializer's host-side functions (R205 to R216): pure functions of the state, no commands of the
block. `Dec`, `TreeText`, `Artifact`, and the reference decoder `Parse` and `Decode` through which the round-trip law is
stated. -/

namespace Sys2Proof.Machine

/-! ### Numerals and characters (R210, R211) -/

/-- The decimal digit character of `d < 10`. -/
def digitChar (d : Nat) : Char := Char.ofNat (48 + d)

/-- `Dec(n)` for `n` of at most three digits (R210): no sign, no leading zero. -/
def dec (n : Nat) : List Char :=
  if n < 10 then [digitChar n]
  else if n < 100 then [digitChar (n / 10), digitChar (n % 10)]
  else [digitChar (n / 100), digitChar (n / 10 % 10), digitChar (n % 10)]

/-- Each character is one byte in the artifact, its ASCII code (R210). -/
def asciiByte (c : Char) : Byte := BitVec.ofNat 8 c.toNat

/-- The line terminator `0D 0A` (R211). -/
def lineEnd : List Byte := [0x0D, 0x0A]

/-! ### Abstract trees and their text (R205 to R208, R214) -/

/-- The trees of the grammar (R205, R214): a leaf, a two-child node (left first), a one-child node. -/
inductive Tree where
  | leaf (sym : Byte)
  | node2 (left right : Tree)
  | node1 (child : Tree)
  deriving DecidableEq, Repr

/-- The text of a tree (R205 to R208). -/
def Tree.text : Tree → List Char
  | .leaf b => dec b.toNat
  | .node2 l r => '(' :: (l.text ++ ' ' :: (r.text ++ [')']))
  | .node1 c => '(' :: (c.text ++ [')'])

/-- `TreeText(i)` by recursion on the arena (R206); no text where an entry does not exist (R39). Children have smaller indices
(R27), so `i + 1` turns reach every leaf under `i`. -/
def treeTextIn (nodeAt : Nat → Option Node) : Nat → Nat → Option (List Char)
  | 0, _ => none
  | k + 1, i =>
    match nodeAt i with
    | none => none
    | some n =>
      if n.leaf then some (dec n.sym.toNat)
      else
        match treeTextIn nodeAt k n.left, treeTextIn nodeAt k n.right with
        | some l, some r => some ('(' :: (l ++ ' ' :: (r ++ [')'])))
        | _, _ => none

/-- `TreeText(i)` (R206). -/
def State.treeText (s : State) (i : Nat) : Option (List Char) := treeTextIn s.nodeAt (i + 1) i

/-- The tree of the arena under entry `i`, its shape and leaf symbols (R214, R216). -/
def treeIn (nodeAt : Nat → Option Node) : Nat → Nat → Option Tree
  | 0, _ => none
  | k + 1, i =>
    match nodeAt i with
    | none => none
    | some n =>
      if n.leaf then some (.leaf n.sym)
      else
        match treeIn nodeAt k n.left, treeIn nodeAt k n.right with
        | some l, some r => some (.node2 l r)
        | _, _ => none

/-- The tree of the arena under entry `i`. -/
def State.tree (s : State) (i : Nat) : Option Tree := treeIn s.nodeAt (i + 1) i

/-- The phases in which the arena holds a finished tree: `BUILT` or later (R206, R27). -/
def Phase.hasTree : Phase → Bool
  | .built | .assigned | .done => true
  | .load | .counted | .fault => false

/-- The serialized tree of a run, `TreeText(ROOT)` (R206). -/
def State.runTreeText (s : State) : Option (List Char) := if s.phase.hasTree then s.treeText s.root else none

/-! ### The artifact (R212, R213) -/

/-- The Compressed Artifact: 'an ordered record' of four parts (R13, R212). -/
structure Artifact where
  name : List Byte
  treeText : List Char
  pad : Nat
  packed : List Byte
  deriving DecidableEq, Repr

/-- The artifact's bytes (R212): three header lines, then the packed bytes. -/
def Artifact.bytes (a : Artifact) : List Byte :=
  a.name ++ lineEnd ++ a.treeText.map asciiByte ++ lineEnd ++ (dec a.pad).map asciiByte ++ lineEnd ++ a.packed

/-- `Artifact(name)` (R212), defined only in phase `DONE` (R18). -/
def State.artifact (s : State) (name : List Byte) : Option Artifact :=
  if s.phase = .done then
    match s.treeText s.root, s.output? with
    | some t, some bs => some { name := name, treeText := t, pad := s.pad, packed := bs }
    | _, _ => none
  else none

/-! ### The end of a run (R18, R256) -/

/-- What the host has in hand between two commands (R18, R256). -/
inductive RunStatus where
  /-- `DONE`: the result is there. -/
  | complete (artifact : Artifact)
  /-- `FAULT`: no result; the kind of the fault. -/
  | failed (err : ErrCode)
  /-- Neither. -/
  | unfinished
  deriving DecidableEq, Repr

/-- The host's reading of a run with the name it keeps (R18, R252 step 4). -/
def State.status (s : State) (name : List Byte) : RunStatus :=
  if s.phase = .fault then .failed s.err
  else
    match s.artifact name with
    | some a => .complete a
    | none => .unfinished

/-! ### The reference decoder (R214, R215) -/

/-- Is it a digit `0` to `9`? -/
def isDigit (c : Char) : Bool := decide (48 ≤ c.toNat) && decide (c.toNat ≤ 57)

/-- The longest run of digits at the front, and the rest (R214). -/
def takeDigits : List Char → List Char × List Char
  | [] => ([], [])
  | c :: cs => if isDigit c then (c :: (takeDigits cs).1, (takeDigits cs).2) else ([], c :: cs)

/-- The value of a run of digits. -/
def digitsValue (ds : List Char) : Nat := ds.foldl (fun n c => 10 * n + (c.toNat - 48)) 0

/-- `Parse` on the remaining characters (R214), by bracket structure and never by value (R209): the tree and the characters
after it. Each call reads at least one character, so the text's length bounds the turns. -/
def parseAt : Nat → List Char → Option (Tree × List Char)
  | 0, _ => none
  | _, [] => none
  | k + 1, c :: cs =>
    if isDigit c then
      let n := digitsValue (takeDigits (c :: cs)).1
      if n ≤ 255 then some (.leaf (BitVec.ofNat 8 n), (takeDigits (c :: cs)).2) else none
    else if c = '(' then
      match parseAt k cs with
      | some (t1, ' ' :: rest) =>
        match parseAt k rest with
        | some (t2, ')' :: rest2) => some (.node2 t1 t2, rest2)
        | _ => none
      | some (t1, ')' :: rest) => some (.node1 t1, rest)
      | _ => none
    else none

/-- `Parse(text)` (R214): the whole text must be consumed; no tree is `MalformedArtifactError`. -/
def parse (text : List Char) : Option Tree :=
  match parseAt (text.length + 1) text with
  | some (t, []) => some t
  | _ => none

/-- The bits of a byte, most significant first (R64). -/
def byteBits (b : Byte) : List Bool := (List.range 8).map fun k => b.getLsbD (7 - k)

/-- The bits of `bytes` read most significant bit first, byte 0 first, with the last `pad` bits dropped (R215); not defined when
there are fewer than `pad` bits. -/
def unpackBits (pad : Nat) (bytes : List Byte) : Option (List Bool) :=
  let bits := bytes.flatMap byteBits
  if pad ≤ bits.length then some (bits.take (bits.length - pad)) else none

/-- Has the tree no one-child node? -/
def Tree.isFull : Tree → Bool
  | .leaf _ => true
  | .node2 l r => l.isFull && r.isFull
  | .node1 _ => false

/-- The walk of R215 from node `cur`: right on `1`, left on `0`; at a leaf its symbol comes out and the walk goes on at the root;
the input must end at the root. -/
def walk (root : Tree) : Tree → List Bool → Option (List Byte)
  | cur, [] => if cur = root then some [] else none
  | .node2 l r, b :: bs =>
    match (if b then r else l) with
    | .leaf s => (walk root root bs).map (s :: ·)
    | t => walk root t bs
  | _, _ :: _ => none

/-- `Decode(tree, pad, bytes)` (R215). A single leaf, bare or wrapped once, stands for one symbol a bit; a tree with any other
one-child node has no decoding (U6). -/
def decodeArtifact (tree : Tree) (pad : Nat) (bytes : List Byte) : Option (List Byte) :=
  match unpackBits pad bytes with
  | none => none
  | some bits =>
    match tree with
    | .leaf s => some (List.replicate bits.length s)
    | .node1 (.leaf s) => some (List.replicate bits.length s)
    | .node1 _ => none
    | .node2 l r => if (Tree.node2 l r).isFull then walk (.node2 l r) (.node2 l r) bits else none

end Sys2Proof.Machine
end

