-- ==== Sys2Proof/Machine/Assembler.lean ====
section
/-! DEFINITION. The notation of the spec's listings: the pseudo-instructions' expansions (R87) and the one-line assembler syntax
(R86). None of it is behaviour of the block (D27). Where R86 and R87 leave the notation open, log entry 8 says what is accepted. -/

namespace Sys2Proof

/-- The commands a pseudo-instruction stands for (R87). -/
def Pseudo.expand : Pseudo → List Instr
  | .puts cs => cs.map fun c => .put (Machine.asciiByte c)
  | .putb bs => bs.map .put
  | .compress bs => .clr :: (bs.map .put ++ [.run])
  | .steps => [.cnt, .bld, .asg, .enc]

/-- The assembled form of a program: its words in order (R86). -/
def assemble (p : List Instr) : List Word := p.map encode

namespace Assembler

/-- A space or a tab. DESIGN CHOICE (log entry 8): R86 and R87 say nothing of blanks. -/
def isBlank (c : Char) : Bool := c == ' ' || c == '\t'

/-- The characters after leading blanks. -/
def skipBlanks (cs : List Char) : List Char := cs.dropWhile isBlank

/-- Nothing but blanks and a comment is left; a comment runs from `;` to the end of the line (R86). -/
def atEnd (cs : List Char) : Bool :=
  match skipBlanks cs with
  | [] => true
  | c :: _ => c == ';'

/-- The value of a hexadecimal digit. DESIGN CHOICE (log entry 8): both cases of a letter. -/
def hexDigit (c : Char) : Option Nat :=
  if Machine.isDigit c then some (c.toNat - 48)
  else if 65 ≤ c.toNat ∧ c.toNat ≤ 70 then some (c.toNat - 55)
  else if 97 ≤ c.toNat ∧ c.toNat ≤ 102 then some (c.toNat - 87)
  else none

/-- The value of the longest run of hexadecimal digits, given the value so far and whether there was one, and the rest. -/
def takeHex : Nat → Bool → List Char → Option (Nat × List Char)
  | n, seen, [] => if seen then some (n, []) else none
  | n, seen, c :: cs =>
    match hexDigit c with
    | some d => takeHex (16 * n + d) true cs
    | none => if seen then some (n, c :: cs) else none

/-- An operand byte from its value, which must be `0..255` (R86). -/
def byteOperand (n : Nat) (rest : List Char) : Option (Byte × List Char) :=
  if n ≤ 255 then some (BitVec.ofNat 8 n, rest) else none

/-- One operand (R86): a character literal, a hexadecimal or a decimal integer; and the rest. DESIGN CHOICE (log entry 8): a number
may have leading zeros, and a semicolon or a single quote in a character literal stands for itself. -/
def operand : List Char → Option (Byte × List Char)
  | '\'' :: c :: '\'' :: rest => if c.toNat < 128 then some (Machine.asciiByte c, rest) else none
  | '0' :: 'x' :: rest => (takeHex 0 false rest).bind fun x => byteOperand x.1 x.2
  | cs =>
    let x := Machine.takeDigits cs
    if x.1.isEmpty then none else byteOperand (Machine.digitsValue x.1) x.2

/-- Operands separated by commas, up to the end of the line (R87). The line's length bounds the turns. DESIGN CHOICE (log entry 8):
blanks may stand before and after a comma. -/
def operands : Nat → List Char → Option (List Byte)
  | 0, _ => none
  | k + 1, cs =>
    (operand (skipBlanks cs)).bind fun x =>
      if atEnd x.2 then some [x.1]
      else
        match skipBlanks x.2 with
        | ',' :: rest => (operands k rest).map (x.1 :: ·)
        | _ => none

/-- The operand list of a line. DESIGN CHOICE (log entry 8): it may be empty. -/
def operandList (cs : List Char) : Option (List Byte) := if atEnd cs then some [] else operands (cs.length + 1) cs

/-- A string literal in double quotes of ASCII characters, up to the end of the line (R87). DESIGN CHOICE (log entry 8): no escapes. -/
def stringLiteral : List Char → Option (List Char)
  | '"' :: rest =>
    let body := rest.takeWhile (· != '"')
    match rest.dropWhile (· != '"') with
    | '"' :: tail => if (Pseudo.puts body).wellFormed && atEnd tail then some body else none
    | _ => none
  | _ => none

/-- The commands of the seven mnemonics that take no operand (R86), and `STEPS` (R87). -/
def plain (m : String) : Option (List Instr) :=
  if m = "NOP" then some [.nop]
  else if m = "CLR" then some [.clr]
  else if m = "CNT" then some [.cnt]
  else if m = "BLD" then some [.bld]
  else if m = "ASG" then some [.asg]
  else if m = "ENC" then some [.enc]
  else if m = "RUN" then some [.run]
  else if m = "STEPS" then some Pseudo.steps.expand
  else none

/-- One line of a listing (R86, R87): the commands it stands for; none where it is not of the syntax. DESIGN CHOICE (log entry 8):
blanks may stand at the start of a line, and a line with nothing but a comment stands for no command. -/
def line (cs : List Char) : Option (List Instr) :=
  if atEnd cs then some []
  else
    let text := skipBlanks cs
    let m := String.ofList (text.takeWhile Char.isUpper)
    let rest := text.dropWhile Char.isUpper
    if atEnd rest || rest.head?.any isBlank then
      if m = "PUT" then
        (operand (skipBlanks rest)).bind fun x => if atEnd x.2 then some [.put x.1] else none
      else if m = "PUTS" then (stringLiteral (skipBlanks rest)).map fun s => (Pseudo.puts s).expand
      else if m = "PUTB" then (operandList rest).map fun bs => (Pseudo.putb bs).expand
      else if m = "COMPRESS" then (operandList rest).map fun bs => (Pseudo.compress bs).expand
      else if atEnd rest then plain m
      else none
    else none

/-- A listing, line by line (R86). -/
def listing : List (List Char) → Option (List Instr)
  | [] => some []
  | l :: ls =>
    match line l, listing ls with
    | some p, some q => some (p ++ q)
    | _, _ => none

end Assembler

end Sys2Proof
end

