-- ==== Sys2Proof/Safety.lean ====
section
/-! DEFINITION. What a sound state and a safe run are: `State.Inv` is R41's map of what holds between commands, phase by phase,
with the stage rules it points to; `State.WidthsOk` says that every number fits the width R20 gives its register. -/

namespace Sys2Proof.Machine

/-- The entries that hold a value are exactly `0 .. n-1`. -/
def listsExactly {α : Type} (m : SparseMap α) (n : Nat) : Prop := m.map Prod.fst = List.range n

/-- The input bytes in order of arrival. -/
def State.bytes (s : State) : List Byte := s.inMem.map Prod.snd

/-- The weight of arena entry `i` (R151). -/
def State.weightAt (s : State) (i : Nat) : Nat := ((s.nodeAt i).map Node.weight).getD 0

/-- The codeword fields of arena entry `i`. -/
def State.labelAt (s : State) (i : Nat) : Option PathLabel := (s.nodeAt i).bind Node.label

/-- All children named by the internal nodes among `m`, in order of creation. -/
def childIndices (m : SparseMap Node) : List Nat :=
  m.flatMap fun c => if c.2.leaf then [] else [c.2.right, c.2.left]

/-- A node without its codeword fields, as `BLD` writes it. -/
def Node.unlabelled (n : Node) : Node := { n with label := none }

/-- `ERR != 0` exactly when `PHASE = FAULT` (R35), and `ERR` holds no code the block never writes (R233). -/
def State.errOk (s : State) : Prop :=
  (s.err = .none ↔ s.phase ≠ .fault) ∧ s.err ≠ .ioError ∧ s.err ≠ .malformedArtifact

/-- What holds in every phase: legal parameters (R6), `IN[0..LEN-1]` and no other cell (R22, R60), `LEN <= IN_CAP` (R22), `MQ`
empty (R29), `ERR` as R35 says. -/
def State.common (s : State) : Prop :=
  s.params.wellFormed = true ∧ listsExactly s.inMem s.len ∧ s.len ≤ s.params.inCap ∧ s.mq = [] ∧ s.errOk

/-- The counters at their reset value. -/
def State.noCounts (s : State) : Prop := s.freq = [] ∧ s.nsym = 0

/-- The counters after `CNT` (R23, R24, R123). -/
def State.counts (s : State) : Prop :=
  1 ≤ s.len ∧ SparseMap.wf s.freq ∧ (∀ c ∈ s.freq, c.1 < numSymbols ∧ 0 < c.2) ∧
  (∀ b ∈ allSymbols, s.freqAt b = s.bytes.count b) ∧ s.nsym = s.occurring.length

/-- The arena at its reset value. -/
def State.noTree (s : State) : Prop := s.node = [] ∧ s.nnode = 0 ∧ s.root = 0 ∧ s.nseq = 0

/-- The arena after `BLD`: the layout of R27 and R150, the leaves of R147, the tree invariant R28, the weights of R151. -/
def State.hasTree (s : State) : Prop :=
  listsExactly s.node s.nnode ∧ s.nnode = 2 * s.nsym - 1 ∧ s.root = 2 * s.nsym - 2 ∧ s.nseq = 2 * s.nsym - 1 ∧
  (s.node.take s.nsym).map (fun c => c.2.unlabelled) = s.occurring.map (fun b => Node.ofSymbol b (s.freqAt b)) ∧
  (∀ c ∈ s.node.drop s.nsym, c.2.leaf = false ∧ c.2.sym = 0 ∧ c.2.left < c.1 ∧ c.2.right < c.1 ∧
    c.2.weight = s.weightAt c.2.left + s.weightAt c.2.right) ∧
  (childIndices s.node).Perm (List.range s.root) ∧ s.weightAt s.root = s.len

/-- Arena entry `j` waits in the queue when entry `i` is created: it exists, and no internal node made before `i` is its parent.
During `BLD` every queue entry has `seq = node` (R150). -/
def State.waits (s : State) (i j : Nat) : Prop :=
  j < i ∧ ∀ c ∈ s.node, c.1 < i → c.2.leaf = false → j ≠ c.2.right ∧ j ≠ c.2.left

/-- Entry `j` leaves the queue before entry `k`: it is lighter, or as light and inserted earlier (R130, R150). -/
def State.leavesBefore (s : State) (j k : Nat) : Prop :=
  s.weightAt j < s.weightAt k ∨ s.weightAt j = s.weightAt k ∧ j < k

/-- The merges (R148, R153): every internal node joins the two entries that leave the queue first when it is created, the very
first as its right child, the next as its left. -/
def State.greedy (s : State) : Prop :=
  ∀ c ∈ s.node, c.2.leaf = false →
    s.waits c.1 c.2.right ∧ s.waits c.1 c.2.left ∧ s.leavesBefore c.2.right c.2.left ∧
    ∀ j, s.waits c.1 j → j ≠ c.2.right → j ≠ c.2.left → s.leavesBefore c.2.left j

/-- No codeword anywhere. -/
def State.noCodes (s : State) : Prop := (∀ c ∈ s.node, c.2.label = none) ∧ s.crom = []

/-- The codewords after `ASG`: the root's (R166, R169), the children's (R167, R170), the ROM (R172). -/
def State.codes (s : State) : Prop :=
  (∀ c ∈ s.node, c.2.label ≠ none) ∧
  s.labelAt s.root = (s.nodeAt s.root).map rootLabel ∧
  (∀ c ∈ s.node, c.2.leaf = false →
    s.labelAt c.2.right = c.2.label.map (PathLabel.child · true) ∧
    s.labelAt c.2.left = c.2.label.map (PathLabel.child · false)) ∧
  s.crom.map (fun c => (c.1, some c.2)) =
    (s.node.take s.nsym).map fun c => (c.2.sym.toNat, c.2.label.map PathLabel.word)

/-- No result of the encoder. -/
def State.noOutput (s : State) : Prop := s.totalBits = 0 ∧ s.pad = 0 ∧ s.outLen = 0 ∧ s.outMem = []

/-- The results of `ENC` (R186 to R189). -/
def State.output (s : State) : Prop :=
  ∃ ws, lookupAll s.romAt s.bytes = some ws ∧ s.totalBits = sumLengths ws ∧ s.pad = padOf s.totalBits ∧
    s.outLen = (s.totalBits + s.pad) / 8 ∧ listsExactly s.outMem s.outLen ∧
    s.outMem.map Prod.snd = packBits (padBits (concatBits ws) s.pad) s.outLen

/-- R41's lines for the data, by the phase the run has reached. -/
def State.stage (s : State) : Phase → Prop
  | .load => s.noCounts ∧ s.noTree ∧ s.noCodes ∧ s.noOutput
  | .counted => s.counts ∧ s.noTree ∧ s.noCodes ∧ s.noOutput
  | .built => s.counts ∧ s.hasTree ∧ s.greedy ∧ s.noCodes ∧ s.noOutput
  | .assigned => s.counts ∧ s.hasTree ∧ s.greedy ∧ s.codes ∧ s.noOutput
  | .done => s.counts ∧ s.hasTree ∧ s.greedy ∧ s.codes ∧ s.output
  | .fault => False

/-- What holds between commands (R41). In phase `FAULT` the data is what it was just before the faulting command (R228), so it
meets the line of some earlier phase. -/
def State.Inv (s : State) : Prop :=
  s.common ∧ (s.stage s.phase ∨ s.phase = .fault ∧ ∃ p, s.stage p)

/-- Every number fits the width of its register (R20, R25, R29, R30; R7, R8 and R168 say why), and a codeword has no bit above its
length (R31). -/
def State.WidthsOk (s : State) : Prop :=
  s.len < 2 ^ s.params.freqW ∧ (∀ b, s.freqAt b < 2 ^ s.params.freqW) ∧ s.nsym < 2 ^ 9 ∧
  s.nnode < 2 ^ 9 ∧ s.root < nodeMax ∧ s.nseq < 2 ^ 9 ∧ s.mq.length ≤ mqMax ∧
  (∀ c ∈ s.node, c.1 < nodeMax ∧ c.2.left < nodeMax ∧ c.2.right < nodeMax ∧ c.2.weight < 2 ^ s.params.freqW ∧
    ∀ l ∈ c.2.label, l.depth < 2 ^ 8 ∧ l.word.clen ≤ clenMax ∧ l.word.code.toNat < 2 ^ l.word.clen) ∧
  (∀ c ∈ s.crom, c.1 < numSymbols ∧ c.2.clen ≤ clenMax ∧ c.2.code.toNat < 2 ^ c.2.clen) ∧
  s.totalBits < 2 ^ (s.params.freqW + 8) ∧ s.pad < 2 ^ 3 ∧ s.outLen < 2 ^ (s.params.freqW + 5)

/-! ### The weighted length of a code (R154) -/

/-- `sum over s of FREQ[s] * len(s)`, the weighted length of a code (R154). -/
def State.weightedLength (s : State) (len : Byte → Nat) : Nat := (s.occurring.map fun b => s.freqAt b * len b).sum

/-- The sum of the weights of all internal nodes (R154). -/
def State.innerWeight (s : State) : Nat := ((s.node.drop s.nsym).map fun c => c.2.weight).sum

/-- A binary code in which no symbol's word is a prefix of another's (R154, R171). -/
def prefixFree (syms : List Byte) (code : Byte → List Bool) : Prop :=
  ∀ b ∈ syms, ∀ c ∈ syms, b ≠ c → ¬ code b <+: code c

/-- The length of the codeword that the ROM holds for a symbol, 0 where it holds none (R30). -/
def State.romLen (s : State) (b : Byte) : Nat := ((s.romAt b).map Codeword.clen).getD 0

/-- The bits of the codeword that the ROM holds for a symbol (R31). -/
def State.romBits (s : State) (b : Byte) : List Bool := ((s.romAt b).map Codeword.bits).getD []

/-- `TreeText(i)` written as R206's two equations, with no text where the entry does not exist. -/
def State.treeTextRule (s : State) (i : Nat) : Option (List Char) :=
  match s.nodeAt i with
  | none => none
  | some n =>
    if n.leaf then some (dec n.sym.toNat)
    else
      match s.treeText n.left, s.treeText n.right with
      | some l, some r => some (['('] ++ l ++ [' '] ++ r ++ [')'])
      | _, _ => none

/-- Commands executed one after the other; a stop stays. -/
def execAll : List Instr → State → Result
  | [], s => .next s
  | i :: is, s => andThen (exec i s) (execAll is)

/-- A run succeeded (R231): it is in phase `DONE`, which is to say that no fault is on record and the result is there. -/
def State.succeeded (s : State) : Prop := s.phase = .done ∧ s.err = .none

end Sys2Proof.Machine
end

