-- ==== Sys2Proof/Certificates/Slice0/Obligations.lean ====
section
/-! DEFINITION. The statements for the provers: what the numbered rules of spec/ say of HUFENC, in the model's terms. Where a
statement needs a state that a run can reach, it takes `State.Inv` (R41) as a hypothesis; that `State.Inv` holds after reset and
is kept by every step are statements of their own. -/

section
open Sys2Proof Sys2Proof.Machine

/-! ### Encoding (30_encoding.md) -/

/-- Words written out bit by bit from R80 and R82 decode to the commands they stand for, and two illegal words do not decode. -/
def Obligations.WrittenWordsDecode : Prop :=
  decode 0b0000000000000000#16 = .ok .nop ∧ decode 0b0000000100000000#16 = .ok .clr ∧
  decode 0b0000001001000001#16 = .ok (.put 0x41) ∧ decode 0b0000001011111111#16 = .ok (.put 0xFF) ∧
  decode 0b0000001100000000#16 = .ok .cnt ∧ decode 0b0000010000000000#16 = .ok .bld ∧
  decode 0b0000010100000000#16 = .ok .asg ∧ decode 0b0000011000000000#16 = .ok .enc ∧
  decode 0b0000011100000000#16 = .ok .run ∧
  decode 0b0000100000000000#16 = .error (.reservedOpcode 8) ∧ decode 0b0000000100000001#16 = .error (.nonzeroOperand 1 1)

/-- Decoding and encoding are inverse to each other: every well-formed command is read back from its word, and a word that
decodes is the word of the command it decodes to. -/
def Obligations.DecodeEncodeAgree : Prop :=
  (∀ i : Instr, i.wellFormed = true → decode (encode i) = .ok i) ∧
  ∀ (cmd : Word) (i : Instr), decode cmd = .ok i → encode i = cmd

/-- R81 and R82: a word is the command of a row exactly when `cmd & mask = match`; the operand of `PUT` is `cmd[7:0]`; no word
matches two rows. -/
def Obligations.DecodeFollowsTheOpcodeMap : Prop :=
  ∀ cmd : Word,
    (decode cmd = .ok .nop ↔ cmd &&& 0xFFFF = 0x0000) ∧ (decode cmd = .ok .clr ↔ cmd &&& 0xFFFF = 0x0100) ∧
    (∀ b, decode cmd = .ok (.put b) ↔ cmd &&& 0xFF00 = 0x0200 ∧ b.toNat = cmd.toNat % 256) ∧
    (decode cmd = .ok .cnt ↔ cmd &&& 0xFFFF = 0x0300) ∧ (decode cmd = .ok .bld ↔ cmd &&& 0xFFFF = 0x0400) ∧
    (decode cmd = .ok .asg ↔ cmd &&& 0xFFFF = 0x0500) ∧ (decode cmd = .ok .enc ↔ cmd &&& 0xFFFF = 0x0600) ∧
    (decode cmd = .ok .run ↔ cmd &&& 0xFFFF = 0x0700) ∧
    (∀ r ∈ opcodeMap, r.accepts cmd = true ↔ ∃ i, decode cmd = .ok i ∧ i.mnemonic = r.mnemonic) ∧
    ∀ r ∈ opcodeMap, ∀ r' ∈ opcodeMap, r.accepts cmd = true → r'.accepts cmd = true → r = r'

/-- R83: the illegal words are those with `op` in `0x08..0xFF` and those with `op` one of `0,1,3..7` and `arg != 0`; of the 65,536
words 263 are legal, 63,488 have a reserved opcode and 1,785 a non-zero operand; an illegal word raises `ILLEGAL_COMMAND` in every
phase but `FAULT`. -/
def Obligations.IllegalWords : Prop :=
  (∀ cmd : Word, (∀ i, decode cmd ≠ .ok i) ↔
    (8 ≤ cmd.toNat / 256 ∨ cmd.toNat / 256 ≠ 2 ∧ cmd.toNat % 256 ≠ 0)) ∧
  (∃ legal reserved operand : List Word, (legal ++ reserved ++ operand).Nodup ∧
    legal.length = 263 ∧ (∀ cmd, cmd ∈ legal ↔ ∃ i, decode cmd = .ok i) ∧
    reserved.length = 63488 ∧ (∀ cmd, cmd ∈ reserved ↔ 8 ≤ cmd.toNat / 256) ∧
    operand.length = 1785 ∧ ∀ cmd, cmd ∈ operand ↔ cmd.toNat / 256 < 8 ∧ cmd.toNat / 256 ≠ 2 ∧ cmd.toNat % 256 ≠ 0) ∧
  ∀ (cmd : Word) (s : State), (∀ i, decode cmd ≠ .ok i) → s.phase ≠ .fault →
    execWord cmd s = .next { s with phase := .fault, err := .illegalCommand }

/-! ### The step and dispatch (40_commands.md) -/

/-- One step executes the next pending word: a word that decodes to `i` is `exec i` from the state with the word consumed; an
illegal word raises `ILLEGAL_COMMAND`, or does nothing in phase `FAULT`. That the host's pending words stand in the state is the
model's choice (log entry 2). -/
def Obligations.StepRunsTheDecodedCommand : Prop :=
  ∀ (s : State) (cmd : Word) (rest : List Word), s.cmds = cmd :: rest →
    (∀ i, decode cmd = .ok i → step s = exec i { s with cmds := rest }) ∧
    ((∀ i, decode cmd ≠ .ok i) → s.phase = .fault → step s = .next { s with cmds := rest }) ∧
    ((∀ i, decode cmd ≠ .ok i) → s.phase ≠ .fault →
      step s = .next { s with cmds := rest, phase := .fault, err := .illegalCommand })

/-- With no command pending the block waits, unchanged: the model's choice (log entry 2), after R250's 'the block simply waits'.
With one pending, a step consumes it and never touches the parameters. -/
def Obligations.StepConsumesOneCommand : Prop :=
  ∀ s : State, (s.cmds = [] → step s = .next s) ∧
    ∀ t, step s = .next t → t.cmds = s.cmds.tail ∧ t.params = s.params

/-- R101: the order of the checks, and the table of allowed phases. -/
def Obligations.DispatchOrderAndPhases : Prop :=
  (∀ (i : Instr) (p : Phase), p ≠ .fault → (allowed i p = true ↔
    (match i with
      | .nop | .clr => True
      | .put _ | .cnt | .run => p = .load
      | .bld => p = .counted
      | .asg => p = .built
      | .enc => p = .assigned))) ∧
  ∀ (cmd : Word) (s : State),
    (s.phase = .fault → (cmd = 0x0100 → execWord cmd s = .next s.clear) ∧ (cmd ≠ 0x0100 → execWord cmd s = .next s)) ∧
    (s.phase ≠ .fault →
      ((∀ i, decode cmd ≠ .ok i) → execWord cmd s = .next (s.raise .illegalCommand)) ∧
      ∀ i, decode cmd = .ok i →
        (allowed i s.phase = false → execWord cmd s = .next (s.raise .badSequence)) ∧
        (allowed i s.phase = true → execWord cmd s =
          (match i with
            | .nop => .next s
            | .clr => .next s.clear
            | .put b => bodyPut b s
            | .cnt => bodyCnt s
            | .bld => bodyBld s
            | .asg => bodyAsg s
            | .enc => bodyEnc s
            | .run => bodyRun s)))

/-- R102: the complete list of the ways `PHASE` changes, command by command. -/
def Obligations.PhaseTransitions : Prop :=
  ∀ (i : Instr) (s t : State), exec i s = .next t →
    (i = .clr ∧ t.phase = .load) ∨
    (i ≠ .clr ∧ s.phase = .fault ∧ t.phase = .fault) ∨
    (s.phase ≠ .fault ∧ t.phase = .fault) ∨
    (i = .nop ∧ t.phase = s.phase) ∨
    ((∃ b, i = .put b) ∧ s.phase = .load ∧ t.phase = .load) ∨
    (i = .cnt ∧ s.phase = .load ∧ t.phase = .counted) ∨
    (i = .bld ∧ s.phase = .counted ∧ t.phase = .built) ∨
    (i = .asg ∧ s.phase = .built ∧ t.phase = .assigned) ∨
    (i = .enc ∧ s.phase = .assigned ∧ t.phase = .done) ∨
    (i = .run ∧ s.phase = .load ∧ t.phase = .done)

/-- R103: `NOP` completes in every state, and the next state equals the current state; its word is `0x0000`. -/
def Obligations.NopDoesNothing : Prop :=
  encode .nop = 0x0000 ∧ ∀ s : State, exec .nop s = .next s

/-- R104: `CLR` completes in every state with every piece of state at its reset value; its word is `0x0100`, and `0x0101..0x01FF`
are illegal and ignored in phase `FAULT`; it is the only command that leaves `FAULT`, and the only one that lowers `LEN`; on a
sound state in phase `LOAD` with `LEN = 0` it changes nothing. The parameters and the pending words (log entries 1 and 2) stay. -/
def Obligations.ClrClearsEverything : Prop :=
  encode .clr = 0x0100 ∧
  (∀ s : State, exec .clr s = .next
    { params := s.params, cmds := s.cmds, phase := .load, err := .none, len := 0, inMem := [], freq := [], nsym := 0,
      node := [], nnode := 0, root := 0, mq := [], nseq := 0, crom := [], totalBits := 0, pad := 0, outLen := 0,
      outMem := [] }) ∧
  (∀ (arg : Byte) (s : State), arg ≠ 0 → (∀ i, decode (mkWord 1 arg) ≠ .ok i) ∧
    (s.phase = .fault → execWord (mkWord 1 arg) s = .next s)) ∧
  (∀ (i : Instr) (s t : State), exec i s = .next t → i ≠ .clr →
    (s.phase = .fault → t.phase = .fault) ∧ s.len ≤ t.len) ∧
  ∀ s : State, s.Inv → s.phase = .load → s.len = 0 → exec .clr s = .next s

/-- R40: the reset values, read through the accessors; and `CLR` in any phase leaves exactly the reset state of a block with the
same parameters, which it does not change. That the parameters stand in the state, and that `State.reset` is the block built with
R6's defaults 32 and `2^32 - 1`, is the model's choice (log entry 1), as is the field of the pending words (log entry 2). -/
def Obligations.ResetValues : Prop :=
  (∀ p : Params, let r := State.resetWith p
    r.phase.code = 0 ∧ r.err.code = 0 ∧ r.len = 0 ∧ (∀ b, r.freqAt b = 0) ∧ r.nsym = 0 ∧ r.nnode = 0 ∧ r.root = 0 ∧
    r.mq = [] ∧ r.nseq = 0 ∧ (∀ b, r.romValid b = false) ∧ r.totalBits = 0 ∧ r.pad = 0 ∧ r.outLen = 0 ∧
    (∀ a, r.inAt a = none ∧ Memory.read r.inMem a = none) ∧ (∀ a, r.outAt a = none ∧ Memory.read r.outMem a = none) ∧
    (∀ i, r.nodeAt i = none) ∧ (∀ b, r.romAt b = none) ∧ r.params = p) ∧
  State.reset = State.resetWith { freqW := 32, inCap := 2 ^ 32 - 1 } ∧
  ∀ s : State, exec .clr s = .next { State.resetWith s.params with cmds := s.cmds }

/-- R106: `PUT b` in phase `LOAD` appends `b` at address `LEN` and changes nothing else; when `IN` is full it raises
`INPUT_OVERFLOW` and changes nothing else; in the other phases it raises `BAD_SEQUENCE`; `LEN + 1` fits the width of `LEN`. Every
other address of `IN` reads as before. -/
def Obligations.PutAppendsOneByte : Prop :=
  (∀ b, encode (.put b) = mkWord 0x02 b) ∧
  ∀ (b : Byte) (s : State), s.len ≤ s.params.inCap →
    (s.phase = .load → s.len < s.params.inCap → ∃ t, exec (.put b) s = .next t ∧
      t = { s with inMem := t.inMem, len := s.len + 1 } ∧ t.inAt s.len = some b ∧
      (∀ a, a ≠ s.len → Memory.read t.inMem a = Memory.read s.inMem a) ∧ (∀ a, a < s.len → t.inAt a = s.inAt a) ∧
      (Memory.wf s.inMem → Memory.wf t.inMem) ∧ (s.params.wellFormed = true → t.len < 2 ^ s.params.freqW)) ∧
    (s.phase = .load → s.len = s.params.inCap → exec (.put b) s = .next { s with phase := .fault, err := .inputOverflow }) ∧
    (s.phase ≠ .load → s.phase ≠ .fault → exec (.put b) s = .next { s with phase := .fault, err := .badSequence })

/-- R108: `RUN` from any state ends as the four commands `CNT`, `BLD`, `ASG`, `ENC` issued one by one end, faulting or not; out of
phase `LOAD` it raises `BAD_SEQUENCE`; from phase `LOAD` the only fault it can take is `EMPTY_INPUT`, exactly when `LEN = 0`, with
nothing else written. -/
def Obligations.RunIsTheFourCommands : Prop :=
  encode .run = 0x0700 ∧
  (∀ s : State, exec .run s = execAll [.cnt, .bld, .asg, .enc] s) ∧
  (∀ s : State, s.phase ≠ .load → s.phase ≠ .fault → exec .run s = .next { s with phase := .fault, err := .badSequence }) ∧
  (∀ s : State, s.phase = .load → s.len = 0 → exec .run s = .next { s with phase := .fault, err := .emptyInput }) ∧
  ∀ s t : State, s.phase = .load → exec .run s = .next t → t.phase = .fault → s.len = 0 ∧ t = s.raise .emptyInput

/-- `RUN` completes on every input that is not empty: it ends in phase `DONE` with no fault, writes the stage results and nothing
else, and the state it reaches is sound. -/
def Obligations.RunCompletes : Prop :=
  ∀ s : State, s.Inv → s.phase = .load → 1 ≤ s.len → ∃ t, exec .run s = .next t ∧
    t = { s with freq := t.freq, nsym := t.nsym, node := t.node, nnode := t.nnode, root := t.root, nseq := t.nseq,
                 crom := t.crom, totalBits := t.totalBits, pad := t.pad, outLen := t.outLen, outMem := t.outMem,
                 phase := .done } ∧ t.succeeded ∧ t.Inv

/-! ### Who may write what (10_state.md) -/

/-- R42: each piece of state is written by its stage command (or by `RUN`, which performs the stages) and by `CLR`, and by no
other: a command that is none of these leaves it as it was. No command writes the parameters or the pending words. -/
def Obligations.EachRegisterHasItsWriters : Prop :=
  ∀ (i : Instr) (s t : State), exec i s = .next t →
    t.params = s.params ∧ t.cmds = s.cmds ∧
    (i ≠ .clr → (∀ b, i ≠ .put b) → t.len = s.len ∧ t.inMem = s.inMem) ∧
    (i ≠ .clr → i ≠ .cnt → i ≠ .run → t.freq = s.freq ∧ t.nsym = s.nsym) ∧
    (i ≠ .clr → i ≠ .bld → i ≠ .run → t.nnode = s.nnode ∧ t.root = s.root ∧ t.mq = s.mq ∧ t.nseq = s.nseq) ∧
    (i ≠ .clr → i ≠ .bld → i ≠ .asg → i ≠ .run → t.node = s.node) ∧
    (i ≠ .clr → i ≠ .asg → i ≠ .run → t.crom = s.crom) ∧
    (i ≠ .clr → i ≠ .enc → i ≠ .run →
      t.totalBits = s.totalBits ∧ t.pad = s.pad ∧ t.outLen = s.outLen ∧ t.outMem = s.outMem) ∧
    (i ≠ .clr → t.phase ≠ .fault → t.err = s.err)

/-- Every byte of both memories is as before, but the byte that `PUT` stores at address `LEN` of `IN` and the bytes that `ENC` and
`RUN` store at addresses `0 .. OUTLEN-1` of `OUT`; `CLR` leaves no byte with a value. -/
def Obligations.MemoryFrame : Prop :=
  ∀ (i : Instr) (s t : State), exec i s = .next t →
    (i ≠ .clr → ∀ a, ((∃ b, i = .put b) → a ≠ s.len) → Memory.read t.inMem a = Memory.read s.inMem a) ∧
    (i ≠ .clr → ∀ a, (i = .enc ∨ i = .run → t.outLen ≤ a) → Memory.read t.outMem a = Memory.read s.outMem a) ∧
    (i = .clr → ∀ a, Memory.read t.inMem a = none ∧ Memory.read t.outMem a = none)

/-- Both memories keep their canonical form, whatever the state. -/
def Obligations.MemoriesStayCanonical : Prop :=
  ∀ (i : Instr) (s t : State), Memory.wf s.inMem → Memory.wf s.outMem → exec i s = .next t →
    Memory.wf t.inMem ∧ Memory.wf t.outMem

/-- In phase `DONE` no command but `CLR` changes a result: `NOP` changes nothing, and every other command raises `BAD_SEQUENCE`,
which writes `PHASE` and `ERR` only. -/
def Obligations.ResultsStandInDone : Prop :=
  ∀ (i : Instr) (s : State), s.phase = .done → i ≠ .clr →
    exec i s = .next s ∧ i = .nop ∨ exec i s = .next { s with phase := .fault, err := .badSequence } ∧ i ≠ .nop

/-! ### Faults (60_exceptions.md) -/

/-- R225 and R229: from a sound state out of phase `FAULT`, each fault is raised by exactly the words and conditions of the table,
the conditions decide between them in the order of the checks, and there is no other fault. -/
def Obligations.FaultConditions : Prop :=
  (FaultKind.emptyInput.err.code = 1 ∧ FaultKind.illegalCommand.err.code = 4 ∧ FaultKind.badSequence.err.code = 5 ∧
    FaultKind.inputOverflow.err.code = 6) ∧
  ∀ (cmd : Word) (s : State), s.Inv → s.phase ≠ .fault →
    (execWord cmd s = .next (s.raise .illegalCommand) ↔ ∀ i, decode cmd ≠ .ok i) ∧
    (execWord cmd s = .next (s.raise .badSequence) ↔ ∃ i, decode cmd = .ok i ∧ allowed i s.phase = false) ∧
    (execWord cmd s = .next (s.raise .emptyInput) ↔
      s.phase = .load ∧ s.len = 0 ∧ (decode cmd = .ok .cnt ∨ decode cmd = .ok .run)) ∧
    (execWord cmd s = .next (s.raise .inputOverflow) ↔
      s.phase = .load ∧ s.len = s.params.inCap ∧ ∃ b, decode cmd = .ok (.put b)) ∧
    ∀ t, execWord cmd s = .next t → t.phase = .fault → ∃ f : FaultKind, t = { s with phase := .fault, err := f.err }

/-- R228: whatever the state, a word that takes the block into phase `FAULT` writes `PHASE` and `ERR`, the code of one of the four
faults, and nothing else. -/
def Obligations.FaultsArePrecise : Prop :=
  ∀ (cmd : Word) (s t : State), s.phase ≠ .fault → execWord cmd s = .next t → t.phase = .fault →
    ∃ f : FaultKind, t = { s with phase := .fault, err := f.err }

/-- R231: in phase `FAULT` every word but `CLR` changes nothing, `ERR` among it; `CLR` returns to the reset state. -/
def Obligations.FaultIsLeftByClrOnly : Prop :=
  ∀ (cmd : Word) (s : State), s.phase = .fault →
    (cmd ≠ 0x0100 → execWord cmd s = .next s) ∧
    (cmd = 0x0100 → execWord cmd s = .next { State.resetWith s.params with cmds := s.cmds })

/-- R233: the codes 2 and 3 have no way to appear in `ERR`. -/
def Obligations.HostCodesNeverAppear : Prop :=
  ∀ s t : State, s.err.code ≠ 2 → s.err.code ≠ 3 → step s = .next t → t.err.code ≠ 2 ∧ t.err.code ≠ 3

/-! ### The Symbol Table (41_symbol_table.md) -/

/-- R121: with no input `CNT` raises `EMPTY_INPUT` and writes nothing else, and the Tree Builder repeats the check on its own
input. -/
def Obligations.EmptyInputFailsFast : Prop :=
  (∀ s : State, s.phase = .load → s.len = 0 → exec .cnt s = .next { s with phase := .fault, err := .emptyInput }) ∧
  ∀ s : State, s.phase = .counted → s.nsym = 0 → exec .bld s = .next { s with phase := .fault, err := .emptyInput }

/-- R122: `CNT` on input that is not empty completes; `FREQ[s]` is the number of `i < LEN` with `IN[i] = s`, `NSYM` the number of
symbols with a counter above 0, `PHASE` is `COUNTED`, and nothing else changes; out of phase `LOAD` it raises `BAD_SEQUENCE`. -/
def Obligations.CntCounts : Prop :=
  encode .cnt = 0x0300 ∧
  (∀ s : State, s.Inv → s.phase = .load → 1 ≤ s.len → ∃ t, exec .cnt s = .next t ∧
    t = { s with freq := t.freq, nsym := t.nsym, phase := .counted } ∧
    (∀ b : Byte, t.freqAt b = (List.range s.len).countP fun a => decide (s.inAt a = some b)) ∧
    t.nsym = (List.range 256).countP fun v => decide (0 < t.freqAt (BitVec.ofNat 8 v))) ∧
  (∀ s : State, s.phase = .load → s.len = 0 → exec .cnt s = .next { s with phase := .fault, err := .emptyInput }) ∧
  ∀ s : State, s.phase ≠ .load → s.phase ≠ .fault → exec .cnt s = .next { s with phase := .fault, err := .badSequence }

/-- R123: (a) the counters sum to `LEN`; (b) none is above `LEN`; (c) a counter is above 0 exactly when the symbol occurs;
(d) `1 <= NSYM <= min(256, LEN)`; (e) permuted input gives equal counters. -/
def Obligations.CountProperties : Prop :=
  (∀ s : State, s.Inv → s.phase ≠ .load → s.phase ≠ .fault →
    ((List.range 256).map fun v => s.freqAt (BitVec.ofNat 8 v)).sum = s.len ∧
    (∀ b, s.freqAt b ≤ s.len) ∧
    (∀ b, 0 < s.freqAt b ↔ ∃ a, s.inAt a = some b) ∧
    1 ≤ s.nsym ∧ s.nsym ≤ min 256 s.len) ∧
  ∀ s s' t t' : State, s.Inv → s'.Inv → s.phase = .load → s'.phase = .load → 1 ≤ s.len → s.bytes.Perm s'.bytes →
    exec .cnt s = .next t → exec .cnt s' = .next t' → t.freq = t'.freq ∧ t.nsym = t'.nsym

/-! ### The merge queue (42_merge_queue.md) -/

/-- R131: an insertion adds the entry with the next sequence number, and counts the number on. -/
def Obligations.InsertAddsOneEntry : Prop :=
  ∀ (s : State) (node weight : Nat),
    s.mqInsert node weight = { s with mq := (s.mqInsert node weight).mq, nseq := s.nseq + 1 } ∧
    (s.mqInsert node weight).mq.Perm ({ weight := weight, seq := s.nseq, node := node } :: s.mq) ∧
    (s.mqInsert node weight).mqSize = s.mqSize + 1

/-- R132, with the tie-break of R133: an extraction takes out the entry of least weight, of several such the one inserted first, and changes nothing
else; of two extractions in a row the second gives the greater key. -/
def Obligations.ExtractMinTakesTheLeast : Prop :=
  ∀ s : State, s.mq ≠ [] → (s.mq.map Entry.seq).Nodup → ∃ e, s.mqExtractMin = some (e, { s with mq := s.mq.erase e }) ∧
    e ∈ s.mq ∧ (∀ x ∈ s.mq, x ≠ e → e.weight < x.weight ∨ e.weight = x.weight ∧ e.seq < x.seq) ∧
    ∀ e' s', State.mqExtractMin { s with mq := s.mq.erase e } = some (e', s') →
      e.weight < e'.weight ∨ e.weight = e'.weight ∧ e.seq < e'.seq

/-- R134, R135 and R136: the two pure reads, and no result from the empty queue. -/
def Obligations.QueueSizeAndEmpty : Prop :=
  ∀ s : State, s.mqSize = s.mq.length ∧ (s.mqIsEmpty = true ↔ s.mqSize = 0) ∧ (s.mqExtractMin = none ↔ s.mqSize = 0) ∧
    ∀ e s', s.mqExtractMin = some (e, s') → s'.mqSize + 1 = s.mqSize ∧ s'.nseq = s.nseq

/-! ### The Tree Builder (43_tree_builder.md) -/

/-- `BLD` on counted input completes: it writes the arena, `NNODE`, `ROOT`, `NSEQ` and `PHASE` and nothing else, the queue is
empty again, and the state it reaches is sound (R145, R149). -/
def Obligations.BldCompletes : Prop :=
  encode .bld = 0x0400 ∧
  ∀ s : State, s.Inv → s.phase = .counted → ∃ t, exec .bld s = .next t ∧
    t = { s with node := t.node, nnode := t.nnode, root := t.root, nseq := t.nseq, phase := .built } ∧
    t.mq = [] ∧ t.Inv

/-- R147: seeding makes the `k`-th smallest occurring symbol the leaf `NODE[k]`, with its counter as weight, and gives its queue
entry `seq = k`. -/
def Obligations.SeedingInAscendingOrder : Prop :=
  ∀ s : State, s.Inv → s.phase = .counted →
    (s.occurring.Pairwise fun b c => b.toNat < c.toNat) ∧ (∀ b, b ∈ s.occurring ↔ 0 < s.freqAt b) ∧
    ∃ t, seed allSymbols s = .next t ∧ t.nnode = s.occurring.length ∧ t.mq.length = s.occurring.length ∧
      ∀ k b, s.occurring[k]? = some b →
        t.nodeAt k = some { leaf := true, sym := b, left := 0, right := 0, weight := s.freqAt b, label := none } ∧
        t.mq[k]? = some { weight := s.freqAt b, seq := k, node := k }

/-- One merge of R148: the two entries of least key leave the queue, the first becomes the right child and the second the left
child of a new internal node of their summed weight, and that node enters the queue. -/
def Obligations.OneMerge : Prop :=
  ∀ (s s1 s2 : State) (first second : Entry), s.nnode < 511 → s.mqExtractMin = some (first, s1) →
    s1.mqExtractMin = some (second, s2) → ∃ t, mergeOnce s = .next t ∧
      t = { s2 with node := t.node, nnode := s.nnode + 1, nseq := s.nseq + 1, mq := t.mq } ∧
      t.nodeAt s.nnode = some { leaf := false, sym := 0, right := first.node, left := second.node,
                                weight := first.weight + second.weight, label := none } ∧
      (∀ i, i ≠ s.nnode → lookup t.node i = lookup s.node i) ∧
      t.mq.Perm ({ weight := first.weight + second.weight, seq := s.nseq, node := s.nnode } :: s2.mq)

/-- What R150 says of the arena after `BLD`, in every later phase too. -/
def Obligations.TreeShape : Prop :=
  ∀ s : State, s.Inv → s.phase = .built ∨ s.phase = .assigned ∨ s.phase = .done →
    1 ≤ s.nsym ∧ s.nnode = 2 * s.nsym - 1 ∧ s.nnode ≤ 511 ∧ s.root = 2 * s.nsym - 2 ∧ s.nseq = 2 * s.nsym - 1 ∧
    (∀ k, k < s.nsym → ∃ n, s.nodeAt k = some n ∧ n.leaf = true ∧ s.occurring[k]? = some n.sym) ∧
    (∀ k, s.nsym ≤ k → k < s.nnode → ∃ n, s.nodeAt k = some n ∧ n.leaf = false ∧ n.left < k ∧ n.right < k ∧
      n.left ≠ n.right) ∧
    (∀ x, x < s.nnode → x ≠ s.root → ∃ p n, s.nodeAt p = some n ∧ n.leaf = false ∧ (n.left = x ∨ n.right = x) ∧
      ∀ p' n', s.nodeAt p' = some n' → n'.leaf = false → n'.left = x ∨ n'.right = x → p' = p) ∧
    ∀ p n, s.nodeAt p = some n → n.leaf = false → n.left ≠ s.root ∧ n.right ≠ s.root

/-- What R148 and R153 say of the merges, read off the finished arena: every internal node joins the two waiting entries of least
key, the first as the right child and the second as the left. -/
def Obligations.MergesJoinTheTwoLeast : Prop :=
  ∀ s : State, s.Inv → s.phase = .counted → ∃ t, exec .bld s = .next t ∧
    ∀ i, t.nsym ≤ i → i < t.nnode → ∃ n, t.nodeAt i = some n ∧ n.leaf = false ∧
      t.waits i n.right ∧ t.waits i n.left ∧ t.leavesBefore n.right n.left ∧
      ∀ j, t.waits i j → j ≠ n.right → j ≠ n.left → t.leavesBefore n.left j

/-- R151, for the finished arena: a leaf's weight is its symbol's counter, an internal node's the sum of its children's, every
weight is between 1 and `LEN`, the root's is `LEN`, and internal nodes come in non-decreasing order of weight. -/
def Obligations.TreeWeights : Prop :=
  ∀ s : State, s.Inv → s.phase = .built ∨ s.phase = .assigned ∨ s.phase = .done →
    (∀ i n, s.nodeAt i = some n → n.leaf = true → n.weight = s.freqAt n.sym) ∧
    (∀ i n, s.nodeAt i = some n → n.leaf = false → n.weight = s.weightAt n.left + s.weightAt n.right) ∧
    (∀ i, i < s.nnode → 1 ≤ s.weightAt i ∧ s.weightAt i ≤ s.len) ∧ s.weightAt s.root = s.len ∧
    ∀ i j, s.nsym ≤ i → i ≤ j → j < s.nnode → s.weightAt i ≤ s.weightAt j

/-- R152, and the codeword of R169: with one symbol `BLD` leaves that one leaf, unwrapped, as the root, and `ASG` gives it the codeword `"0"` and
no other entry or ROM cell anything. -/
def Obligations.SingleSymbol : Prop :=
  ∀ (s : State) (b : Byte), s.Inv → s.phase = .counted → s.occurring = [b] → ∃ t u, exec .bld s = .next t ∧
    exec .asg t = .next u ∧
    t = { s with node := [(0, { leaf := true, sym := b, left := 0, right := 0, weight := s.len, label := none })],
                 nnode := 1, root := 0, nseq := 1, phase := .built } ∧
    u = { t with node := [(0, { leaf := true, sym := b, left := 0, right := 0, weight := s.len,
                                label := some { depth := 0, word := { clen := 1, code := 0 } } })],
                 crom := [(b.toNat, { clen := 1, code := 0 })], phase := .assigned } ∧
    u.romBits b = [false]

/-- R154: with two symbols or more the code is optimal: no prefix-free binary code on the occurring symbols has a smaller weighted
length; that length is the sum of the internal weights, each codeword's length is its leaf's depth, and `TOTALBITS` is the
weighted length after `ENC`. With one symbol the length is 1 and `TOTALBITS = LEN`. -/
def Obligations.CodeIsOptimal : Prop :=
  ∀ s : State, s.Inv → s.phase = .assigned ∨ s.phase = .done →
    (2 ≤ s.nsym →
      (∀ code : Byte → List Bool, prefixFree s.occurring code →
        s.weightedLength s.romLen ≤ s.weightedLength fun b => (code b).length) ∧
      s.weightedLength s.romLen = s.innerWeight ∧
      ∀ i n l, s.nodeAt i = some n → n.leaf = true → n.label = some l → s.romLen n.sym = l.depth) ∧
    (s.nsym = 1 → ∀ b ∈ s.occurring, s.romLen b = 1) ∧
    (s.phase = .done → s.totalBits = s.weightedLength s.romLen ∧ (s.nsym = 1 → s.totalBits = s.len))

/-! ### The Code Assigner and the ROM (44_code_assigner.md) -/

/-- `ASG` on a finished tree completes: it writes the codeword fields, the ROM and `PHASE` and nothing else; the structural fields
of every entry stay (R25, R165). -/
def Obligations.AsgCompletes : Prop :=
  encode .asg = 0x0500 ∧
  ∀ s : State, s.Inv → s.phase = .built → ∃ t, exec .asg s = .next t ∧
    t = { s with node := t.node, crom := t.crom, phase := .assigned } ∧
    (∀ i, (t.nodeAt i).map Node.unlabelled = (s.nodeAt i).map Node.unlabelled) ∧
    (∀ i, i < t.nnode → ∃ l, t.labelAt i = some l) ∧ t.Inv

/-- R166 and R170: the root has depth 0 and, when it is internal, the empty codeword; every other entry has its parent's depth plus
one and its parent's codeword and one bit more, `1` for the right child and `0` for the left. -/
def Obligations.CodewordsFollowTheTree : Prop :=
  ∀ s : State, s.Inv → s.phase = .assigned ∨ s.phase = .done →
    (∀ r l, s.nodeAt s.root = some r → r.label = some l → l.depth = 0 ∧
      (r.leaf = false → l.word.clen = 0 ∧ l.word.code = 0) ∧ (r.leaf = true → l.word.clen = 1 ∧ l.word.code = 0)) ∧
    ∀ p n l, s.nodeAt p = some n → n.leaf = false → n.label = some l →
      ∃ lr ll, s.labelAt n.right = some lr ∧ s.labelAt n.left = some ll ∧
        lr.depth = l.depth + 1 ∧ ll.depth = l.depth + 1 ∧
        lr.word.clen = l.word.clen + 1 ∧ ll.word.clen = l.word.clen + 1 ∧
        lr.word.bits = l.word.bits ++ [true] ∧ ll.word.bits = l.word.bits ++ [false] ∧
        lr.word.code.toNat = 2 * l.word.code.toNat + 1 ∧ ll.word.code.toNat = 2 * l.word.code.toNat

/-- The bounds of R168: below an internal root `clen = depth`, a leaf's is between 1 and `NSYM - 1 <= 255`, and no bit stands above
the codeword's length; for a single leaf `depth = 0` and `clen = 1`. -/
def Obligations.CodewordBounds : Prop :=
  ∀ s : State, s.Inv → s.phase = .assigned ∨ s.phase = .done → ∀ i n l, s.nodeAt i = some n → n.label = some l →
    s.nsym - 1 ≤ 255 ∧ l.depth ≤ s.nsym - 1 ∧ l.word.code.toNat < 2 ^ l.word.clen ∧
    (2 ≤ s.nsym → l.word.clen = l.depth ∧ (n.leaf = true → 1 ≤ l.word.clen)) ∧
    (s.nsym = 1 → l.depth = 0 ∧ l.word.clen = 1)

/-- R171: the leaf codewords are prefix-free, non-empty and distinct, and with two symbols or more complete: every infinite bit
sequence begins with exactly one of them. -/
def Obligations.CodeIsPrefixFree : Prop :=
  ∀ s : State, s.Inv → s.phase = .assigned ∨ s.phase = .done →
    prefixFree s.occurring s.romBits ∧ (∀ b ∈ s.occurring, s.romBits b ≠ []) ∧
    (∀ b ∈ s.occurring, ∀ c ∈ s.occurring, s.romBits b = s.romBits c → b = c) ∧
    (s.nsym = 1 → ∀ b ∈ s.occurring, s.romBits b = [false]) ∧
    (2 ≤ s.nsym → ∀ f : Nat → Bool, ∃ b, (b ∈ s.occurring ∧ s.romBits b = (List.range (s.romBits b).length).map f) ∧
      ∀ c ∈ s.occurring, s.romBits c = (List.range (s.romBits c).length).map f → c = b)

/-- R172: the ROM holds the codeword of every leaf under its symbol; an entry is valid exactly when the symbol occurs; `NSYM`
entries are valid; and no command but `CLR` writes the ROM again. -/
def Obligations.RomHoldsTheLeaves : Prop :=
  ∀ s : State, s.Inv → s.phase = .assigned ∨ s.phase = .done →
    (∀ i n l, s.nodeAt i = some n → n.leaf = true → n.label = some l → s.romAt n.sym = some l.word) ∧
    (∀ b, s.romValid b = true ↔ 0 < s.freqAt b) ∧
    (List.range 256).countP (fun v => s.romValid (BitVec.ofNat 8 v)) = s.nsym ∧
    ∀ i t, i ≠ Instr.clr → exec i s = .next t → t.crom = s.crom

/-- R31: the stored form of a codeword is a bijection with the bit strings of at most 255 bits: `clen` is the length, `code` the
number the bits spell, and bit `k` counted from the first is `code[clen-1-k]`. -/
def Obligations.CodewordStorage : Prop :=
  (∀ bits : List Bool, bits.length ≤ 255 →
    (Codeword.ofBits bits).clen = bits.length ∧
    (Codeword.ofBits bits).code.toNat =
      ((List.range bits.length).map fun k => (bits.getD k false).toNat * 2 ^ (bits.length - 1 - k)).sum ∧
    (∀ k, k < bits.length → (Codeword.ofBits bits).code.getLsbD (bits.length - 1 - k) = bits.getD k false) ∧
    (Codeword.ofBits bits).bits = bits) ∧
  (∀ w : Codeword, w.clen ≤ 255 → w.code.toNat < 2 ^ w.clen → Codeword.ofBits w.bits = w) ∧
  ∀ (bits : List Bool) (b : Bool), bits.length < 255 → Codeword.ofBits (bits ++ [b]) = (Codeword.ofBits bits).append b

/-! ### The Bit Encoder (45_bit_encoder.md) -/

/-- R186, R187 and the packing of R64 and R188: `ENC` completes; with `ws` the codewords of the input bytes in order, `BITS` is their bits one after the
other, `TOTALBITS` its length, `PAD` the padding of R187, `OUTLEN = (TOTALBITS + PAD) / 8`, and `OUT[j]` the byte of bits `8j` to
`8j+7` of `BITS` and `PAD` zeros, the first highest; nothing else changes. -/
def Obligations.EncEncodes : Prop :=
  encode .enc = 0x0600 ∧
  ∀ s : State, s.Inv → s.phase = .assigned → ∃ (t : State) (ws : List Codeword), exec .enc s = .next t ∧
    t = { s with outMem := t.outMem, totalBits := t.totalBits, pad := t.pad, outLen := t.outLen, phase := .done } ∧
    ws.length = s.len ∧ (∀ k, k < s.len → ∃ b w, s.inAt k = some b ∧ s.romAt b = some w ∧ ws[k]? = some w) ∧
    t.totalBits = (ws.map Codeword.clen).sum ∧ t.totalBits = (ws.flatMap Codeword.bits).length ∧
    t.pad = (8 - t.totalBits % 8) % 8 ∧ 8 * t.outLen = t.totalBits + t.pad ∧
    (∀ j, j < t.outLen → ∃ o, t.outAt j = some o ∧
      o.toNat = ((List.range 8).map fun k =>
        ((ws.flatMap Codeword.bits ++ List.replicate t.pad false).getD (8 * j + k) false).toNat * 2 ^ (7 - k)).sum) ∧
    ∀ a, t.outLen ≤ a → Memory.read t.outMem a = Memory.read s.outMem a

/-- R189: what holds of the result registers in phase `DONE`, and that they are constant until `CLR`. -/
def Obligations.ResultRegisters : Prop :=
  ∀ s : State, s.Inv → s.phase = .done →
    s.pad ≤ 7 ∧ (s.totalBits + s.pad) % 8 = 0 ∧ 8 * s.outLen = s.totalBits + s.pad ∧ s.outLen = (s.totalBits + 7) / 8 ∧
    1 ≤ s.outLen ∧ (∃ o, s.outAt (s.outLen - 1) = some o ∧ o.toNat % 2 ^ s.pad = 0) ∧
    ∀ i t, i ≠ Instr.clr → exec i s = .next t →
      t.totalBits = s.totalBits ∧ t.pad = s.pad ∧ t.outLen = s.outLen ∧ ∀ a, t.outAt a = s.outAt a

/-- The shift-and-OR procedure of R185 computes what the equations of R186 to R188 define, and leaves no partial byte. -/
def Obligations.ShiftAndOrAgrees : Prop :=
  ∀ ws : List Codeword,
    (emitAll ws).out = packBits (padBits (concatBits ws) (padOf (sumLengths ws)))
      ((sumLengths ws + padOf (sumLengths ws)) / 8) ∧
    (emitAll ws).nb = 0 ∧ (emitAll ws).acc = 0

/-- The properties (a) to (d) of R193 for a finished run: `TOTALBITS` is the weighted length of the ROM's code, it is between `LEN`
and `255 * LEN`, unpacking gives the bits of the codewords back, and they parse in one way only. -/
def Obligations.EncodingProperties : Prop :=
  ∀ s : State, s.Inv → s.phase = .done →
    s.totalBits = s.weightedLength s.romLen ∧ s.len ≤ s.totalBits ∧ s.totalBits ≤ 255 * s.len ∧
    (∃ bytes, s.output? = some bytes ∧ unpackBits s.pad bytes = some (s.bytes.flatMap s.romBits)) ∧
    ∀ bs cs : List Byte, (∀ b ∈ bs, b ∈ s.occurring) → (∀ c ∈ cs, c ∈ s.occurring) →
      bs.flatMap s.romBits = cs.flatMap s.romBits → bs = cs

/-! ### The Artifact Serializer (46_artifact_serializer.md) -/

/-- R210: `Dec(n)` has one to three digits and no leading zero, and its digits spell `n`; `Dec(0) = "0"`. The last clause, that
the byte of each character is its ASCII code, is presumed: R210 marks it as general knowledge (log entry 8). -/
def Obligations.DecimalNumerals : Prop :=
  ∀ n, n ≤ 255 → 1 ≤ (dec n).length ∧ (dec n).length ≤ 3 ∧ (dec n).all isDigit = true ∧ digitsValue (dec n) = n ∧
    ((dec n).head? = some '0' → n = 0 ∧ dec n = ['0']) ∧ (dec n).map (fun c => (asciiByte c).toNat) = (dec n).map Char.toNat

/-- R206: the tree text of every entry of a finished arena exists and obeys the two equations. -/
def Obligations.TreeTextEquations : Prop :=
  ∀ s : State, s.Inv → s.phase = .built ∨ s.phase = .assigned ∨ s.phase = .done → ∀ i, i < s.nnode →
    (s.treeText i).isSome = true ∧ s.treeText i = s.treeTextRule i

/-- R214: parsing by bracket structure reads every tree back from its text, a one-child node among them; and for every finished
arena `Parse(TreeText(ROOT))` is the arena's own tree, with no one-child node. -/
def Obligations.ParseReadsTheTreeBack : Prop :=
  (∀ t : Tree, parse t.text = some t) ∧
  ∀ s : State, s.Inv → s.phase = .built ∨ s.phase = .assigned ∨ s.phase = .done →
    ∃ text tree, s.treeText s.root = some text ∧ s.tree s.root = some tree ∧ parse text = some tree ∧ tree.isFull = true

/-- R215, the round-trip law: in every sound state in phase `DONE`, decoding the output with the parsed tree text and the padding
count gives the input. -/
def Obligations.RoundTrip : Prop :=
  ∀ s : State, s.Inv → s.phase = .done → ∃ text tree packed input, s.treeText s.root = some text ∧
    parse text = some tree ∧ s.output? = some packed ∧ s.input? = some input ∧
    decodeArtifact tree s.pad packed = some input

/-- R212: the artifact exists exactly in phase `DONE`, and it is the name, the tree text, the padding count, one digit, each with
the terminator `0D 0A`, and the packed bytes. The byte of each header character and the bytes of the terminator are presumed: R210
and R211 mark them as general knowledge (log entry 8). -/
def Obligations.ArtifactLayout : Prop :=
  ∀ (s : State) (name : List Byte), s.Inv →
    (s.phase ≠ .done → s.artifact name = none) ∧
    (s.phase = .done → ∃ a text packed, s.artifact name = some a ∧ s.treeText s.root = some text ∧
      s.output? = some packed ∧ packed.length = s.outLen ∧ (dec s.pad).length = 1 ∧
      a.bytes = name ++ [0x0D, 0x0A] ++ text.map asciiByte ++ [0x0D, 0x0A] ++ (dec s.pad).map asciiByte ++ [0x0D, 0x0A] ++ packed)

/-- The end of a run (R18): the host has the result exactly in `DONE` and the kind of the fault exactly in `FAULT`, where it is not
`NONE`. -/
def Obligations.EndOfARun : Prop :=
  ∀ (s : State) (name : List Byte), s.Inv →
    (s.phase = .done → ∃ a, s.status name = .complete a) ∧
    (s.phase = .fault → s.status name = .failed s.err ∧ s.err ≠ .none) ∧
    (s.phase ≠ .done → s.phase ≠ .fault → s.status name = .unfinished)

/-- R87: the expansions of the pseudo-instructions; `STEPS` has the effect of `RUN`; and `COMPRESS` of any bytes that are not empty
and fit, from any state of a block with legal parameters, ends in `DONE` with those bytes as the input, sound. -/
def Obligations.PseudoInstructions : Prop :=
  (∀ cs : List Char, (Pseudo.puts cs).expand = cs.map fun c => .put (asciiByte c)) ∧
  (∀ bs : List Byte, (Pseudo.putb bs).expand = bs.map .put) ∧
  (∀ bs : List Byte, (Pseudo.compress bs).expand = [.clr] ++ (Pseudo.putb bs).expand ++ [.run]) ∧
  Pseudo.steps.expand = [.cnt, .bld, .asg, .enc] ∧
  (∀ s : State, execAll Pseudo.steps.expand s = exec .run s) ∧
  ∀ (s : State) (bs : List Byte), s.params.wellFormed = true → bs ≠ [] → bs.length ≤ s.params.inCap →
    ∃ t, execAll (Pseudo.compress bs).expand s = .next t ∧ t.succeeded ∧ t.input? = some bs ∧ t.Inv

/-! ### The whole machine -/

/-- The invariant holds in the machine's state after reset (R40, R41). -/
def Obligations.InvAtReset : Prop := State.reset.Inv

/-- The invariant is kept by every step, of any word (R41). -/
def Obligations.InvKeptByEveryStep : Prop :=
  ∀ s t : State, s.Inv → step s = .next t → t.Inv

/-- R100: the step is total: from a sound state no word, legal or not, ever stops the machine; a fault is a next state. -/
def Obligations.EveryWordHasItsNextState : Prop :=
  (∀ (s : State) (cmd : Word), s.Inv → ∃ t, execWord cmd s = .next t) ∧ ∀ s : State, s.Inv → ∃ t, step s = .next t

/-- In every sound state every number fits the width that R20 gives its register (R7, R8, R168), so the model's natural numbers and
the registers' widths agree (log entry 3). -/
def Obligations.WidthsFit : Prop := ∀ s : State, s.Inv → s.WidthsOk

/-- R35: in every sound state `ERR` is not `NONE` exactly in phase `FAULT`; and the codes of `PHASE` and `ERR` are those of R34 and
R35, with 5 and 6 never held by `PHASE` and 7 never by `ERR`. -/
def Obligations.PhaseAndErrCodes : Prop :=
  (Phase.load.code = 0 ∧ Phase.counted.code = 1 ∧ Phase.built.code = 2 ∧ Phase.assigned.code = 3 ∧ Phase.done.code = 4 ∧
    Phase.fault.code = 7) ∧
  (ErrCode.none.code = 0 ∧ ErrCode.emptyInput.code = 1 ∧ ErrCode.ioError.code = 2 ∧ ErrCode.malformedArtifact.code = 3 ∧
    ErrCode.illegalCommand.code = 4 ∧ ErrCode.badSequence.code = 5 ∧ ErrCode.inputOverflow.code = 6) ∧
  (∀ s : State, s.phase.code ≠ 5 ∧ s.phase.code ≠ 6 ∧ s.err.code ≠ 7) ∧
  ∀ s : State, s.Inv → (s.err.code ≠ 0 ↔ s.phase = .fault)

/-- What holds a value and what does not (R38, R39, R60, R61), in every sound state: the cells of `IN` below `LEN`, of `OUT` below
`OUTLEN` and of the arena below `NNODE` do, and those above do not; no node has codeword fields before phase `ASSIGNED`. -/
def Obligations.WhatHoldsAValue : Prop :=
  ∀ s : State, s.Inv →
    (∀ a, (s.inAt a).isSome = true ↔ a < s.len) ∧ (∀ a, (s.outAt a).isSome = true ↔ a < s.outLen) ∧
    (∀ i, (s.nodeAt i).isSome = true ↔ i < s.nnode) ∧ (∀ b, (s.romAt b).isSome = true ↔ s.romValid b = true) ∧
    (s.phase = .load ∨ s.phase = .counted ∨ s.phase = .built → ∀ i, s.labelAt i = none)

end
end

