-- ==== Sys2Proof/Laws/State.lean ====
section
/-! SUPPORT. One lemma per field and named update of `State`, true by `rfl` and tagged for `simp`. -/

namespace Sys2Proof.Machine

/-! ### Fault entry (R228): every field but `PHASE` and `ERR` keeps its value -/

@[simp] theorem State.raise_params (s : State) (f : FaultKind) : (s.raise f).params = s.params := rfl
@[simp] theorem State.raise_cmds (s : State) (f : FaultKind) : (s.raise f).cmds = s.cmds := rfl
@[simp] theorem State.raise_phase (s : State) (f : FaultKind) : (s.raise f).phase = .fault := rfl
@[simp] theorem State.raise_err (s : State) (f : FaultKind) : (s.raise f).err = f.err := rfl
@[simp] theorem State.raise_len (s : State) (f : FaultKind) : (s.raise f).len = s.len := rfl
@[simp] theorem State.raise_inMem (s : State) (f : FaultKind) : (s.raise f).inMem = s.inMem := rfl
@[simp] theorem State.raise_freq (s : State) (f : FaultKind) : (s.raise f).freq = s.freq := rfl
@[simp] theorem State.raise_nsym (s : State) (f : FaultKind) : (s.raise f).nsym = s.nsym := rfl
@[simp] theorem State.raise_node (s : State) (f : FaultKind) : (s.raise f).node = s.node := rfl
@[simp] theorem State.raise_nnode (s : State) (f : FaultKind) : (s.raise f).nnode = s.nnode := rfl
@[simp] theorem State.raise_root (s : State) (f : FaultKind) : (s.raise f).root = s.root := rfl
@[simp] theorem State.raise_mq (s : State) (f : FaultKind) : (s.raise f).mq = s.mq := rfl
@[simp] theorem State.raise_nseq (s : State) (f : FaultKind) : (s.raise f).nseq = s.nseq := rfl
@[simp] theorem State.raise_crom (s : State) (f : FaultKind) : (s.raise f).crom = s.crom := rfl
@[simp] theorem State.raise_totalBits (s : State) (f : FaultKind) : (s.raise f).totalBits = s.totalBits := rfl
@[simp] theorem State.raise_pad (s : State) (f : FaultKind) : (s.raise f).pad = s.pad := rfl
@[simp] theorem State.raise_outLen (s : State) (f : FaultKind) : (s.raise f).outLen = s.outLen := rfl
@[simp] theorem State.raise_outMem (s : State) (f : FaultKind) : (s.raise f).outMem = s.outMem := rfl

/-! ### `CLR` (R104): every field at its reset value but the parameters and the host's commands -/

@[simp] theorem State.clear_params (s : State) : s.clear.params = s.params := rfl
@[simp] theorem State.clear_cmds (s : State) : s.clear.cmds = s.cmds := rfl
@[simp] theorem State.clear_phase (s : State) : s.clear.phase = .load := rfl
@[simp] theorem State.clear_err (s : State) : s.clear.err = .none := rfl
@[simp] theorem State.clear_len (s : State) : s.clear.len = 0 := rfl
@[simp] theorem State.clear_inMem (s : State) : s.clear.inMem = [] := rfl
@[simp] theorem State.clear_freq (s : State) : s.clear.freq = [] := rfl
@[simp] theorem State.clear_nsym (s : State) : s.clear.nsym = 0 := rfl
@[simp] theorem State.clear_node (s : State) : s.clear.node = [] := rfl
@[simp] theorem State.clear_nnode (s : State) : s.clear.nnode = 0 := rfl
@[simp] theorem State.clear_root (s : State) : s.clear.root = 0 := rfl
@[simp] theorem State.clear_mq (s : State) : s.clear.mq = [] := rfl
@[simp] theorem State.clear_nseq (s : State) : s.clear.nseq = 0 := rfl
@[simp] theorem State.clear_crom (s : State) : s.clear.crom = [] := rfl
@[simp] theorem State.clear_totalBits (s : State) : s.clear.totalBits = 0 := rfl
@[simp] theorem State.clear_pad (s : State) : s.clear.pad = 0 := rfl
@[simp] theorem State.clear_outLen (s : State) : s.clear.outLen = 0 := rfl
@[simp] theorem State.clear_outMem (s : State) : s.clear.outMem = [] := rfl

/-- The state after `CLR` is the reset state (R251). -/
theorem State.clear_eq_reset (s : State) : s.clear = { State.resetWith s.params with cmds := s.cmds } := rfl

/-! ### `MQ.insert` (R131): only `MQ` and `NSEQ` change -/

@[simp] theorem State.mqInsert_params (s : State) (i w : Nat) : (s.mqInsert i w).params = s.params := rfl
@[simp] theorem State.mqInsert_cmds (s : State) (i w : Nat) : (s.mqInsert i w).cmds = s.cmds := rfl
@[simp] theorem State.mqInsert_phase (s : State) (i w : Nat) : (s.mqInsert i w).phase = s.phase := rfl
@[simp] theorem State.mqInsert_err (s : State) (i w : Nat) : (s.mqInsert i w).err = s.err := rfl
@[simp] theorem State.mqInsert_len (s : State) (i w : Nat) : (s.mqInsert i w).len = s.len := rfl
@[simp] theorem State.mqInsert_inMem (s : State) (i w : Nat) : (s.mqInsert i w).inMem = s.inMem := rfl
@[simp] theorem State.mqInsert_freq (s : State) (i w : Nat) : (s.mqInsert i w).freq = s.freq := rfl
@[simp] theorem State.mqInsert_nsym (s : State) (i w : Nat) : (s.mqInsert i w).nsym = s.nsym := rfl
@[simp] theorem State.mqInsert_node (s : State) (i w : Nat) : (s.mqInsert i w).node = s.node := rfl
@[simp] theorem State.mqInsert_nnode (s : State) (i w : Nat) : (s.mqInsert i w).nnode = s.nnode := rfl
@[simp] theorem State.mqInsert_root (s : State) (i w : Nat) : (s.mqInsert i w).root = s.root := rfl
@[simp] theorem State.mqInsert_mq (s : State) (i w : Nat) : (s.mqInsert i w).mq = s.mq ++ [{ weight := w, seq := s.nseq, node := i }] := rfl
@[simp] theorem State.mqInsert_nseq (s : State) (i w : Nat) : (s.mqInsert i w).nseq = s.nseq + 1 := rfl
@[simp] theorem State.mqInsert_crom (s : State) (i w : Nat) : (s.mqInsert i w).crom = s.crom := rfl
@[simp] theorem State.mqInsert_totalBits (s : State) (i w : Nat) : (s.mqInsert i w).totalBits = s.totalBits := rfl
@[simp] theorem State.mqInsert_pad (s : State) (i w : Nat) : (s.mqInsert i w).pad = s.pad := rfl
@[simp] theorem State.mqInsert_outLen (s : State) (i w : Nat) : (s.mqInsert i w).outLen = s.outLen := rfl
@[simp] theorem State.mqInsert_outMem (s : State) (i w : Nat) : (s.mqInsert i w).outMem = s.outMem := rfl

/-! ### A command word issued by the host: only the pending commands change -/

@[simp] theorem State.withFetchWord_params (s : State) (n w : Nat) : (s.withFetchWord n w).params = s.params := rfl
@[simp] theorem State.withFetchWord_cmds (s : State) (n w : Nat) : (s.withFetchWord n w).cmds = tableWord n w :: s.cmds := rfl
@[simp] theorem State.withFetchWord_phase (s : State) (n w : Nat) : (s.withFetchWord n w).phase = s.phase := rfl
@[simp] theorem State.withFetchWord_err (s : State) (n w : Nat) : (s.withFetchWord n w).err = s.err := rfl
@[simp] theorem State.withFetchWord_len (s : State) (n w : Nat) : (s.withFetchWord n w).len = s.len := rfl
@[simp] theorem State.withFetchWord_inMem (s : State) (n w : Nat) : (s.withFetchWord n w).inMem = s.inMem := rfl
@[simp] theorem State.withFetchWord_freq (s : State) (n w : Nat) : (s.withFetchWord n w).freq = s.freq := rfl
@[simp] theorem State.withFetchWord_nsym (s : State) (n w : Nat) : (s.withFetchWord n w).nsym = s.nsym := rfl
@[simp] theorem State.withFetchWord_node (s : State) (n w : Nat) : (s.withFetchWord n w).node = s.node := rfl
@[simp] theorem State.withFetchWord_nnode (s : State) (n w : Nat) : (s.withFetchWord n w).nnode = s.nnode := rfl
@[simp] theorem State.withFetchWord_root (s : State) (n w : Nat) : (s.withFetchWord n w).root = s.root := rfl
@[simp] theorem State.withFetchWord_mq (s : State) (n w : Nat) : (s.withFetchWord n w).mq = s.mq := rfl
@[simp] theorem State.withFetchWord_nseq (s : State) (n w : Nat) : (s.withFetchWord n w).nseq = s.nseq := rfl
@[simp] theorem State.withFetchWord_crom (s : State) (n w : Nat) : (s.withFetchWord n w).crom = s.crom := rfl
@[simp] theorem State.withFetchWord_totalBits (s : State) (n w : Nat) : (s.withFetchWord n w).totalBits = s.totalBits := rfl
@[simp] theorem State.withFetchWord_pad (s : State) (n w : Nat) : (s.withFetchWord n w).pad = s.pad := rfl
@[simp] theorem State.withFetchWord_outLen (s : State) (n w : Nat) : (s.withFetchWord n w).outLen = s.outLen := rfl
@[simp] theorem State.withFetchWord_outMem (s : State) (n w : Nat) : (s.withFetchWord n w).outMem = s.outMem := rfl

@[simp] theorem State.takeCommand_withFetchWord (s : State) (n w : Nat) :
    (s.withFetchWord n w).takeCommand = some (tableWord n w, s) := rfl

end Sys2Proof.Machine
end

