-- ==== Sys2Proof/Laws/Dispatch.lean ====
section
/-! SUPPORT. What dispatch, sequencing and a step can do, said once (R100, R101). -/

namespace Sys2Proof.Machine

/-! ### Sequencing -/

@[simp] theorem andThen_next (s : State) (k : State → Result) : andThen (.next s) k = k s := rfl
@[simp] theorem andThen_fault (f : Fault) (k : State → Result) : andThen (.fault f) k = .fault f := rfl
@[simp] theorem andThen_refused (e : Refusal) (k : State → Result) : andThen (.refused e) k = .refused e := rfl
@[simp] theorem orRefuse_some {α : Type} (a : α) (e : Refusal) (k : α → Result) : orRefuse (some a) e k = k a := rfl
@[simp] theorem orRefuse_none {α : Type} (e : Refusal) (k : α → Result) : orRefuse none e k = .refused e := rfl

theorem andThen_assoc (r : Result) (k l : State → Result) :
    andThen (andThen r k) l = andThen r fun s => andThen (k s) l := by
  cases r <;> rfl

/-- A sequence reaches a next state only through a next state of its first part. -/
theorem andThen_eq_next {r : Result} {k : State → Result} {t : State} (h : andThen r k = .next t) :
    ∃ s, r = .next s ∧ k s = .next t := by
  cases r with
  | next s => exact ⟨s, rfl, h⟩
  | fault f => simp at h
  | refused e => simp at h

theorem orRefuse_eq_next {α : Type} {o : Option α} {e : Refusal} {k : α → Result} {t : State}
    (h : orRefuse o e k = .next t) : ∃ a, o = some a ∧ k a = .next t := by
  cases o with
  | some a => exact ⟨a, rfl, h⟩
  | none => simp at h

/-! ### Dispatch (R101) -/

theorem dispatch_fault (i : Instr) (body : State → Result) {s : State} (h : s.phase = .fault) :
    dispatch i body s = .next s := by simp [dispatch, h]

theorem dispatch_allowed {i : Instr} (body : State → Result) {s : State} (h : s.phase ≠ .fault)
    (ha : allowed i s.phase = true) : dispatch i body s = body s := by simp [dispatch, h, ha]

theorem dispatch_notAllowed {i : Instr} (body : State → Result) {s : State} (h : s.phase ≠ .fault)
    (ha : allowed i s.phase = false) : dispatch i body s = .next (s.raise .badSequence) := by simp [dispatch, h, ha]

/-- Everything dispatch can do: ignore (step 1), raise `BAD_SEQUENCE` (step 3), or run the command's rule (step 4). -/
theorem dispatch_cases (i : Instr) (body : State → Result) (s : State) :
    s.phase = .fault ∧ dispatch i body s = .next s ∨
    s.phase ≠ .fault ∧ allowed i s.phase = false ∧ dispatch i body s = .next (s.raise .badSequence) ∨
    s.phase ≠ .fault ∧ allowed i s.phase = true ∧ dispatch i body s = body s := by
  by_cases h : s.phase = .fault
  · exact .inl ⟨h, dispatch_fault i body h⟩
  · cases ha : allowed i s.phase with
    | false => exact .inr (.inl ⟨h, rfl, dispatch_notAllowed body h ha⟩)
    | true => exact .inr (.inr ⟨h, rfl, dispatch_allowed body h ha⟩)

/-- The rule a command's dispatch runs (R101 step 4). -/
def body : Instr → State → Result
  | .nop => .next
  | .clr => fun s => .next s.clear
  | .put b => bodyPut b
  | .cnt => bodyCnt
  | .bld => bodyBld
  | .asg => bodyAsg
  | .enc => bodyEnc
  | .run => bodyRun

/-- Every command but `CLR` is dispatched in the one way of R101. -/
theorem exec_eq_dispatch {i : Instr} (h : i ≠ .clr) (s : State) : exec i s = dispatch i (body i) s := by
  cases i <;> first | rfl | exact absurd rfl h

@[simp] theorem exec_clr (s : State) : exec .clr s = .next s.clear := rfl

@[simp] theorem exec_nop (s : State) : exec .nop s = .next s := by
  simp only [exec, execNop]
  rcases dispatch_cases .nop .next s with ⟨-, h⟩ | ⟨-, h, -⟩ | ⟨-, -, h⟩
  · exact h
  · simp [allowed] at h
  · exact h

/-! ### A step -/

theorem step_of_no_command {s : State} (h : s.cmds = []) : step s = .next s := by
  simp [step, State.takeCommand, h]

theorem step_of_command {s : State} {w : Word} {rest : List Word} (h : s.cmds = w :: rest) :
    step s = execWord w { s with cmds := rest } := by
  simp [step, State.takeCommand, h]

theorem execWord_ok {w : Word} {i : Instr} (h : decode w = .ok i) (s : State) : execWord w s = exec i s := by
  simp [execWord, h]

theorem execWord_error {w : Word} {e : DecodeError} (h : decode w = .error e) (s : State) :
    execWord w s = execIllegal s := by
  simp [execWord, h]

/-- Everything a step can do. -/
theorem step_cases (s : State) :
    s.cmds = [] ∧ step s = .next s ∨
    ∃ w rest, s.cmds = w :: rest ∧
      ((∃ i, decode w = .ok i ∧ step s = exec i { s with cmds := rest }) ∨
       (∃ e, decode w = .error e ∧ step s = execIllegal { s with cmds := rest })) := by
  cases hc : s.cmds with
  | nil => exact .inl ⟨rfl, step_of_no_command hc⟩
  | cons w rest =>
    refine .inr ⟨w, rest, rfl, ?_⟩
    rw [step_of_command hc]
    cases hd : decode w with
    | ok i => exact .inl ⟨i, rfl, execWord_ok hd _⟩
    | error e => exact .inr ⟨e, rfl, execWord_error hd _⟩

end Sys2Proof.Machine
end

