-- ==== Sys2Proof/Laws/MergeQueue.lean ====
section
/-! SUPPORT. The merge queue's operations (R130 to R138): the order on keys, the minimum, what an extraction leaves. -/

namespace Sys2Proof.Machine

/-! ### The key order (R130) -/

theorem before_iff (a b : Entry) :
    Entry.before a b = true ↔ a.weight < b.weight ∨ a.weight = b.weight ∧ a.seq < b.seq := by
  simp [Entry.before]

theorem before_irrefl (a : Entry) : Entry.before a a = false := by
  simp [Entry.before]

theorem before_trans {a b c : Entry} (h1 : Entry.before a b = true) (h2 : Entry.before b c = true) :
    Entry.before a c = true := by
  rw [before_iff] at *; omega

theorem not_before_trans {a b c : Entry} (h1 : Entry.before b a = false) (h2 : Entry.before c b = false) :
    Entry.before c a = false := by
  rw [← Bool.not_eq_true, before_iff] at *; omega

/-! ### The minimum (R132) -/

@[simp] theorem minEntry_nil : minEntry [] = none := rfl

theorem minEntry_eq_none {q : List Entry} : minEntry q = none ↔ q = [] := by
  cases q with
  | nil => simp
  | cons e q =>
    simp only [minEntry, reduceCtorEq, iff_false]
    split
    · simp
    · split <;> simp

/-- The minimum is an entry of the queue, and no entry is before it. -/
theorem minEntry_spec {q : List Entry} {e : Entry} (h : minEntry q = some e) :
    e ∈ q ∧ ∀ x ∈ q, Entry.before x e = false := by
  induction q generalizing e with
  | nil => simp at h
  | cons d q ih =>
    rw [minEntry] at h
    cases hm : minEntry q with
    | none =>
      rw [hm] at h
      obtain rfl := Option.some.inj h
      obtain rfl := minEntry_eq_none.1 hm
      simp [before_irrefl]
    | some m =>
      rw [hm] at h
      obtain ⟨hmem, hmin⟩ := ih hm
      by_cases hb : Entry.before m d = true
      · simp only [hb, if_true] at h
        obtain rfl := Option.some.inj h
        refine ⟨List.mem_cons_of_mem _ hmem, fun x hx => ?_⟩
        rcases List.mem_cons.1 hx with rfl | hx
        · rw [← Bool.not_eq_true, before_iff] at *; omega
        · exact hmin x hx
      · simp only [hb, Bool.false_eq_true, if_false] at h
        obtain rfl := Option.some.inj h
        refine ⟨by simp, fun x hx => ?_⟩
        rcases List.mem_cons.1 hx with rfl | hx
        · exact before_irrefl x
        · exact not_before_trans (Bool.not_eq_true _ ▸ hb) (hmin x hx)

theorem exists_minEntry {q : List Entry} (h : q ≠ []) : ∃ e, minEntry q = some e := by
  cases hm : minEntry q with
  | none => exact absurd (minEntry_eq_none.1 hm) h
  | some e => exact ⟨e, rfl⟩

/-! ### Extraction (R132, R138 (c)) -/

theorem mqExtractMin_eq_some {s : State} {x : Entry × State} (h : s.mqExtractMin = some x) :
    minEntry s.mq = some x.1 ∧ x.2 = { s with mq := s.mq.erase x.1 } := by
  unfold State.mqExtractMin at h
  split at h
  · cases h
  · rename_i e he
    obtain rfl := Option.some.inj h
    exact ⟨he, rfl⟩

theorem mqExtractMin_of_min {s : State} {e : Entry} (h : minEntry s.mq = some e) :
    s.mqExtractMin = some (e, { s with mq := s.mq.erase e }) := by
  simp [State.mqExtractMin, h]

theorem mqExtractMin_eq_none {s : State} : s.mqExtractMin = none ↔ s.mq = [] := by
  rw [← minEntry_eq_none]
  unfold State.mqExtractMin
  split <;> simp_all

/-- A queue that is not empty splits into its minimum and the rest. -/
theorem perm_min_erase {q : List Entry} {e : Entry} (h : minEntry q = some e) : q.Perm (e :: q.erase e) :=
  List.perm_cons_erase (minEntry_spec h).1

theorem length_erase_min {q : List Entry} {e : Entry} (h : minEntry q = some e) :
    (q.erase e).length + 1 = q.length := by
  have := (perm_min_erase h).length_eq
  simpa using this.symm

/-- A queue of two entries or more gives two of them, the second no less than the first (R138 (a)). -/
theorem two_minima {q : List Entry} (h : 1 < q.length) :
    ∃ a b, minEntry q = some a ∧ minEntry (q.erase a) = some b ∧ q.Perm (a :: b :: (q.erase a).erase b) ∧
      Entry.before b a = false ∧ ∀ x ∈ (q.erase a).erase b, Entry.before x b = false := by
  obtain ⟨a, ha⟩ := exists_minEntry (q := q) (by rintro rfl; simp at h)
  have hl := length_erase_min ha
  obtain ⟨b, hb⟩ := exists_minEntry (q := q.erase a) (by intro e; rw [e] at hl; simp at hl; omega)
  refine ⟨a, b, ha, hb, (perm_min_erase ha).trans ((perm_min_erase hb).cons a), ?_, fun x hx => ?_⟩
  · exact (minEntry_spec ha).2 b (List.mem_of_mem_erase (minEntry_spec hb).1)
  · exact (minEntry_spec hb).2 x (List.mem_of_mem_erase hx)

end Sys2Proof.Machine
end

