-- ==== Sys2Proof/Laws/Frames.lean ====
section
/-! SUPPORT. Everything the rule of each command can do, from any state at all: if it answers a next state, then that state is a
fault entry or differs from the state before in the named fields only (R20's column 'written by', R228). -/

namespace Sys2Proof.Machine

/-! ### `PUT` and `CNT` -/

theorem bodyPut_cases {b : Byte} {s t : State} (h : bodyPut b s = .next t) :
    (s.len = s.params.inCap ∧ t = s.raise .inputOverflow) ∨
    (s.len < s.params.inCap ∧ t = { s with inMem := Memory.write s.inMem s.len b, len := s.len + 1 }) := by
  unfold bodyPut at h
  split at h
  · rename_i hl
    cases h; exact .inl ⟨hl, rfl⟩
  · unfold State.writeIn at h
    split at h
    · rename_i hl
      cases h; exact .inr ⟨hl, rfl⟩
    · cases h

theorem bodyCnt_cases {s t : State} (h : bodyCnt s = .next t) :
    (s.len = 0 ∧ t = s.raise .emptyInput) ∨
    (s.len ≠ 0 ∧ ∃ bytes, s.input? = some bytes ∧
      t = { s with freq := countBytes s.freq bytes, nsym := countSymbols (countBytes s.freq bytes), phase := .counted }) := by
  unfold bodyCnt at h
  split at h
  · rename_i hl
    cases h; exact .inl ⟨hl, rfl⟩
  · rename_i hl
    obtain ⟨bytes, hb, e⟩ := orRefuse_eq_next h
    cases e; exact .inr ⟨hl, bytes, hb, rfl⟩

/-! ### `BLD` -/

theorem createNode_cases {s t : State} {n : Node} (h : s.createNode n = .next t) :
    s.nnode < nodeMax ∧ t = { s with
      node := store s.node s.nnode n, nnode := s.nnode + 1, nseq := s.nseq + 1,
      mq := s.mq ++ [{ weight := n.weight, seq := s.nseq, node := s.nnode }] } := by
  unfold State.createNode at h
  split at h
  · rename_i hl
    cases h; exact ⟨hl, rfl⟩
  · cases h

/-- The fields that the loops of `BLD` write (R145). -/
def TreeWritten (s t : State) : Prop := t = { s with node := t.node, nnode := t.nnode, nseq := t.nseq, mq := t.mq }

theorem TreeWritten.refl (s : State) : TreeWritten s s := rfl

theorem TreeWritten.trans {s t u : State} (h : TreeWritten s t) (h' : TreeWritten t u) : TreeWritten s u := by
  unfold TreeWritten at *
  rw [h']; rw [h]

theorem createNode_frame {s t : State} {n : Node} (h : s.createNode n = .next t) : TreeWritten s t := by
  rw [(createNode_cases h).2]; rfl

theorem seed_frame {bs : List Byte} {s t : State} (h : seed bs s = .next t) : TreeWritten s t := by
  induction bs generalizing s with
  | nil => cases h; exact .refl _
  | cons b bs ih =>
    unfold seed at h
    split at h
    · obtain ⟨u, hu, h⟩ := andThen_eq_next h
      exact (createNode_frame hu).trans (ih h)
    · exact ih h

theorem mqExtractMin_frame {s u : State} {e : Entry} (h : s.mqExtractMin = some (e, u)) :
    e ∈ s.mq ∧ u = { s with mq := s.mq.erase e } :=
  ⟨(minEntry_spec (mqExtractMin_eq_some h).1).1, (mqExtractMin_eq_some h).2⟩

theorem mergeOnce_frame {s t : State} (h : mergeOnce s = .next t) : TreeWritten s t := by
  obtain ⟨x, hx, h⟩ := orRefuse_eq_next h
  obtain ⟨y, hy, h⟩ := orRefuse_eq_next h
  have h1 : TreeWritten s x.2 := by rw [TreeWritten, (mqExtractMin_frame (e := x.1) (u := x.2) hx).2]
  have h2 : TreeWritten x.2 y.2 := by rw [TreeWritten, (mqExtractMin_frame (e := y.1) (u := y.2) hy).2]
  exact (h1.trans h2).trans (createNode_frame h)

theorem mergeLoop_frame {k : Nat} {s t : State} (h : mergeLoop k s = .next t) : TreeWritten s t := by
  induction k generalizing s with
  | zero => cases h; exact .refl _
  | succ k ih =>
    unfold mergeLoop at h
    split at h
    · obtain ⟨u, hu, h⟩ := andThen_eq_next h
      exact (mergeOnce_frame hu).trans (ih h)
    · cases h; exact .refl _

/-- All that `BLD`'s rule can do. -/
theorem bodyBld_cases {s t : State} (h : bodyBld s = .next t) :
    (s.nsym = 0 ∧ t = s.raise .emptyInput) ∨
    (s.nsym ≠ 0 ∧ t = { s with node := t.node, nnode := t.nnode, root := t.root, mq := t.mq, nseq := t.nseq,
                               phase := .built }) := by
  unfold bodyBld at h
  split at h
  · rename_i hn
    cases h; exact .inl ⟨hn, rfl⟩
  · rename_i hn
    obtain ⟨u, hu, h⟩ := andThen_eq_next h
    obtain ⟨v, hv, h⟩ := andThen_eq_next h
    obtain ⟨x, hx, h⟩ := orRefuse_eq_next h
    cases h
    have h1 := (seed_frame hu).trans (mergeLoop_frame hv)
    have h2 := (mqExtractMin_frame (e := x.1) (u := x.2) hx).2
    refine .inr ⟨hn, ?_⟩
    unfold TreeWritten at h1
    rw [h2, h1]

/-! ### `ASG` -/

theorem setLabel_frame {s t : State} {i : Nat} {l : PathLabel} (h : s.setLabel i l = some t) :
    t = { s with node := t.node } ∧ ∀ j, (t.nodeAt j).map Node.unlabelled = (s.nodeAt j).map Node.unlabelled := by
  unfold State.setLabel at h
  split at h
  · cases h
  · rename_i n hn
    cases h
    refine ⟨rfl, fun j => ?_⟩
    have hi : i < s.nnode := by
      rw [State.nodeAt] at hn
      split at hn
      · assumption
      · cases hn
    have hread : ∀ (m : SparseMap Node) (v : Node), lookup (store m i v) j = if i = j then some v else lookup m j := by
      intro m v
      induction m with
      | nil => rfl
      | cons c m ih =>
        obtain ⟨k, w⟩ := c
        simp only [store]
        split
        · simp only [lookup]
        · split
          · subst_vars
            simp only [lookup]
            split <;> rfl
          · simp only [lookup, ih]
            by_cases hk : k = j <;> by_cases hij : i = j <;> simp_all
    by_cases hij : i = j
    · subst hij
      rw [hn, State.nodeAt]
      show ((if i < s.nnode then lookup (store s.node i _) i else none)).map _ = _
      rw [if_pos hi, hread, if_pos rfl]; rfl
    · rw [State.nodeAt, State.nodeAt]
      show ((if j < s.nnode then lookup (store s.node i _) j else none)).map _ = _
      rw [hread, if_neg hij]

/-- The fields that the traversal writes, and that the structural fields of every entry stay (R25, R165). -/
def LabelsWritten (s t : State) : Prop :=
  t = { s with node := t.node } ∧ ∀ j, (t.nodeAt j).map Node.unlabelled = (s.nodeAt j).map Node.unlabelled

theorem LabelsWritten.refl (s : State) : LabelsWritten s s := ⟨rfl, fun _ => rfl⟩

theorem LabelsWritten.trans {s t u : State} (h : LabelsWritten s t) (h' : LabelsWritten t u) : LabelsWritten s u :=
  ⟨by rw [h'.1, h.1], fun j => (h'.2 j).trans (h.2 j)⟩

theorem labelChildren_frame {n : Node} {l : PathLabel} {s t : State} (h : labelChildren n l s = some t) :
    LabelsWritten s t := by
  unfold labelChildren at h
  split at h
  · cases h
  · rename_i u hu
    have h1 : LabelsWritten s u := setLabel_frame hu
    exact h1.trans (setLabel_frame h)

theorem traverse_frame {k : Nat} {q : List Nat} {s t : State} (h : traverse k q s = .next t) : LabelsWritten s t := by
  induction k generalizing q s with
  | zero =>
    cases q with
    | nil => cases h; exact .refl _
    | cons p q => cases h
  | succ k ih =>
    cases q with
    | nil => cases h; exact .refl _
    | cons p q =>
      obtain ⟨n, -, h⟩ := orRefuse_eq_next h
      split at h
      · exact ih h
      · obtain ⟨l, -, h⟩ := orRefuse_eq_next h
        obtain ⟨u, hu, h⟩ := orRefuse_eq_next h
        exact (labelChildren_frame hu).trans (ih h)

theorem assignLabels_frame {s t : State} (h : assignLabels s = .next t) : LabelsWritten s t := by
  obtain ⟨r, -, h⟩ := orRefuse_eq_next h
  obtain ⟨u, hu, h⟩ := orRefuse_eq_next h
  have h1 : LabelsWritten s u := setLabel_frame hu
  split at h
  · cases h; exact h1
  · exact h1.trans (traverse_frame h)

theorem fillRom_frame {is : List Nat} {s t : State} (h : fillRom is s = .next t) : t = { s with crom := t.crom } := by
  induction is generalizing s with
  | nil => cases h; rfl
  | cons i is ih =>
    obtain ⟨n, -, h⟩ := orRefuse_eq_next h
    split at h
    · obtain ⟨l, -, h⟩ := orRefuse_eq_next h
      have := ih h
      rw [this]
    · exact ih h

/-- All that `ASG`'s rule can do. -/
theorem bodyAsg_cases {s t : State} (h : bodyAsg s = .next t) :
    t = { s with node := t.node, crom := t.crom, phase := .assigned } ∧
      ∀ j, (t.nodeAt j).map Node.unlabelled = (s.nodeAt j).map Node.unlabelled := by
  obtain ⟨u, hu, h⟩ := andThen_eq_next h
  obtain ⟨v, hv, h⟩ := andThen_eq_next h
  cases h
  obtain ⟨h1, h2⟩ := assignLabels_frame hu
  have h3 := fillRom_frame hv
  refine ⟨by rw [h3, h1], fun j => ?_⟩
  rw [← h2 j, h3]; rfl

/-! ### `ENC` and `RUN` -/

/-- All that `ENC`'s rule can do. -/
theorem bodyEnc_cases {s t : State} (h : bodyEnc s = .next t) :
    ∃ bytes : List Byte, t = { s with outMem := Memory.writeBytes s.outMem 0 bytes, totalBits := t.totalBits, pad := t.pad,
                                      outLen := bytes.length, phase := .done } := by
  obtain ⟨bs, -, h⟩ := orRefuse_eq_next h
  obtain ⟨ws, -, h⟩ := orRefuse_eq_next h
  simp only [State.writeOutput] at h
  split at h
  · cases h; exact ⟨_, rfl⟩
  · cases h

/-- All that `RUN`'s rule can do: the fault of one of its first two stages, or the four stages in turn (R108). -/
theorem bodyRun_cases {s t : State} (h : bodyRun s = .next t) :
    (bodyCnt s = .next t ∧ t.phase = .fault) ∨
    (∃ a, bodyCnt s = .next a ∧ a.phase ≠ .fault ∧ bodyBld a = .next t ∧ t.phase = .fault) ∨
    ∃ a b c, bodyCnt s = .next a ∧ a.phase ≠ .fault ∧ bodyBld a = .next b ∧ b.phase ≠ .fault ∧ bodyAsg b = .next c ∧
      bodyEnc c = .next t := by
  obtain ⟨a, ha, h⟩ := andThen_eq_next h
  unfold unlessFaulted at h
  split at h
  · rename_i hp
    cases h; exact .inl ⟨ha, hp⟩
  · rename_i hpa
    obtain ⟨b, hb, h⟩ := andThen_eq_next h
    split at h
    · rename_i hp
      cases h; exact .inr (.inl ⟨a, ha, hpa, hb, hp⟩)
    · rename_i hpb
      obtain ⟨c, hc, h⟩ := andThen_eq_next h
      exact .inr (.inr ⟨a, b, c, ha, hpa, hb, hpb, hc, h⟩)

end Sys2Proof.Machine
end

