-- ==== Sys2Proof/Laws/SparseMap.lean ====
section
/-! SUPPORT. The laws of partial maps (`lookup`, `store`) and of byte memories over them: read after write, the canonical form,
and the maps that list exactly the entries `0 .. n-1`. -/

namespace Sys2Proof.Machine

variable {α β : Type}

/-! ### Read after write -/

@[simp] theorem lookup_nil (i : Nat) : lookup ([] : SparseMap α) i = none := rfl

theorem lookup_cons (c : Nat × α) (m : SparseMap α) (i : Nat) :
    lookup (c :: m) i = if c.1 = i then some c.2 else lookup m i := rfl

theorem lookup_store (m : SparseMap α) (i j : Nat) (v : α) :
    lookup (store m i v) j = if i = j then some v else lookup m j := by
  induction m with
  | nil => simp [store, lookup]
  | cons c m ih =>
    unfold store
    split
    · simp [lookup_cons]
    split
    · rename_i h; subst h; simp only [lookup_cons]; split <;> simp_all
    · simp only [lookup_cons, ih]; split <;> split <;> simp_all

@[simp] theorem lookup_store_self (m : SparseMap α) (i : Nat) (v : α) : lookup (store m i v) i = some v := by
  simp [lookup_store]

theorem lookup_store_ne (m : SparseMap α) {i j : Nat} (h : i ≠ j) (v : α) : lookup (store m i v) j = lookup m j := by
  simp [lookup_store, h]

theorem mem_of_lookup {m : SparseMap α} {i : Nat} {v : α} (h : lookup m i = some v) : (i, v) ∈ m := by
  induction m with
  | nil => simp at h
  | cons c m ih =>
    rw [lookup_cons] at h
    split at h
    · obtain rfl := Option.some.inj h; subst_vars; simp
    · simp [ih h]

/-! ### The canonical form -/

theorem mem_store {m : SparseMap α} {i : Nat} {v : α} {c : Nat × α} (h : c ∈ store m i v) : c = (i, v) ∨ c ∈ m := by
  induction m with
  | nil => simpa [store] using h
  | cons d m ih =>
    unfold store at h
    split at h
    · simpa using h
    split at h
    · simp only [List.mem_cons] at h ⊢; tauto
    · simp only [List.mem_cons] at h ⊢
      rcases h with h | h
      · tauto
      · rcases ih h with h | h <;> tauto

/-- Every write keeps the canonical form. -/
theorem store_wf {m : SparseMap α} (h : SparseMap.wf m) (i : Nat) (v : α) : SparseMap.wf (store m i v) := by
  induction m with
  | nil => simp [store, SparseMap.wf]
  | cons c m ih =>
    have hc : ∀ d ∈ m, c.1 < d.1 := (List.pairwise_cons.1 h).1
    have hm : SparseMap.wf m := (List.pairwise_cons.1 h).2
    unfold store
    split
    · rename_i hi
      refine List.pairwise_cons.2 ⟨?_, h⟩
      intro d hd
      rcases List.mem_cons.1 hd with rfl | hd
      · exact hi
      · exact Nat.lt_trans hi (hc d hd)
    split
    · rename_i hi
      exact List.pairwise_cons.2 ⟨fun d hd => hi ▸ hc d hd, hm⟩
    · refine List.pairwise_cons.2 ⟨?_, ih hm⟩
      intro d hd
      rcases mem_store hd with rfl | hd
      · simp only; omega
      · exact hc d hd

/-- A write above every listed index goes to the end. -/
theorem store_eq_append {m : SparseMap α} {i : Nat} (h : ∀ c ∈ m, c.1 < i) (v : α) : store m i v = m ++ [(i, v)] := by
  induction m with
  | nil => rfl
  | cons c m ih =>
    have hc : c.1 < i := h c (by simp)
    have hrec := ih (fun d hd => h d (List.mem_cons_of_mem _ hd))
    unfold store
    rw [if_neg (by omega), if_neg (by omega), hrec]
    rfl

theorem lookup_none_of_lt {m : SparseMap α} {i : Nat} (h : ∀ c ∈ m, c.1 ≠ i) : lookup m i = none := by
  induction m with
  | nil => rfl
  | cons c m ih =>
    rw [lookup_cons, if_neg (h c (by simp)), ih fun d hd => h d (List.mem_cons_of_mem _ hd)]

/-- In a canonical map every listed pair is found. -/
theorem lookup_of_mem {m : SparseMap α} (hm : SparseMap.wf m) {c : Nat × α} (h : c ∈ m) : lookup m c.1 = some c.2 := by
  induction m with
  | nil => simp at h
  | cons d m ih =>
    obtain ⟨hd, hm⟩ := List.pairwise_cons.1 hm
    rw [lookup_cons]
    rcases List.mem_cons.1 h with rfl | h
    · simp
    · rw [if_neg (Nat.ne_of_lt (hd c h)), ih hm h]

/-- Two canonical maps that read the same everywhere are the same list. -/
theorem eq_of_lookup_eq {m n : SparseMap α} (hm : SparseMap.wf m) (hn : SparseMap.wf n)
    (h : ∀ i, lookup m i = lookup n i) : m = n := by
  induction m generalizing n with
  | nil =>
    cases n with
    | nil => rfl
    | cons d n => have := h d.1; simp [lookup_cons] at this
  | cons c m ih =>
    cases n with
    | nil => have := h c.1; simp [lookup_cons] at this
    | cons d n =>
      obtain ⟨hc, hm'⟩ := List.pairwise_cons.1 hm
      obtain ⟨hd, hn'⟩ := List.pairwise_cons.1 hn
      have h1 := h c.1
      have h2 := h d.1
      rw [lookup_of_mem hm (by simp)] at h1
      rw [lookup_of_mem hn (by simp)] at h2
      have m1 := mem_of_lookup h1.symm
      have m2 := mem_of_lookup h2
      have hcd : c.1 = d.1 := by
        rcases List.mem_cons.1 m1 with e | e
        · rw [← e]
        · rcases List.mem_cons.1 m2 with e' | e'
          · rw [← e']
          · have a := hd _ e; have b := hc _ e'; simp only at a b; omega
      have hval : c = d := by
        rw [hcd, lookup_of_mem hn (by simp)] at h1
        exact Prod.ext hcd (Option.some.inj h1)
      subst hval
      congr 1
      refine ih hm' hn' fun i => ?_
      have hi := h i
      simp only [lookup_cons] at hi
      by_cases e : c.1 = i
      · rw [lookup_none_of_lt fun x hx he => ?_, lookup_none_of_lt fun x hx he => ?_]
        · have := hd x hx; omega
        · have := hc x hx; omega
      · simpa [e] using hi

/-! ### Maps that list exactly the entries below a bound -/

theorem listsExactly.wf {m : SparseMap α} {n : Nat} (h : listsExactly m n) : SparseMap.wf m := by
  have : (m.map Prod.fst).Pairwise (· < ·) := by rw [h]; exact List.pairwise_lt_range
  exact List.pairwise_map.1 this

theorem listsExactly.length {m : SparseMap α} {n : Nat} (h : listsExactly m n) : m.length = n := by
  have := congrArg List.length h
  simpa using this

theorem listsExactly.lt {m : SparseMap α} {n : Nat} (h : listsExactly m n) {c : Nat × α} (hc : c ∈ m) : c.1 < n := by
  have : c.1 ∈ m.map Prod.fst := List.mem_map_of_mem hc
  rw [h] at this
  exact List.mem_range.1 this

theorem listsExactly.getElem {m : SparseMap α} {n : Nat} (h : listsExactly m n) {i : Nat} (hi : i < m.length) :
    (m[i]).1 = i := by
  have h1 : (m.map Prod.fst)[i]'(by simpa using hi) = (List.range n)[i]'(by rw [← h]; simpa using hi) := by
    congr 1
  simpa using h1

/-- Entry `i` is the `i`-th pair of the list. -/
theorem listsExactly.lookup {m : SparseMap α} {n : Nat} (h : listsExactly m n) (i : Nat) :
    lookup m i = (m[i]?).map Prod.snd := by
  by_cases hi : i < m.length
  · have hmem : m[i] ∈ m := List.getElem_mem hi
    have := lookup_of_mem h.wf hmem
    rw [h.getElem hi] at this
    rw [this, List.getElem?_eq_getElem hi]; rfl
  · rw [List.getElem?_eq_none (by omega), lookup_none_of_lt]
    · rfl
    · intro c hc e
      have := h.lt hc
      have := h.length
      omega

@[simp] theorem listsExactly_nil : listsExactly ([] : SparseMap α) 0 := rfl

/-- A write at the first free index keeps the form. -/
theorem listsExactly.store {m : SparseMap α} {n : Nat} (h : listsExactly m n) (v : α) :
    Machine.store m n v = m ++ [(n, v)] ∧ listsExactly (Machine.store m n v) (n + 1) := by
  have e := store_eq_append (fun c hc => h.lt hc) v
  refine ⟨e, ?_⟩
  rw [e]
  simp only [listsExactly, List.map_append, List.map_cons, List.map_nil, List.range_succ]
  rw [h]

/-- A write at a listed index keeps the form. -/
theorem listsExactly.overwrite {m : SparseMap α} {n : Nat} (h : listsExactly m n) {i : Nat} (hi : i < n) (v : α) :
    listsExactly (Machine.store m i v) n := by
  suffices ∀ (m : SparseMap α), SparseMap.wf m → i ∈ m.map Prod.fst →
      (Machine.store m i v).map Prod.fst = m.map Prod.fst by
    have := this m h.wf (by rw [h]; exact List.mem_range.2 hi)
    exact this.trans h
  intro m hm hmem
  induction m with
  | nil => simp at hmem
  | cons c m ih =>
    obtain ⟨hc, hm⟩ := List.pairwise_cons.1 hm
    unfold Machine.store
    rcases List.mem_cons.1 (by simpa using hmem : i ∈ c.1 :: m.map Prod.fst) with e | e
    · rw [if_neg (by omega), if_pos e]; simp [e]
    · obtain ⟨d, hd, rfl⟩ := List.mem_map.1 e
      have := hc d hd
      rw [if_neg (by omega), if_neg (by omega)]
      simp [ih hm e]

/-! ### Byte memories -/

theorem Memory.read_write (m : Memory) (a b : Nat) (v : Byte) :
    Memory.read (Memory.write m a v) b = if a = b then some v else Memory.read m b := lookup_store m a b v

theorem Memory.write_wf {m : Memory} (h : Memory.wf m) (a : Nat) (v : Byte) : Memory.wf (Memory.write m a v) :=
  store_wf h a v

theorem Memory.writeBytes_wf {m : Memory} (h : Memory.wf m) (a : Nat) (bs : List Byte) :
    Memory.wf (Memory.writeBytes m a bs) := by
  induction bs generalizing m a with
  | nil => exact h
  | cons b bs ih => exact ih (Memory.write_wf h a b) (a + 1)

/-- What a string of byte writes leaves: the string at its addresses, every other byte as before. -/
theorem Memory.read_writeBytes (m : Memory) (a : Nat) (bs : List Byte) (x : Nat) :
    Memory.read (Memory.writeBytes m a bs) x =
      if a ≤ x ∧ x < a + bs.length then bs[x - a]? else Memory.read m x := by
  induction bs generalizing m a with
  | nil => simp [Memory.writeBytes]
  | cons b bs ih =>
    rw [Memory.writeBytes, ih, Memory.read_write]
    by_cases h1 : a = x
    · subst h1
      rw [if_neg (by omega), if_pos rfl, if_pos ⟨Nat.le_refl _, by simp⟩]; simp
    · rw [if_neg h1]
      by_cases h2 : a + 1 ≤ x ∧ x < a + 1 + bs.length
      · rw [if_pos h2, if_pos ⟨by omega, by simp; omega⟩]
        obtain ⟨k, hk⟩ : ∃ k, x - a = k + 1 := ⟨x - a - 1, by omega⟩
        rw [hk, List.getElem?_cons_succ, show x - (a + 1) = k by omega]
      · rw [if_neg h2, if_neg (by simp; omega)]

/-- Bytes written to an empty memory from address 0: exactly those cells. -/
theorem Memory.writeBytes_nil (bs : List Byte) :
    listsExactly (Memory.writeBytes [] 0 bs) bs.length ∧ (Memory.writeBytes [] 0 bs).map Prod.snd = bs := by
  suffices ∀ (bs : List Byte) (m : Memory) (n : Nat), listsExactly m n →
      listsExactly (Memory.writeBytes m n bs) (n + bs.length) ∧
      (Memory.writeBytes m n bs).map Prod.snd = m.map Prod.snd ++ bs by
    have := this bs [] 0 rfl
    simpa using this
  intro bs
  induction bs with
  | nil => intro m n h; simpa [Memory.writeBytes] using h
  | cons b bs ih =>
    intro m n h
    obtain ⟨e, h1⟩ := h.store b
    have := ih (Memory.write m n b) (n + 1) h1
    rw [Memory.writeBytes]
    refine ⟨by rw [List.length_cons, show n + (bs.length + 1) = n + 1 + bs.length by omega]; exact this.1, ?_⟩
    rw [this.2, Memory.write, e]
    simp

end Sys2Proof.Machine
end

