-- ==== Sys2Proof/Laws/SymbolTable.lean ====
section
/-! SUPPORT. The symbols, the input read back, and the counters after `CNT` (R122, R123). -/

namespace Sys2Proof.Machine

/-! ### The 256 symbols -/

@[simp] theorem mem_allSymbols (b : Byte) : b ∈ allSymbols := by
  refine List.mem_map.2 ⟨b.toNat, List.mem_range.2 b.isLt, ?_⟩
  simp

theorem allSymbols_sorted : allSymbols.Pairwise fun b c => b.toNat < c.toNat := by
  refine List.pairwise_map.2 ?_
  refine List.Pairwise.imp_of_mem ?_ (List.pairwise_lt_range (n := numSymbols))
  intro i j hi hj hij
  have := List.mem_range.1 hi
  have := List.mem_range.1 hj
  simp only [numSymbols] at *
  simp only [BitVec.toNat_ofNat]
  omega

theorem allSymbols_nodup : allSymbols.Nodup :=
  allSymbols_sorted.imp fun h e => Nat.ne_of_lt h (congrArg BitVec.toNat e)

@[simp] theorem allSymbols_length : allSymbols.length = 256 := by simp [allSymbols, numSymbols]

theorem occurring_nodup (s : State) : s.occurring.Nodup := allSymbols_nodup.filter _

theorem occurring_sorted (s : State) : s.occurring.Pairwise fun b c => b.toNat < c.toNat := allSymbols_sorted.filter _

theorem mem_occurring {s : State} {b : Byte} : b ∈ s.occurring ↔ 0 < s.freqAt b := by simp [State.occurring]

theorem occurring_length_le (s : State) : s.occurring.length ≤ 256 := by
  rw [← allSymbols_length]; exact List.length_filter_le _ _

/-! ### Reading a memory that lists exactly its first cells -/

theorem readRange_eq {read : Nat → Option Byte} {bs : List Byte} {a : Nat}
    (h : ∀ k, (hk : k < bs.length) → read (a + k) = some bs[k]) : readRange read a bs.length = some bs := by
  induction bs generalizing a with
  | nil => rfl
  | cons b bs ih =>
    have h0 := h 0 (by simp)
    have ht : readRange read (a + 1) bs.length = some bs := by
      refine ih fun k hk => ?_
      have := h (k + 1) (by simpa using hk)
      simpa [Nat.add_assoc, Nat.add_comm 1 k] using this
    simp only [List.length_cons, readRange]
    rw [show read a = some b by simpa using h0, ht]

/-- `IN[0..LEN-1]` in order (R22). -/
theorem input?_eq {s : State} (h : listsExactly s.inMem s.len) : s.input? = some s.bytes := by
  have hl : s.bytes.length = s.len := by simp [State.bytes, h.length]
  rw [State.input?, ← hl]
  refine readRange_eq fun k hk => ?_
  have hk' : k < s.inMem.length := by simpa [State.bytes] using hk
  rw [State.inAt, if_pos (by omega), Memory.read, h.lookup, List.getElem?_eq_getElem (by omega)]
  simp [State.bytes]

/-- `OUT[0..OUTLEN-1]` in order (R61). -/
theorem output?_eq {s : State} (h : listsExactly s.outMem s.outLen) : s.output? = some (s.outMem.map Prod.snd) := by
  have hl : (s.outMem.map Prod.snd).length = s.outLen := by simp [h.length]
  rw [State.output?, ← hl]
  refine readRange_eq fun k hk => ?_
  have hk' : k < s.outMem.length := by simpa using hk
  have := h.length
  rw [State.outAt, if_pos (by omega), Memory.read, h.lookup, List.getElem?_eq_getElem (by omega)]
  simp

theorem bytes_length {s : State} (h : listsExactly s.inMem s.len) : s.bytes.length = s.len := by
  simp [State.bytes, h.length]

/-! ### The counters -/

@[simp] theorem freqIn_nil (b : Byte) : freqIn [] b = 0 := rfl

theorem freqIn_store (m : SparseMap Nat) (b c : Byte) (v : Nat) :
    freqIn (store m b.toNat v) c = if b = c then v else freqIn m c := by
  simp only [freqIn, lookup_store, BitVec.toNat_inj]
  split <;> rfl

/-- `CNT`'s loop adds to each counter the number of times its symbol occurs (R122). -/
theorem freqIn_countBytes (m : SparseMap Nat) (bs : List Byte) (b : Byte) :
    freqIn (countBytes m bs) b = freqIn m b + bs.count b := by
  induction bs generalizing m with
  | nil => simp [countBytes]
  | cons c bs ih =>
    rw [countBytes, ih, freqIn_store, List.count_cons]
    by_cases h : c = b
    · subst h; simp; omega
    · simp [h]

/-- The counters stay a canonical map of symbols to positive counts (R120). -/
theorem countBytes_canonical {m : SparseMap Nat} (h : SparseMap.wf m) (hp : ∀ c ∈ m, c.1 < numSymbols ∧ 0 < c.2)
    (bs : List Byte) : SparseMap.wf (countBytes m bs) ∧ ∀ c ∈ countBytes m bs, c.1 < numSymbols ∧ 0 < c.2 := by
  induction bs generalizing m with
  | nil => exact ⟨h, hp⟩
  | cons b bs ih =>
    refine ih (store_wf h _ _) fun c hc => ?_
    rcases mem_store hc with rfl | hc
    · exact ⟨b.isLt, Nat.succ_pos _⟩
    · exact hp c hc

/-- Every byte is counted once (R123 (a)). -/
theorem sum_count (bs : List Byte) : (allSymbols.map fun b => bs.count b).sum = bs.length := by
  induction bs with
  | nil =>
    have h0 : ∀ l : List Byte, (l.map fun b => ([] : List Byte).count b).sum = 0 := by
      intro l; induction l <;> simp_all
    exact h0 _
  | cons c bs ih =>
    have h1 : ∀ l : List Byte, l.Nodup → c ∈ l →
        (l.map fun b => (c :: bs).count b).sum = (l.map fun b => bs.count b).sum + 1 := by
      intro l hl hc
      induction l with
      | nil => simp at hc
      | cons d l ihl =>
        obtain ⟨hd, hl⟩ := List.nodup_cons.1 hl
        rcases List.mem_cons.1 hc with rfl | hc
        · have h0 : (l.map fun b => (c :: bs).count b) = l.map fun b => bs.count b :=
            List.map_congr_left fun b hb => List.count_cons_of_ne (by rintro rfl; exact hd hb)
          simp only [List.map_cons, List.sum_cons, h0, List.count_cons_self]; omega
        · have := ihl hl hc
          have hne : c ≠ d := fun e => hd (e ▸ hc)
          simp only [List.map_cons, List.sum_cons, this, List.count_cons_of_ne hne]; omega
    rw [h1 _ allSymbols_nodup (mem_allSymbols c), ih, List.length_cons]

theorem countSymbols_eq (s : State) : countSymbols s.freq = s.occurring.length := by
  rw [countSymbols, List.countP_eq_length_filter]; rfl

/-- What the rule of `CNT` does where the input is readable (R122). -/
theorem bodyCnt_eq {s : State} (h : listsExactly s.inMem s.len) (hl : s.len ≠ 0) :
    bodyCnt s = .next { s with freq := countBytes s.freq s.bytes, nsym := countSymbols (countBytes s.freq s.bytes),
                               phase := .counted } := by
  simp [bodyCnt, hl, input?_eq h]

end Sys2Proof.Machine
end

