-- ==== Sys2Proof/Laws/TreeBuilder.lean ====
section
/-! SUPPORT. What the two loops of `BLD` do (R145 to R151): seeding in closed form, and the invariant that every merge keeps. -/

namespace Sys2Proof.Machine

/-! ### Creating a node -/

theorem createNode_eq {s : State} {n : Node} (h : s.nnode < nodeMax) :
    s.createNode n = .next { s with
      node := store s.node s.nnode n, nnode := s.nnode + 1, nseq := s.nseq + 1,
      mq := s.mq ++ [{ weight := n.weight, seq := s.nseq, node := s.nnode }] } := by
  simp [State.createNode, h, State.mqInsert]

/-! ### Seeding (R147) -/

/-- The leaves seeded from symbols with counters `f`, from arena index `i` on. -/
def seedNodes (f : Byte → Nat) (i : Nat) (bs : List Byte) : SparseMap Node :=
  (bs.zipIdx i).map fun p => (p.2, Node.ofSymbol p.1 (f p.1))

/-- The queue entries seeded with them. -/
def seedEntries (f : Byte → Nat) (i : Nat) (bs : List Byte) : List Entry :=
  (bs.zipIdx i).map fun p => { weight := f p.1, seq := p.2, node := p.2 }

/-- Seeding makes the `k`-th occurring symbol the leaf `NODE[k]`, with `seq = k` (R147). -/
theorem seed_eq (bs : List Byte) (s : State) (hn : listsExactly s.node s.nnode) (hq : s.nseq = s.nnode)
    (hl : s.nnode + (bs.filter fun b => decide (0 < s.freqAt b)).length ≤ nodeMax) :
    seed bs s = .next { s with
      node := s.node ++ seedNodes s.freqAt s.nnode (bs.filter fun b => decide (0 < s.freqAt b)),
      nnode := s.nnode + (bs.filter fun b => decide (0 < s.freqAt b)).length,
      nseq := s.nnode + (bs.filter fun b => decide (0 < s.freqAt b)).length,
      mq := s.mq ++ seedEntries s.freqAt s.nnode (bs.filter fun b => decide (0 < s.freqAt b)) } := by
  induction bs generalizing s with
  | nil => cases s; simp only at hq; simp [seed, seedNodes, seedEntries, hq]
  | cons b bs ih =>
    unfold seed
    by_cases hb : 0 < s.freqAt b
    · have hf : ((b :: bs).filter fun b => decide (0 < s.freqAt b)) =
          b :: bs.filter fun b => decide (0 < s.freqAt b) := by simp [hb]
      rw [hf] at hl ⊢
      simp only [List.length_cons] at hl ⊢
      rw [if_pos hb, createNode_eq (by omega), andThen_next]
      obtain ⟨e, hn'⟩ := hn.store (Node.ofSymbol b (s.freqAt b))
      rw [ih _ hn' (by simp [hq]) (by
        change s.nnode + 1 + (bs.filter fun b => decide (0 < s.freqAt b)).length ≤ nodeMax; omega)]
      show Host.Outcome.next { s with
        node := store s.node s.nnode (Node.ofSymbol b (s.freqAt b)) ++
          seedNodes s.freqAt (s.nnode + 1) (bs.filter fun b => decide (0 < s.freqAt b)),
        nnode := s.nnode + 1 + (bs.filter fun b => decide (0 < s.freqAt b)).length,
        nseq := s.nnode + 1 + (bs.filter fun b => decide (0 < s.freqAt b)).length,
        mq := s.mq ++ [_] ++ seedEntries s.freqAt (s.nnode + 1) (bs.filter fun b => decide (0 < s.freqAt b)) } = _
      rw [e]
      simp only [seedNodes, seedEntries, List.zipIdx_cons, List.map_cons, List.append_assoc,
        List.cons_append, List.nil_append, hq, Node.ofSymbol, Nat.add_assoc, Nat.add_comm 1]
    · have hf : ((b :: bs).filter fun b => decide (0 < s.freqAt b)) =
          bs.filter fun b => decide (0 < s.freqAt b) := by simp [hb]
      rw [if_neg hb, ih s hn hq (by rw [hf] at hl; exact hl), hf]

/-! ### The forest that the merging works on (R148, R151) -/

/-- What holds of the arena and the queue at every turn of the merge loop, for `n` leaves `leaves` of total weight `total`. -/
structure Forest (leaves : SparseMap Node) (total : Nat) (s : State) : Prop where
  listed : listsExactly s.node s.nnode
  seqs : s.nseq = s.nnode
  turns : s.nnode + s.mq.length = 2 * leaves.length
  split : ∃ inner, s.node = leaves ++ inner
  inner : ∀ c ∈ s.node.drop leaves.length, c.2.leaf = false ∧ c.2.sym = 0 ∧ c.2.label = none ∧ c.2.left < c.1 ∧
    c.2.right < c.1 ∧ c.2.weight = s.weightAt c.2.left + s.weightAt c.2.right
  parents : (childIndices s.node ++ s.mq.map Entry.node).Perm (List.range s.nnode)
  entries : ∀ e ∈ s.mq, e.seq = e.node ∧ e.weight = s.weightAt e.node
  total : (s.mq.map Entry.weight).sum = total

theorem weightAt_append {s t : State} (hs : listsExactly s.node s.nnode) (ht : listsExactly t.node t.nnode)
    {c : Nat × Node} (e : t.node = s.node ++ [c]) {i : Nat} (hi : i < s.nnode) : t.weightAt i = s.weightAt i := by
  have hl := hs.length
  have ht' := ht.length
  rw [e, List.length_append] at ht'
  simp only [State.weightAt, State.nodeAt]
  rw [if_pos hi, if_pos (by simp at ht'; omega), hs.lookup, ht.lookup, e,
    List.getElem?_append_left (by omega)]

theorem childIndices_append (m m' : SparseMap Node) : childIndices (m ++ m') = childIndices m ++ childIndices m' := by
  simp [childIndices]

theorem Forest.node_lt {leaves : SparseMap Node} {total : Nat} {s : State} (h : Forest leaves total s) {e : Entry}
    (he : e ∈ s.mq) : e.node < s.nnode := by
  have : e.node ∈ childIndices s.node ++ s.mq.map Entry.node :=
    List.mem_append_right _ (List.mem_map_of_mem he)
  exact List.mem_range.1 ((h.parents.mem_iff).1 this)

/-- One merge with two entries or more in the queue: the two least leave, their parent joins, and the forest stays one. -/
theorem mergeOnce_spec {leaves : SparseMap Node} {total : Nat} {s : State} (h : Forest leaves total s)
    (hq : 1 < s.mq.length) (hl : leaves.length ≤ 256) :
    ∃ a b t, minEntry s.mq = some a ∧ minEntry (s.mq.erase a) = some b ∧ mergeOnce s = .next t ∧ TreeWritten s t ∧
      t.node = s.node ++ [(s.nnode, Node.ofMerge a b)] ∧
      t.mq = (s.mq.erase a).erase b ++
        [{ weight := a.weight + b.weight, seq := s.nseq, node := s.nnode }] ∧
      Forest leaves total t := by
  obtain ⟨a, b, ha, hb, hperm, -, -⟩ := two_minima hq
  have hnn : s.nnode < nodeMax := by have := h.turns; simp only [nodeMax]; omega
  obtain ⟨e, hn'⟩ := h.listed.store (Node.ofMerge a b)
  have ham : a ∈ s.mq := (minEntry_spec ha).1
  have hbm : b ∈ s.mq := List.mem_of_mem_erase (minEntry_spec hb).1
  let t : State := { s with
    node := store s.node s.nnode (Node.ofMerge a b), nnode := s.nnode + 1, nseq := s.nseq + 1,
    mq := (s.mq.erase a).erase b ++ [{ weight := a.weight + b.weight, seq := s.nseq, node := s.nnode }] }
  have hrun : mergeOnce s = .next t := by
    rw [mergeOnce, mqExtractMin_of_min ha, orRefuse_some, mqExtractMin_of_min (s := { s with mq := s.mq.erase a }) hb,
      orRefuse_some]
    exact createNode_eq (s := { s with mq := (s.mq.erase a).erase b }) hnn
  have hmem : ∀ x ∈ (s.mq.erase a).erase b, x ∈ s.mq := fun x hx => List.mem_of_mem_erase (List.mem_of_mem_erase hx)
  have hw : ∀ i, i < s.nnode → t.weightAt i = s.weightAt i := fun i hi => weightAt_append h.listed hn' e hi
  have hlast : t.weightAt s.nnode = a.weight + b.weight := by
    simp only [State.weightAt, State.nodeAt, t]
    rw [if_pos (by omega), lookup_store_self]; rfl
  obtain ⟨inner, hin⟩ := h.split
  have hinlen : s.node.length = s.nnode := h.listed.length
  refine ⟨a, b, t, ha, hb, hrun, rfl, e, rfl, ⟨hn', ?_, ?_, ?_, ?_, ?_, ?_, ?_⟩⟩
  · show s.nseq + 1 = s.nnode + 1
    rw [h.seqs]
  · show s.nnode + 1 + ((s.mq.erase a).erase b ++ [_]).length = _
    have := hperm.length_eq
    have := h.turns
    simp only [List.length_cons, List.length_append, List.length_nil] at *
    omega
  · exact ⟨inner ++ [(s.nnode, Node.ofMerge a b)], by show store _ _ _ = _; rw [e, hin, List.append_assoc]⟩
  · intro c hc
    have hle : leaves.length ≤ s.node.length := by rw [hin]; simp
    have hdrop : t.node.drop leaves.length = s.node.drop leaves.length ++ [(s.nnode, Node.ofMerge a b)] := by
      show (store _ _ _).drop _ = _
      rw [e, List.drop_append_of_le_length hle]
    rw [hdrop] at hc
    rcases List.mem_append.1 hc with hc | hc
    · obtain ⟨h1, h2, h3, h4, h5, h6⟩ := h.inner c hc
      have hlt := h.listed.lt (List.mem_of_mem_drop hc)
      exact ⟨h1, h2, h3, h4, h5, by rw [h6, hw _ (by omega), hw _ (by omega)]⟩
    · obtain rfl := List.mem_singleton.1 hc
      refine ⟨rfl, rfl, rfl, h.node_lt hbm, h.node_lt ham, ?_⟩
      show a.weight + b.weight = t.weightAt b.node + t.weightAt a.node
      rw [hw _ (h.node_lt ham), hw _ (h.node_lt hbm), ← (h.entries a ham).2, ← (h.entries b hbm).2, Nat.add_comm]
  · show (childIndices (store _ _ _) ++ ((s.mq.erase a).erase b ++ [_]).map Entry.node).Perm (List.range (s.nnode + 1))
    rw [e, childIndices_append, List.range_succ, List.map_append]
    have hc : childIndices [(s.nnode, Node.ofMerge a b)] = [a.node, b.node] := rfl
    rw [hc, ← List.append_assoc]
    refine List.Perm.append ?_ (List.Perm.refl _)
    refine List.Perm.trans ?_ h.parents
    rw [List.append_assoc]
    exact List.Perm.append_left _ (hperm.map Entry.node).symm
  · intro x hx
    rcases List.mem_append.1 hx with hx | hx
    · obtain ⟨h1, h2⟩ := h.entries x (hmem x hx)
      exact ⟨h1, by rw [h2, hw _ (h.node_lt (hmem x hx))]⟩
    · obtain rfl := List.mem_singleton.1 hx
      exact ⟨h.seqs, hlast.symm⟩
  · show (((s.mq.erase a).erase b ++ [_]).map Entry.weight).sum = total
    have := (hperm.map Entry.weight).sum_eq
    rw [h.total] at this
    simp only [List.map_cons, List.sum_cons, List.map_append, List.sum_append, List.map_nil, List.sum_nil] at *
    omega

/-- The merge loop runs until one entry remains (R148). -/
theorem mergeLoop_spec {leaves : SparseMap Node} {total : Nat} (hl : leaves.length ≤ 256) (k : Nat) {s : State}
    (h : Forest leaves total s) (hk : s.mq.length ≤ k + 1) (h0 : 0 < s.mq.length) :
    ∃ t, mergeLoop k s = .next t ∧ TreeWritten s t ∧ t.mq.length = 1 ∧ Forest leaves total t := by
  induction k generalizing s with
  | zero => exact ⟨s, rfl, rfl, by omega, h⟩
  | succ k ih =>
    unfold mergeLoop
    by_cases hq : 1 < s.mq.length
    · obtain ⟨a, b, t, ha, hb, hrun, hsame, -, hmq, hf⟩ := mergeOnce_spec h hq hl
      have hlen : t.mq.length + 1 = s.mq.length := by
        have h1 := length_erase_min ha
        have h2 := length_erase_min hb
        rw [hmq, List.length_append, List.length_singleton]; omega
      obtain ⟨u, hu, hsame', hone, hfu⟩ := ih hf (by omega) (by omega)
      refine ⟨u, ?_, hsame.trans hsame', hone, hfu⟩
      rw [State.mqSize, if_pos hq, hrun, andThen_next, hu]
    · refine ⟨s, ?_, rfl, by omega, h⟩
      rw [State.mqSize, if_neg hq]

/-- With one entry left, it names the last node, and every other node is a child (R149, R150). -/
theorem Forest.finish {leaves : SparseMap Node} {total : Nat} {s : State} (h : Forest leaves total s)
    (hone : s.mq.length = 1) (hleaf : ∀ c ∈ leaves, c.2.leaf = true) :
    ∃ e, s.mq = [e] ∧ e.node + 1 = s.nnode ∧ e.weight = total ∧
      (childIndices s.node).Perm (List.range e.node) := by
  obtain ⟨e, he⟩ := List.length_eq_one_iff.1 hone
  have hmem : e ∈ s.mq := by rw [he]; simp
  have hp := h.parents
  rw [he] at hp
  have hlast : s.nnode - 1 ∉ childIndices s.node := by
    intro hc
    obtain ⟨c, hcm, hcc⟩ := List.mem_flatMap.1 hc
    have hlt := h.listed.lt hcm
    obtain ⟨inner, hin⟩ := h.split
    by_cases hcl : c.2.leaf = true
    · simp [hcl] at hcc
    · have hcd : c ∈ s.node.drop leaves.length := by
        rw [hin] at hcm ⊢
        rw [List.drop_left]
        rcases List.mem_append.1 hcm with h1 | h1
        · exact absurd (hleaf c h1) hcl
        · exact h1
      obtain ⟨-, -, -, h4, h5, -⟩ := h.inner c hcd
      simp only [hcl, Bool.false_eq_true, if_false, List.mem_cons, List.not_mem_nil, or_false] at hcc
      rcases hcc with hcc | hcc <;> omega
  have hpos : 0 < s.nnode := by have := h.node_lt hmem; omega
  have hin : s.nnode - 1 ∈ childIndices s.node ++ [e.node] := by
    exact hp.mem_iff.2 (List.mem_range.2 (by omega))
  have hroot : e.node = s.nnode - 1 := by
    rcases List.mem_append.1 hin with h1 | h1
    · exact absurd h1 hlast
    · exact (List.mem_singleton.1 h1).symm
  refine ⟨e, he, by omega, ?_, ?_⟩
  · have := h.total; rw [he] at this; simpa using this
  · have hn : s.nnode = e.node + 1 := by omega
    rw [hn, List.range_succ] at hp
    exact (List.perm_append_right_iff _).1 hp

/-! ### From the counters to the tree -/

theorem seedNodes_fst (f : Byte → Nat) (bs : List Byte) : (seedNodes f 0 bs).map Prod.fst = List.range bs.length := by
  simp [seedNodes, Function.comp_def, List.range_eq_range']

theorem seedNodes_length (f : Byte → Nat) (i : Nat) (bs : List Byte) : (seedNodes f i bs).length = bs.length := by
  simp [seedNodes]

theorem seedNodes_snd (f : Byte → Nat) (i : Nat) (bs : List Byte) :
    (seedNodes f i bs).map Prod.snd = bs.map fun b => Node.ofSymbol b (f b) := by
  induction bs generalizing i with
  | nil => rfl
  | cons b bs ih => simpa [seedNodes] using ih (i + 1)

theorem seedNodes_leaf (f : Byte → Nat) (i : Nat) (bs : List Byte) :
    ∀ c ∈ seedNodes f i bs, c.2.leaf = true ∧ c.2.label = none := by
  intro c hc
  obtain ⟨p, -, rfl⟩ := List.mem_map.1 hc
  exact ⟨rfl, rfl⟩

theorem seedEntries_node (f : Byte → Nat) (bs : List Byte) :
    (seedEntries f 0 bs).map Entry.node = List.range bs.length := by
  simp [seedEntries, Function.comp_def, List.range_eq_range']

theorem seedEntries_weight (f : Byte → Nat) (i : Nat) (bs : List Byte) :
    (seedEntries f i bs).map Entry.weight = bs.map f := by
  induction bs generalizing i with
  | nil => rfl
  | cons b bs ih => simpa [seedEntries] using ih (i + 1)

theorem childIndices_leaves {m : SparseMap Node} (h : ∀ c ∈ m, c.2.leaf = true) : childIndices m = [] := by
  induction m with
  | nil => rfl
  | cons c m ih =>
    have hc := h c (by simp)
    have := ih fun d hd => h d (List.mem_cons_of_mem _ hd)
    simp only [childIndices, List.flatMap_cons, hc, if_true, List.nil_append] at *
    exact this

/-- The counters of the occurring symbols sum to the input length (R123 (a)). -/
theorem sum_occurring {s : State} (h : ∀ b ∈ allSymbols, s.freqAt b = s.bytes.count b) :
    (s.occurring.map s.freqAt).sum = s.bytes.length := by
  rw [← sum_count s.bytes, ← List.map_congr_left (f := s.freqAt) h]
  have : ∀ l : List Byte, ((l.filter fun b => decide (0 < s.freqAt b)).map s.freqAt).sum = (l.map s.freqAt).sum := by
    intro l
    induction l with
    | nil => rfl
    | cons b l ih =>
      by_cases hb : 0 < s.freqAt b
      · simp [hb, ih]
      · have : s.freqAt b = 0 := by omega
        simp [ih, this]
  exact this _

/-- The state of `BLD` between seeding and merging. -/
def State.seeded (s : State) : State :=
  { s with node := seedNodes s.freqAt 0 s.occurring, nnode := s.occurring.length, nseq := s.occurring.length,
           mq := seedEntries s.freqAt 0 s.occurring }

theorem seed_allSymbols {s : State} (ht : s.noTree) (hm : s.mq = []) : seed allSymbols s = .next s.seeded := by
  obtain ⟨h1, h2, h3, h4⟩ := ht
  have hle := occurring_length_le s
  have := seed_eq allSymbols s (by rw [h1, h2]; rfl) (by rw [h4, h2])
    (by rw [h2]; show 0 + s.occurring.length ≤ nodeMax; simp only [nodeMax]; omega)
  rw [this, h1, h2, hm]
  simp only [List.nil_append, Nat.zero_add]
  rfl

/-- Seeding leaves a forest of single leaves (R147). -/
theorem seeded_forest {s : State} (hb : listsExactly s.inMem s.len) (hc : s.counts) :
    Forest (seedNodes s.freqAt 0 s.occurring) s.len s.seeded := by
  have hlist : listsExactly s.seeded.node s.seeded.nnode := seedNodes_fst _ _
  have hleaf : childIndices (seedNodes s.freqAt 0 s.occurring) = [] :=
    childIndices_leaves fun c h => (seedNodes_leaf _ _ _ c h).1
  refine ⟨hlist, rfl, ?_, ⟨[], by simp [State.seeded]⟩, ?_, ?_, ?_, ?_⟩
  · show s.occurring.length + (seedEntries s.freqAt 0 s.occurring).length = _
    rw [seedNodes_length]; simp [seedEntries]; omega
  · intro c h
    have : s.seeded.node.drop (seedNodes s.freqAt 0 s.occurring).length = [] := List.drop_length
    rw [this] at h; simp at h
  · show (childIndices (seedNodes s.freqAt 0 s.occurring) ++ (seedEntries s.freqAt 0 s.occurring).map _).Perm _
    rw [hleaf, seedEntries_node]; exact List.Perm.refl _
  · intro e he
    obtain ⟨p, hp, rfl⟩ := List.mem_map.1 he
    refine ⟨rfl, ?_⟩
    have hlt : p.2 < s.occurring.length := by
      have := List.mem_map_of_mem (f := Prod.snd) hp
      simpa using this
    have hpe : s.occurring[p.2]? = some p.1 := (List.mem_zipIdx_iff_getElem? (x := p)).1 hp
    show s.freqAt p.1 = s.seeded.weightAt p.2
    rw [State.weightAt, State.nodeAt, if_pos (show p.2 < s.seeded.nnode from hlt), hlist.lookup, ← List.getElem?_map]
    show _ = (((((seedNodes s.freqAt 0 s.occurring).map Prod.snd)[p.2]?).map Node.weight).getD 0)
    rw [seedNodes_snd, List.getElem?_map, hpe]; rfl
  · show ((seedEntries s.freqAt 0 s.occurring).map Entry.weight).sum = s.len
    rw [seedEntries_weight, sum_occurring hc.2.2.2.1, bytes_length hb]

/-- What the rule of `BLD` does to counted input (R145, R150, R151): it completes, writes the tree and nothing else but `PHASE`,
and leaves the queue empty. -/
theorem bodyBld_spec {s : State} (hb : listsExactly s.inMem s.len) (hm : s.mq = []) (hc : s.counts) (ht : s.noTree) :
    ∃ t, bodyBld s = .next t ∧
      t = { s with node := t.node, nnode := t.nnode, root := t.root, nseq := t.nseq, phase := .built } ∧
      t.hasTree ∧ ∀ c ∈ t.node, c.2.label = none := by
  have hn : s.nsym = s.occurring.length := hc.2.2.2.2
  have hpos : 0 < s.occurring.length := by
    rw [List.length_pos_iff]
    intro h0
    have := sum_occurring hc.2.2.2.1
    rw [h0, bytes_length hb] at this
    have := hc.1
    simp at *; omega
  have hle := occurring_length_le s
  have hf := seeded_forest hb hc
  have hlen : (seedNodes s.freqAt 0 s.occurring).length = s.occurring.length := seedNodes_length _ _ _
  have hmq : s.seeded.mq.length = s.occurring.length := by
    show (seedEntries s.freqAt 0 s.occurring).length = _
    simp [seedEntries]
  obtain ⟨u, hu, hsame, hone, hfu⟩ := mergeLoop_spec (by rw [hlen]; exact hle) s.seeded.mqSize hf
    (by rw [State.mqSize]; omega) (by omega)
  obtain ⟨e, hue, hroot, hw, hperm⟩ := hfu.finish hone fun c h => (seedNodes_leaf _ _ _ c h).1
  have hturns := hfu.turns
  rw [hone, hlen] at hturns
  have hfr : u.freqAt = s.freqAt := by unfold TreeWritten at hsame; rw [hsame]; rfl
  obtain ⟨inner, hin⟩ := hfu.split
  refine ⟨{ u with mq := [], root := e.node, phase := .built }, ?_, ?_, ⟨hfu.listed, ?_, ?_, ?_, ?_, ?_, ?_, ?_⟩, ?_⟩
  · have h0 : s.nsym ≠ 0 := by omega
    rw [bodyBld, if_neg h0, seed_allSymbols ht hm, andThen_next, hu, andThen_next, finishBuild,
      mqExtractMin_of_min (e := e) (by rw [hue]; rfl), orRefuse_some, hue]
    simp
  · unfold TreeWritten at hsame
    rw [hsame, hue]
    simp [State.seeded, hm]
  · show u.nnode = 2 * u.nsym - 1
    have : u.nsym = s.nsym := by unfold TreeWritten at hsame; rw [hsame]; rfl
    omega
  · show e.node = 2 * u.nsym - 2
    have : u.nsym = s.nsym := by unfold TreeWritten at hsame; rw [hsame]; rfl
    omega
  · show u.nseq = 2 * u.nsym - 1
    have : u.nsym = s.nsym := by unfold TreeWritten at hsame; rw [hsame]; rfl
    rw [hfu.seqs]; omega
  · have hns : u.nsym = (seedNodes s.freqAt 0 s.occurring).length := by
      have : u.nsym = s.nsym := by unfold TreeWritten at hsame; rw [hsame]; rfl
      omega
    have hocc : ({ u with mq := [], root := e.node, phase := .built } : State).occurring = s.occurring := by
      show allSymbols.filter (fun b => decide (0 < u.freqAt b)) = _
      rw [hfr]; rfl
    rw [hocc]
    show (u.node.take u.nsym).map _ = s.occurring.map fun b => Node.ofSymbol b (u.freqAt b)
    rw [hin, hns, List.take_left, hfr, ← seedNodes_snd s.freqAt 0]
    refine List.map_congr_left fun c hc => ?_
    rw [Node.unlabelled, ← (seedNodes_leaf _ _ _ c hc).2]
  · intro c hcm
    have hns : u.nsym = (seedNodes s.freqAt 0 s.occurring).length := by
      have : u.nsym = s.nsym := by unfold TreeWritten at hsame; rw [hsame]; rfl
      omega
    have hcm' : c ∈ u.node.drop u.nsym := hcm
    rw [hns] at hcm'
    obtain ⟨h1, h2, -, h4, h5, h6⟩ := hfu.inner c hcm'
    exact ⟨h1, h2, h4, h5, h6⟩
  · exact hperm
  · show u.weightAt e.node = u.len
    have hlen' : u.len = s.len := by unfold TreeWritten at hsame; rw [hsame]; rfl
    rw [← (hfu.entries e (by rw [hue]; simp)).2, hw, hlen']
  · intro c hcm
    have hcm' : c ∈ u.node := hcm
    rw [hin] at hcm'
    rcases List.mem_append.1 hcm' with h1 | h1
    · exact (seedNodes_leaf _ _ _ c h1).2
    · refine (hfu.inner c ?_).2.2.1
      rw [hin, List.drop_left]; exact h1

end Sys2Proof.Machine
end

