-- ==== Sys2Proof/Laws/CodeAssigner.lean ====
section
/-! SUPPORT. What `ASG` does to a finished tree (R165 to R172): the traversal visits every node once and gives every child the
label its parent fixes, whatever the order (R170); the ROM is filled from the leaves. -/

namespace Sys2Proof.Machine

/-! ### The arena as a function -/

/-- In an arena that lists `0 .. NNODE-1` an entry is read exactly where it stands. -/
theorem mem_node_iff {s : State} (h : listsExactly s.node s.nnode) {c : Nat × Node} :
    c ∈ s.node ↔ s.nodeAt c.1 = some c.2 := by
  constructor
  · intro hc
    rw [State.nodeAt, if_pos (h.lt hc), lookup_of_mem h.wf hc]
  · intro hc
    rw [State.nodeAt] at hc
    split at hc
    · exact mem_of_lookup hc
    · cases hc

theorem nodeAt_isSome {s : State} (h : listsExactly s.node s.nnode) {i : Nat} (hi : i < s.nnode) :
    ∃ n, s.nodeAt i = some n := by
  have hl := h.length
  refine ⟨(s.node[i]'(by omega)).2, ?_⟩
  rw [State.nodeAt, if_pos hi, h.lookup, List.getElem?_eq_getElem (by omega)]; rfl

theorem nodeAt_lt {s : State} {i : Nat} {n : Node} (h : s.nodeAt i = some n) : i < s.nnode := by
  rw [State.nodeAt] at h
  split at h
  · assumption
  · cases h

/-- The children of arena entry `i`, the right one first. -/
def State.kids (s : State) (i : Nat) : List Nat :=
  match s.nodeAt i with
  | some n => if n.leaf then [] else [n.right, n.left]
  | none => []

theorem childIndices_eq_kids {s : State} (h : listsExactly s.node s.nnode) :
    childIndices s.node = (List.range s.nnode).flatMap s.kids := by
  have : ∀ m : SparseMap Node, (∀ c ∈ m, s.nodeAt c.1 = some c.2) →
      childIndices m = (m.map Prod.fst).flatMap s.kids := by
    intro m hm
    induction m with
    | nil => rfl
    | cons c m ih =>
      have hc := hm c (by simp)
      have := ih fun d hd => hm d (List.mem_cons_of_mem _ hd)
      simp only [childIndices, List.flatMap_cons, List.map_cons, State.kids, hc] at *
      rw [this]
  rw [this s.node fun c hc => (mem_node_iff h).1 hc, h]

/-! ### Two arenas of one shape -/

/-- The same arena but for the codeword fields, in states that agree in all else (R25: those fields are `ASG`'s alone). -/
structure SameShape (s t : State) : Prop where
  frame : t = { s with node := t.node }
  listed : listsExactly t.node t.nnode
  nodes : ∀ i, (t.nodeAt i).map Node.unlabelled = (s.nodeAt i).map Node.unlabelled

theorem SameShape.refl {s : State} (h : listsExactly s.node s.nnode) : SameShape s s := ⟨rfl, h, fun _ => rfl⟩

theorem SameShape.trans {s t u : State} (h : SameShape s t) (h' : SameShape t u) : SameShape s u :=
  ⟨by rw [h'.frame, h.frame], h'.listed, fun i => (h'.nodes i).trans (h.nodes i)⟩

theorem SameShape.nnode {s t : State} (h : SameShape s t) : t.nnode = s.nnode := by rw [h.frame]
theorem SameShape.root {s t : State} (h : SameShape s t) : t.root = s.root := by rw [h.frame]

theorem SameShape.node {s t : State} (h : SameShape s t) {i : Nat} {n : Node} (hn : s.nodeAt i = some n) :
    ∃ m, t.nodeAt i = some m ∧ m.unlabelled = n.unlabelled := by
  have := h.nodes i
  rw [hn] at this
  cases hm : t.nodeAt i with
  | none => rw [hm] at this; simp at this
  | some m => rw [hm] at this; exact ⟨m, rfl, by simpa using this⟩

theorem unlabelled_eq {m n : Node} (h : m.unlabelled = n.unlabelled) :
    m.leaf = n.leaf ∧ m.sym = n.sym ∧ m.left = n.left ∧ m.right = n.right ∧ m.weight = n.weight := by
  simpa [Node.unlabelled] using h

theorem SameShape.kids {s t : State} (h : SameShape s t) (i : Nat) : t.kids i = s.kids i := by
  have hi := h.nodes i
  unfold State.kids
  cases hs : s.nodeAt i with
  | none => rw [hs] at hi; cases ht : t.nodeAt i with
    | none => rfl
    | some m => rw [ht] at hi; simp at hi
  | some n =>
    obtain ⟨m, hm, e⟩ := h.node hs
    obtain ⟨e1, -, e3, e4, -⟩ := unlabelled_eq e
    rw [hm]; simp only [e1, e3, e4]

theorem SameShape.weightAt {s t : State} (h : SameShape s t) (i : Nat) : t.weightAt i = s.weightAt i := by
  have hi := h.nodes i
  unfold State.weightAt
  cases hs : s.nodeAt i with
  | none => rw [hs] at hi; cases ht : t.nodeAt i with
    | none => rfl
    | some m => rw [ht] at hi; simp at hi
  | some n =>
    obtain ⟨m, hm, e⟩ := h.node hs
    rw [hm]; simp [(unlabelled_eq e).2.2.2.2]

/-- The arenas as lists agree but for the codeword fields. -/
theorem SameShape.list {s t : State} (h : SameShape s t) (hs : listsExactly s.node s.nnode) :
    t.node.map (fun c => (c.1, c.2.unlabelled)) = s.node.map fun c => (c.1, c.2.unlabelled) := by
  have h1 := h.listed.length
  have h2 := hs.length
  have h3 := h.nnode
  refine List.ext_getElem (by simp; omega) fun i hi hi' => ?_
  simp only [List.length_map] at hi hi'
  have e1 := (mem_node_iff h.listed).1 (List.getElem_mem hi)
  have e2 := (mem_node_iff hs).1 (List.getElem_mem hi')
  rw [h.listed.getElem hi] at e1
  rw [hs.getElem hi'] at e2
  have := h.nodes i
  rw [e1, e2] at this
  simp only [List.getElem_map, h.listed.getElem hi, hs.getElem hi']
  simpa using this

/-! ### Writing one label -/

/-- A label written to an existing entry (R165): it is read back there, and every other entry is as before. -/
theorem setLabel_spec {s : State} (h : listsExactly s.node s.nnode) {i : Nat} {n : Node} (hn : s.nodeAt i = some n)
    (l : PathLabel) :
    ∃ t, s.setLabel i l = some t ∧ SameShape s t ∧ t.nodeAt i = some { n with label := some l } ∧
      ∀ j, j ≠ i → t.nodeAt j = s.nodeAt j := by
  have hi := nodeAt_lt hn
  let t : State := { s with node := store s.node i { n with label := some l } }
  have hself : t.nodeAt i = some { n with label := some l } := by
    rw [State.nodeAt, if_pos (show i < t.nnode from hi)]; exact lookup_store_self _ _ _
  have hother : ∀ j, j ≠ i → t.nodeAt j = s.nodeAt j := fun j hj => by
    rw [State.nodeAt, State.nodeAt]
    show (if j < s.nnode then lookup (store s.node i _) j else none) = _
    rw [lookup_store_ne _ (Ne.symm hj)]
  refine ⟨t, by simp [State.setLabel, hn, t], ⟨rfl, h.overwrite hi _, fun j => ?_⟩, hself, hother⟩
  by_cases hj : j = i
  · subst hj; rw [hself, hn]; rfl
  · rw [hother j hj]

/-! ### The traversal (R165 to R167) -/

/-- What holds when the entries `D` have been visited and `q` waits. -/
structure Traversal (s t : State) (D q : List Nat) : Prop where
  shape : SameShape s t
  order : D ++ q = s.root :: D.flatMap s.kids
  nodup : (D ++ q).Nodup
  labelled : ∀ i ∈ D ++ q, t.labelAt i ≠ none
  rootLab : t.labelAt s.root = (s.nodeAt s.root).map rootLabel
  kidsLab : ∀ p ∈ D, ∀ n, t.nodeAt p = some n → n.leaf = false →
    t.labelAt n.right = n.label.map (PathLabel.child · true) ∧ t.labelAt n.left = n.label.map (PathLabel.child · false)

/-- The tree facts the traversal rests on (R28, R150). -/
structure TreeFacts (s : State) : Prop where
  listed : listsExactly s.node s.nnode
  root : s.root + 1 = s.nnode
  parents : ((List.range s.nnode).flatMap s.kids).Perm (List.range s.root)
  below : ∀ p, ∀ i ∈ s.kids p, i < p

theorem TreeFacts.kids_lt {s : State} (h : TreeFacts s) {p i : Nat} (hi : i ∈ s.kids p) : p < s.nnode ∧ i < s.root := by
  have hp : p < s.nnode := by
    unfold State.kids at hi
    split at hi
    · rename_i n hn; exact nodeAt_lt hn
    · simp at hi
  refine ⟨hp, ?_⟩
  have : i ∈ (List.range s.nnode).flatMap s.kids := List.mem_flatMap.2 ⟨p, List.mem_range.2 hp, hi⟩
  exact List.mem_range.1 (h.parents.mem_iff.1 this)

/-- Distinct entries have distinct children, none of them the root. -/
theorem TreeFacts.nodup {s : State} (h : TreeFacts s) {D : List Nat} (hD : D.Nodup) (hlt : ∀ i ∈ D, i < s.nnode) :
    (s.root :: D.flatMap s.kids).Nodup := by
  have hsub : D.Subperm (List.range s.nnode) :=
    List.subperm_of_subset hD fun i hi => List.mem_range.2 (hlt i hi)
  obtain ⟨D', hperm, hsl⟩ := hsub
  have hall : ((List.range s.nnode).flatMap s.kids).Nodup := h.parents.nodup_iff.2 List.nodup_range
  have h' : (D'.flatMap s.kids).Nodup := by
    refine List.Nodup.sublist ?_ hall
    rw [List.flatMap_def, List.flatMap_def]
    exact (hsl.map s.kids).flatten
  refine List.nodup_cons.2 ⟨fun hr => ?_, (hperm.flatMap_right s.kids).nodup_iff.1 h'⟩
  obtain ⟨p, -, hp⟩ := List.mem_flatMap.1 hr
  have := (h.kids_lt hp).2
  omega

theorem Traversal.lt {s t : State} {D q : List Nat} (h : Traversal s t D q) (ht : TreeFacts s) :
    ∀ i ∈ D ++ q, i < s.nnode := by
  rw [h.order]
  intro i hi
  have hr := ht.root
  rcases List.mem_cons.1 hi with rfl | hi
  · omega
  · obtain ⟨p, -, hp⟩ := List.mem_flatMap.1 hi
    have := (ht.kids_lt hp).2
    omega

theorem Traversal.length_le {s t : State} {D q : List Nat} (h : Traversal s t D q) (ht : TreeFacts s) :
    D.length + q.length ≤ s.nnode := by
  have := (List.subperm_of_subset h.nodup fun i hi => List.mem_range.2 (h.lt ht i hi)).length_le
  simpa using this

/-- The visit of one entry (R167): what holds goes on holding, with the entry visited and its children waiting. -/
theorem Traversal.visit {s t : State} {D q : List Nat} {p : Nat} {n : Node} (h : Traversal s t D (p :: q))
    (ht : TreeFacts s) (hn : t.nodeAt p = some n) :
    (n.leaf = true ∧ Traversal s t (D ++ [p]) q) ∨
    (n.leaf = false ∧ ∃ l u, n.label = some l ∧ labelChildren n l t = some u ∧
      Traversal s u (D ++ [p]) (q ++ [n.right, n.left])) := by
  have hkids := h.shape.kids p
  have horder : (D ++ [p]) ++ (q ++ s.kids p) = s.root :: (D ++ [p]).flatMap s.kids := by
    have := h.order
    rw [List.flatMap_append, List.flatMap_singleton, ← List.cons_append, ← this]
    simp
  have hDnd : (D ++ [p]).Nodup := by
    have := h.nodup
    rw [show D ++ p :: q = (D ++ [p]) ++ q by simp] at this
    exact (List.nodup_append.1 this).1
  have hDlt : ∀ i ∈ D ++ [p], i < s.nnode := fun i hi => h.lt ht i (by simp at hi ⊢; tauto)
  have hnodup : ((D ++ [p]) ++ (q ++ s.kids p)).Nodup := by rw [horder]; exact ht.nodup hDnd hDlt
  cases hleaf : n.leaf with
  | true =>
    have hk : s.kids p = [] := by rw [← hkids, State.kids, hn]; simp [hleaf]
    rw [hk, List.append_nil] at horder hnodup
    refine .inl ⟨rfl, h.shape, horder, hnodup, fun i hi => h.labelled i (by simp at hi ⊢; tauto), h.rootLab, ?_⟩
    intro r hr m hm hml
    rcases List.mem_append.1 hr with hr | hr
    · exact h.kidsLab r hr m hm hml
    · obtain rfl := List.mem_singleton.1 hr
      rw [hn] at hm; obtain rfl := Option.some.inj hm; rw [hleaf] at hml; cases hml
  | false =>
    right
    have hk : s.kids p = [n.right, n.left] := by rw [← hkids, State.kids, hn]; simp [hleaf]
    obtain ⟨l, hl⟩ : ∃ l, n.label = some l := by
      have := h.labelled p (by simp)
      rw [State.labelAt, hn] at this
      exact Option.ne_none_iff_exists'.1 this
    have hr : n.right < s.nnode := by
      have := (ht.kids_lt (p := p) (i := n.right) (by rw [hk]; simp)).2; have := ht.root; omega
    have hl' : n.left < s.nnode := by
      have := (ht.kids_lt (p := p) (i := n.left) (by rw [hk]; simp)).2; have := ht.root; omega
    rw [hk] at horder hnodup
    obtain ⟨nr, hnr⟩ := nodeAt_isSome h.shape.listed (i := n.right) (by rw [h.shape.nnode]; exact hr)
    obtain ⟨v, hv, hvs, hvself, hvother⟩ := setLabel_spec h.shape.listed hnr (l.child true)
    obtain ⟨nl, hnl⟩ := nodeAt_isSome hvs.listed (i := n.left) (by rw [hvs.nnode, h.shape.nnode]; exact hl')
    obtain ⟨u, hu, hus, huself, huother⟩ := setLabel_spec hvs.listed hnl (l.child false)
    have hne : n.right ≠ n.left := by
      have h1 := hnodup
      rw [← List.append_assoc] at h1
      have h2 := (List.nodup_append.1 h1).2.1
      simpa using h2
    have hfresh : ∀ i ∈ D ++ p :: q, i ≠ n.right ∧ i ≠ n.left := by
      intro i hi
      have h1 := hnodup
      rw [← List.append_assoc, show (D ++ [p]) ++ q = D ++ p :: q by simp] at h1
      have h2 := (List.nodup_append.1 h1).2.2
      exact ⟨h2 i hi _ (by simp), h2 i hi _ (by simp)⟩
    have hsame : ∀ i ∈ D ++ p :: q, u.nodeAt i = t.nodeAt i := fun i hi => by
      rw [huother i (hfresh i hi).2, hvother i (hfresh i hi).1]
    have hright : u.labelAt n.right = some (l.child true) := by
      rw [State.labelAt, huother _ hne, hvself]; rfl
    have hleft : u.labelAt n.left = some (l.child false) := by
      rw [State.labelAt, huself]; rfl
    -- a label already there is not overwritten
    have hkeep : ∀ i ∈ D ++ p :: q, u.labelAt i = t.labelAt i := fun i hi => by
      rw [State.labelAt, State.labelAt, hsame i hi]
    have hroot : s.root ∈ D ++ p :: q := by rw [h.order]; simp
    refine ⟨rfl, l, u, hl, by simp only [labelChildren, hv, hu], h.shape.trans (hvs.trans hus), horder, hnodup, ?_, ?_, ?_⟩
    · intro i hi
      have : i ∈ D ++ p :: q ∨ i = n.right ∨ i = n.left := by simp at hi ⊢; tauto
      rcases this with hi | rfl | rfl
      · rw [hkeep i hi]; exact h.labelled i hi
      · rw [hright]; simp
      · rw [hleft]; simp
    · rw [hkeep _ hroot, h.rootLab]
    · intro r hr m hm hml
      rcases List.mem_append.1 hr with hr | hr
      · have hrm : r ∈ D ++ p :: q := List.mem_append_left _ hr
        rw [hsame r hrm] at hm
        obtain ⟨e1, e2⟩ := h.kidsLab r hr m hm hml
        have hkr : s.kids r = [m.right, m.left] := by rw [← h.shape.kids, State.kids, hm]; simp [hml]
        have hin : ∀ i ∈ s.kids r, i ∈ D ++ p :: q := fun i hi => by
          rw [h.order]; exact List.mem_cons_of_mem _ (List.mem_flatMap.2 ⟨r, hr, hi⟩)
        rw [hkeep _ (hin _ (by rw [hkr]; simp)), hkeep _ (hin _ (by rw [hkr]; simp))]
        exact ⟨e1, e2⟩
      · obtain rfl := List.mem_singleton.1 hr
        rw [hsame r (by simp), hn] at hm
        obtain rfl := Option.some.inj hm
        rw [hright, hleft, hl]; simp

/-- The traversal ends, with every entry of the tree visited (R102, R167). -/
theorem traverse_spec {s : State} (ht : TreeFacts s) (k : Nat) {t : State} {D q : List Nat} (h : Traversal s t D q)
    (hk : s.nnode ≤ k + D.length) : ∃ u D', traverse k q t = .next u ∧ Traversal s u D' [] := by
  induction k generalizing t D q with
  | zero =>
    cases q with
    | nil => exact ⟨t, D, rfl, h⟩
    | cons p q => have := h.length_le ht; simp at this; omega
  | succ k ih =>
    cases q with
    | nil => exact ⟨t, D, rfl, h⟩
    | cons p q =>
      have hp := h.lt ht p (by simp)
      obtain ⟨n, hn⟩ := nodeAt_isSome h.shape.listed (i := p) (by rw [h.shape.nnode]; exact hp)
      have hk' : s.nnode ≤ k + (D ++ [p]).length := by simp; omega
      rcases h.visit ht hn with ⟨hl, h'⟩ | ⟨hl, l, v, hlab, hv, h'⟩
      · obtain ⟨u, D', hu, hT⟩ := ih h' hk'
        exact ⟨u, D', by simp only [traverse, hn, orRefuse_some, hl, if_true]; exact hu, hT⟩
      · obtain ⟨u, D', hu, hT⟩ := ih h' hk'
        refine ⟨u, D', ?_, hT⟩
        simp only [traverse, hn, orRefuse_some, hl, hlab, hv, Bool.false_eq_true, if_false]
        exact hu

/-- Visiting everything that waits visits the whole tree: every entry has a path from the root (R28). -/
theorem Traversal.all {s t : State} {D : List Nat} (h : Traversal s t D []) (ht : TreeFacts s) :
    ∀ i, i < s.nnode → i ∈ D := by
  have horder := h.order
  rw [List.append_nil] at horder
  have hmain : ∀ d i, i < s.nnode → s.nnode ≤ i + d → i ∈ D := by
    intro d
    induction d with
    | zero => intro i hi hd; omega
    | succ d ih =>
      intro i hi hd
      rw [horder]
      have hr := ht.root
      by_cases hroot : i = s.root
      · rw [hroot]; simp
      · have : i ∈ (List.range s.nnode).flatMap s.kids := ht.parents.mem_iff.2 (List.mem_range.2 (by omega))
        obtain ⟨p, hp, hpi⟩ := List.mem_flatMap.1 this
        have hlt := ht.below p i hpi
        have hp' := List.mem_range.1 hp
        exact List.mem_cons_of_mem _ (List.mem_flatMap.2 ⟨p, ih p hp' (by omega), hpi⟩)
  exact fun i hi => hmain s.nnode i hi (by omega)

/-! ### The tree that `BLD` leaves (R150) -/

theorem take_leaf {s : State} (h : s.hasTree) {c : Nat × Node} (hc : c ∈ s.node.take s.nsym) :
    c.2.leaf = true ∧ c.2.sym ∈ s.occurring ∧ c.2.weight = s.freqAt c.2.sym := by
  have hm : c.2.unlabelled ∈ (s.node.take s.nsym).map fun c => c.2.unlabelled := List.mem_map_of_mem hc
  rw [h.2.2.2.2.1] at hm
  obtain ⟨b, hb, e⟩ := List.mem_map.1 hm
  obtain ⟨e1, e2, -, -, e5⟩ := unlabelled_eq (m := c.2) (n := Node.ofSymbol b (s.freqAt b)) e.symm
  have e2' : c.2.sym = b := e2
  rw [e2']
  exact ⟨e1, hb, e5⟩

theorem take_syms {s : State} (h : s.hasTree) : (s.node.take s.nsym).map (fun c => c.2.sym) = s.occurring := by
  have := congrArg (List.map Node.sym) h.2.2.2.2.1
  simpa [Function.comp_def, Node.unlabelled, Node.ofSymbol] using this

theorem treeFacts_of_hasTree {s : State} (h : s.hasTree) (hn : 1 ≤ s.nsym) : TreeFacts s := by
  have hh := h
  obtain ⟨h1, h2, h3, -, -, h6, h7, -⟩ := h
  refine ⟨h1, by omega, by rw [← childIndices_eq_kids h1]; exact h7, ?_⟩
  intro p i hi
  unfold State.kids at hi
  split at hi
  · rename_i n hp
    have hc : (p, n) ∈ s.node := (mem_node_iff h1).2 hp
    rw [← List.take_append_drop s.nsym s.node] at hc
    rcases List.mem_append.1 hc with hc | hc
    · have := (take_leaf hh hc).1
      simp only at this
      simp [this] at hi
    · obtain ⟨hl, -, a, b, -⟩ := h6 _ hc
      simp only at hl a b
      simp only [hl, Bool.false_eq_true, if_false, List.mem_cons, List.not_mem_nil, or_false] at hi
      omega
  · simp at hi

/-- The finished tree is a matter of the shape alone. -/
theorem SameShape.hasTree {s t : State} (h : SameShape s t) (hs : s.hasTree) : t.hasTree := by
  have hl := h.list hs.1
  have hw : t.weightAt = s.weightAt := funext h.weightAt
  have hroot := h.root
  have hnn := h.nnode
  have hns : t.nsym = s.nsym := by rw [h.frame]
  have hfr : t.freqAt = s.freqAt := by rw [h.frame]; rfl
  have hkids : t.kids = s.kids := funext h.kids
  obtain ⟨h1, h2, h3, h4, h5, h6, h7, h8⟩ := hs
  refine ⟨h.listed, by omega, by omega, by rw [h.frame]; exact h4, ?_, ?_, ?_, ?_⟩
  · have hocc : t.occurring = s.occurring := by rw [h.frame]; rfl
    rw [hns, hocc, hfr, ← h5]
    have := congrArg (List.map Prod.snd) (congrArg (List.take s.nsym) hl)
    simpa [← List.map_take, Function.comp_def] using this
  · intro c hc
    rw [hns] at hc
    have hmem : (c.1, c.2.unlabelled) ∈ (s.node.drop s.nsym).map fun c => (c.1, c.2.unlabelled) := by
      rw [List.map_drop, ← hl, ← List.map_drop]
      exact List.mem_map_of_mem (f := fun c : Nat × Node => (c.1, c.2.unlabelled)) hc
    obtain ⟨d, hd, e⟩ := List.mem_map.1 hmem
    obtain ⟨a1, a2, a3, a4, a5⟩ := h6 d hd
    obtain ⟨b1, b2, b3, b4, b5⟩ := unlabelled_eq (Prod.ext_iff.1 e).2
    have b0 : d.1 = c.1 := (Prod.ext_iff.1 e).1
    rw [hw, ← b1, ← b2, ← b3, ← b4, ← b5, ← b0]
    exact ⟨a1, a2, a3, a4, a5⟩
  · rw [childIndices_eq_kids h.listed, hkids, hnn, hroot, ← childIndices_eq_kids h1]; exact h7
  · rw [hw, hroot, h8, h.frame]

/-- The labels of the whole tree (R165 to R169). -/
theorem assignLabels_spec {s : State} (ht : TreeFacts s) :
    ∃ t, assignLabels s = .next t ∧ SameShape s t ∧ (∀ i, i < s.nnode → t.labelAt i ≠ none) ∧
      t.labelAt s.root = (s.nodeAt s.root).map rootLabel ∧
      ∀ i n, t.nodeAt i = some n → n.leaf = false →
        t.labelAt n.right = n.label.map (PathLabel.child · true) ∧
        t.labelAt n.left = n.label.map (PathLabel.child · false) := by
  have hr := ht.root
  obtain ⟨r, hroot⟩ := nodeAt_isSome ht.listed (i := s.root) (by omega)
  obtain ⟨v, hv, hvs, hself, -⟩ := setLabel_spec ht.listed hroot (rootLabel r)
  have hvl : v.labelAt s.root = some (rootLabel r) := by rw [State.labelAt, hself]; rfl
  have h0 : Traversal s v [] [s.root] := by
    refine ⟨hvs, by simp, by simp, ?_, by rw [hvl, hroot]; rfl, by simp⟩
    intro i hi
    simp only [List.nil_append, List.mem_singleton] at hi
    rw [hi, hvl]; simp
  have hend : ∃ u D, (if r.leaf then Host.Outcome.next v else traverse s.nnode [s.root] v) = .next u ∧
      Traversal s u D [] := by
    cases hl : r.leaf with
    | true =>
      refine ⟨v, [s.root], by simp, ?_⟩
      rcases h0.visit ht hself with ⟨-, h⟩ | ⟨h, -⟩
      · exact h
      · exact absurd hl (by simpa using h)
    | false =>
      obtain ⟨u, D, hu, hT⟩ := traverse_spec ht s.nnode h0 (by simp)
      exact ⟨u, D, by simpa using hu, hT⟩
  obtain ⟨u, D, hu, hT⟩ := hend
  have hall := hT.all ht
  refine ⟨u, ?_, hT.shape, fun i hi => hT.labelled i (by simpa using hall i hi), hT.rootLab, fun i n hn hl => ?_⟩
  · rw [assignLabels, hroot, orRefuse_some, hv, orRefuse_some]; exact hu
  · have hlt : i < s.nnode := by rw [← hT.shape.nnode]; exact nodeAt_lt hn
    exact hT.kidsLab i (hall i hlt) n hn hl

/-! ### Filling the ROM (R172) -/

/-- What the ROM gets from arena entry `i`. -/
def leafWord (s : State) (i : Nat) : Option (Nat × Codeword) :=
  (s.nodeAt i).bind fun n => if n.leaf then n.label.map fun l => (n.sym.toNat, l.word) else none

theorem fillRom_eq (is : List Nat) (s : State) (h : ∀ i ∈ is, ∃ n l, s.nodeAt i = some n ∧ n.label = some l) :
    fillRom is s = .next { s with crom := (is.filterMap (leafWord s)).foldl (fun m c => store m c.1 c.2) s.crom } := by
  induction is generalizing s with
  | nil => rfl
  | cons i is ih =>
    obtain ⟨n, l, hn, hl⟩ := h i (by simp)
    have hrest := fun j hj => h j (List.mem_cons_of_mem _ hj)
    rw [fillRom, hn, orRefuse_some]
    cases hleaf : n.leaf with
    | true =>
      have hw : leafWord s i = some (n.sym.toNat, l.word) := by simp [leafWord, hn, hl, hleaf]
      rw [if_pos rfl, hl, orRefuse_some, List.filterMap_cons_some hw]
      exact ih { s with crom := store s.crom n.sym.toNat l.word } hrest
    | false =>
      have hw : leafWord s i = none := by simp [leafWord, hn, hleaf]
      rw [if_neg (by simp), List.filterMap_cons_none hw]
      exact ih s hrest

/-- Pairs with rising indices, stored one after the other, are appended. -/
theorem foldl_store_sorted {α : Type} (ps m : SparseMap α) (hp : SparseMap.wf (m ++ ps)) :
    ps.foldl (fun m c => store m c.1 c.2) m = m ++ ps := by
  induction ps generalizing m with
  | nil => simp
  | cons c ps ih =>
    have hlt : ∀ d ∈ m, d.1 < c.1 := fun d hd => (List.pairwise_append.1 hp).2.2 d hd c (by simp)
    rw [List.foldl_cons, store_eq_append hlt, ih _ (by simpa using hp)]
    simp

theorem filterMap_leafWord {s : State} (h : s.hasTree) (hl : ∀ c ∈ s.node, c.2.label ≠ none) :
    ((List.range s.nnode).filterMap (leafWord s)).map (fun c => (c.1, some c.2)) =
      (s.node.take s.nsym).map fun c => (c.2.sym.toNat, c.2.label.map PathLabel.word) := by
  have h1 := h.1
  have hsplit : ∀ m : SparseMap Node, (∀ c ∈ m, c ∈ s.node) → (m.map Prod.fst).filterMap (leafWord s) =
      m.filterMap fun c => if c.2.leaf then c.2.label.map fun l => (c.2.sym.toNat, l.word) else none := by
    intro m hm
    rw [List.filterMap_map]
    refine List.filterMap_congr fun c hc => ?_
    simp [leafWord, (mem_node_iff h1).1 (hm c hc)]
  have hrange : List.range s.nnode = s.node.map Prod.fst := h1.symm
  rw [hrange, hsplit _ fun c hc => hc]
  have hinner : (s.node.drop s.nsym).filterMap (fun c => if c.2.leaf then c.2.label.map
      fun l => (c.2.sym.toNat, l.word) else none) = [] := by
    rw [List.filterMap_eq_nil_iff]
    intro c hc
    simp [(h.2.2.2.2.2.1 c hc).1]
  conv_lhs => rw [← List.take_append_drop s.nsym s.node, List.filterMap_append, hinner, List.append_nil]
  have : ∀ m : SparseMap Node, (∀ c ∈ m, c.2.leaf = true ∧ c.2.label ≠ none) →
      (m.filterMap fun c => if c.2.leaf then c.2.label.map fun l => (c.2.sym.toNat, l.word) else none).map
        (fun c => (c.1, some c.2)) = m.map fun c => (c.2.sym.toNat, c.2.label.map PathLabel.word) := by
    intro m hm
    induction m with
    | nil => rfl
    | cons c m ih =>
      obtain ⟨h1, h2⟩ := hm c (by simp)
      obtain ⟨l, hl⟩ := Option.ne_none_iff_exists'.1 h2
      rw [List.filterMap_cons_some (b := (c.2.sym.toNat, l.word)) (by simp [h1, hl])]
      simp only [List.map_cons, hl, Option.map_some]
      rw [ih fun d hd => hm d (List.mem_cons_of_mem _ hd)]
  exact this _ fun c hc => ⟨(take_leaf h hc).1, hl c (List.mem_of_mem_take hc)⟩

/-- What the rule of `ASG` does to a finished tree (R165): it completes, writes the codeword fields, the ROM and `PHASE`, and
nothing else. -/
theorem bodyAsg_spec {s : State} (hs : s.hasTree) (hn : 1 ≤ s.nsym) (hrom : s.crom = []) :
    ∃ t, bodyAsg s = .next t ∧ t = { s with node := t.node, crom := t.crom, phase := .assigned } ∧
      (∀ i, (t.nodeAt i).map Node.unlabelled = (s.nodeAt i).map Node.unlabelled) ∧ t.hasTree ∧ t.codes := by
  have ht := treeFacts_of_hasTree hs hn
  obtain ⟨u, hu, hsh, hlab, hroot, hkids⟩ := assignLabels_spec ht
  have huT := hsh.hasTree hs
  have hlab' : ∀ c ∈ u.node, c.2.label ≠ none := by
    intro c hc
    have h1 := (mem_node_iff hsh.listed).1 hc
    have h2 := hlab c.1 (by rw [← hsh.nnode]; exact nodeAt_lt h1)
    rw [State.labelAt, h1] at h2
    exact h2
  have hall : ∀ i ∈ List.range u.nnode, ∃ n l, u.nodeAt i = some n ∧ n.label = some l := by
    intro i hi
    obtain ⟨n, hn⟩ := nodeAt_isSome hsh.listed (List.mem_range.1 hi)
    obtain ⟨l, hl⟩ := Option.ne_none_iff_exists'.1 (hlab' (i, n) ((mem_node_iff hsh.listed).2 hn))
    exact ⟨n, l, hn, hl⟩
  have hrom' : u.crom = [] := by rw [hsh.frame]; exact hrom
  have hpairs := filterMap_leafWord huT hlab'
  have hwf : SparseMap.wf ((List.range u.nnode).filterMap (leafWord u)) := by
    have hk : ((List.range u.nnode).filterMap (leafWord u)).map Prod.fst = u.occurring.map BitVec.toNat := by
      have := congrArg (List.map Prod.fst) hpairs
      rw [← take_syms huT]
      simpa [Function.comp_def] using this
    have : (((List.range u.nnode).filterMap (leafWord u)).map Prod.fst).Pairwise (· < ·) := by
      rw [hk]; exact List.pairwise_map.2 (occurring_sorted u)
    exact List.pairwise_map.1 this
  have hfill := fillRom_eq (List.range u.nnode) u hall
  rw [hrom', foldl_store_sorted _ [] (by simpa using hwf), List.nil_append] at hfill
  refine ⟨{ u with crom := (List.range u.nnode).filterMap (leafWord u), phase := .assigned }, ?_, ?_, hsh.nodes, huT,
    hlab', ?_, ?_, hpairs⟩
  · rw [bodyAsg, hu, andThen_next, hfill, andThen_next]
  · rw [hsh.frame]
  · show u.labelAt u.root = (u.nodeAt u.root).map rootLabel
    rw [hsh.root, hroot]
    have hi := hsh.nodes s.root
    cases h1 : s.nodeAt s.root with
    | none => rw [h1] at hi; cases h2 : u.nodeAt s.root with
      | none => rfl
      | some m => rw [h2] at hi; simp at hi
    | some n =>
      obtain ⟨m, hm, e⟩ := hsh.node h1
      rw [hm]; simp [rootLabel, (unlabelled_eq e).1]
  · intro c hc hl
    exact hkids c.1 c.2 ((mem_node_iff hsh.listed).1 hc) hl

end Sys2Proof.Machine
end

