-- ==== Sys2Proof/Laws/BitEncoder.lean ====
section
/-! SUPPORT. Codewords as bit strings (R31), the bounds on labels (R168), the padding and packing equations (R187, R188), the
shift-and-OR procedure of R185 and the result of `ENC`. -/

namespace Sys2Proof.Machine

/-! ### Codewords (R31) -/

@[simp] theorem empty_clen : Codeword.empty.clen = 0 := rfl
@[simp] theorem append_clen (w : Codeword) (b : Bool) : (w.append b).clen = w.clen + 1 := rfl
@[simp] theorem bits_empty : Codeword.empty.bits = [] := rfl
@[simp] theorem bits_length (w : Codeword) : w.bits.length = w.clen := by simp [Codeword.bits]

/-- Bit 0 of an appended codeword is the new bit, and every bit above is the old one's one place down. -/
theorem append_getLsbD (w : Codeword) (b : Bool) (k : Nat) (hk : k < 255) :
    (w.append b).code.getLsbD k = if k = 0 then b else w.code.getLsbD (k - 1) := by
  have hone : (1 : CodeBits).getLsbD k = decide (k = 0) := by
    rw [show (1 : CodeBits) = BitVec.ofNat 255 1 from rfl, BitVec.getLsbD_ofNat]
    cases k with
    | zero => simp
    | succ k => simp [Nat.testBit_succ]
  simp only [Codeword.append, BitVec.getLsbD_or, BitVec.getLsbD_shiftLeft]
  by_cases h0 : k = 0
  · subst h0; cases b <;> simp
  · cases b with
    | false => simp [h0, hk]
    | true =>
      simp only [if_true, hone, h0, decide_false, Bool.or_false, if_false, hk, decide_true, Bool.true_and]
      simp [h0]

/-- Appending to the stored form appends to the bit string (R31), while the codeword fits its 255 bits. -/
theorem bits_append (w : Codeword) (b : Bool) (h : w.clen < 255) : (w.append b).bits = w.bits ++ [b] := by
  refine List.ext_getElem (by simp) fun k hk hk' => ?_
  simp only [bits_length, append_clen] at hk
  simp only [Codeword.bits, List.getElem_map, List.getElem_range, Codeword.bitAt, append_clen]
  rw [append_getLsbD _ _ _ (by omega)]
  by_cases hlast : k = w.clen
  · subst hlast
    rw [if_pos (by omega), List.getElem_append_right (by simp)]; simp
  · rw [if_neg (by omega), List.getElem_append_left (by simp; omega)]
    simp only [List.getElem_map, List.getElem_range, Codeword.bitAt]
    congr 1; omega

theorem append_code_lt (w : Codeword) (b : Bool) (h : w.code.toNat < 2 ^ w.clen) :
    (w.append b).code.toNat < 2 ^ (w.append b).clen := by
  simp only [Codeword.append, BitVec.toNat_or, BitVec.toNat_shiftLeft]
  refine Nat.or_lt_two_pow ?_ ?_
  · refine Nat.lt_of_le_of_lt (Nat.mod_le _ _) ?_
    rw [Nat.shiftLeft_eq, Nat.pow_one, Nat.pow_succ 2 w.clen]; omega
  · cases b
    · simp
    · have : (1 : CodeBits).toNat = 1 := by decide
      simp only [if_true, this, Nat.pow_succ]
      have := Nat.one_le_two_pow (n := w.clen); omega

theorem ofBits_append (bits : List Bool) (b : Bool) : Codeword.ofBits (bits ++ [b]) = (Codeword.ofBits bits).append b := by
  simp [Codeword.ofBits]

/-- The stored form is a bijection with the bit strings of at most 255 bits (R31). -/
theorem bits_ofBits (bits : List Bool) (h : bits.length ≤ 255) :
    (Codeword.ofBits bits).bits = bits ∧ (Codeword.ofBits bits).clen = bits.length := by
  induction bits using List.reverseRecOn with
  | nil => exact ⟨rfl, rfl⟩
  | append_singleton bits b ih =>
    simp only [List.length_append, List.length_singleton] at h
    obtain ⟨h1, h2⟩ := ih (by omega)
    rw [ofBits_append]
    exact ⟨by rw [bits_append _ _ (by omega), h1], by simp [h2]⟩

/-! ### Lookup and concatenation (R186, R190) -/

theorem lookupAll_eq_some {rom : Byte → Option Codeword} {bs : List Byte} (h : ∀ b ∈ bs, (rom b).isSome = true) :
    ∃ ws, lookupAll rom bs = some ws ∧ ws.length = bs.length := by
  induction bs with
  | nil => exact ⟨[], rfl, rfl⟩
  | cons b bs ih =>
    obtain ⟨w, hw⟩ := Option.isSome_iff_exists.1 (h b (by simp))
    obtain ⟨ws, hws, hl⟩ := ih fun c hc => h c (List.mem_cons_of_mem _ hc)
    exact ⟨w :: ws, by simp [lookupAll, hw, hws], by simp [hl]⟩

theorem mem_lookupAll {rom : Byte → Option Codeword} {bs : List Byte} {ws : List Codeword}
    (h : lookupAll rom bs = some ws) {w : Codeword} (hw : w ∈ ws) : ∃ b ∈ bs, rom b = some w := by
  induction bs generalizing ws with
  | nil => simp [lookupAll] at h; subst h; simp at hw
  | cons b bs ih =>
    unfold lookupAll at h
    split at h
    · rename_i v vs h1 h2
      obtain rfl := Option.some.inj h
      rcases List.mem_cons.1 hw with rfl | hw
      · exact ⟨b, by simp, h1⟩
      · obtain ⟨c, hc, hcw⟩ := ih h2 hw
        exact ⟨c, List.mem_cons_of_mem _ hc, hcw⟩
    · cases h

theorem length_of_lookupAll {rom : Byte → Option Codeword} {bs : List Byte} {ws : List Codeword}
    (h : lookupAll rom bs = some ws) : ws.length = bs.length := by
  induction bs generalizing ws with
  | nil => simp [lookupAll] at h; subst h; rfl
  | cons b bs ih =>
    unfold lookupAll at h
    split at h
    · rename_i v vs h1 h2
      obtain rfl := Option.some.inj h
      simp [ih h2]
    · cases h

@[simp] theorem concatBits_length (ws : List Codeword) : (concatBits ws).length = sumLengths ws := by
  simp [concatBits, sumLengths, List.length_flatMap]

/-! ### Padding (R187) -/

theorem padOf_le (n : Nat) : padOf n ≤ 7 := by unfold padOf; omega

theorem add_padOf_mod (n : Nat) : (n + padOf n) % 8 = 0 := by unfold padOf; omega

theorem padBits_length (bits : List Bool) (n : Nat) : (padBits bits n).length = bits.length + n := by
  simp [padBits]

/-! ### Packing (R64, R188) -/

/-- The eight bits of a packed byte, most significant first, are `p_(8j), ..., p_(8j+7)`. -/
theorem byteBits_packedByte (p : List Bool) (j : Nat) (h : 8 * j + 8 ≤ p.length) :
    byteBits (packedByte p j) = (p.drop (8 * j)).take 8 := by
  have key : ∀ b0 b1 b2 b3 b4 b5 b6 b7 : Bool,
      byteBits (BitVec.ofNat 8 (b0.toNat * 2 ^ 7 + (b1.toNat * 2 ^ 6 + (b2.toNat * 2 ^ 5 + (b3.toNat * 2 ^ 4 +
        (b4.toNat * 2 ^ 3 + (b5.toNat * 2 ^ 2 + (b6.toNat * 2 ^ 1 + (b7.toNat * 2 ^ 0 + 0)))))))) ) =
      [b0, b1, b2, b3, b4, b5, b6, b7] := by decide
  have hsum : packedByte p j = BitVec.ofNat 8 ((p.getD (8 * j + 0) false).toNat * 2 ^ 7 +
      ((p.getD (8 * j + 1) false).toNat * 2 ^ 6 + ((p.getD (8 * j + 2) false).toNat * 2 ^ 5 +
      ((p.getD (8 * j + 3) false).toNat * 2 ^ 4 + ((p.getD (8 * j + 4) false).toNat * 2 ^ 3 +
      ((p.getD (8 * j + 5) false).toNat * 2 ^ 2 + ((p.getD (8 * j + 6) false).toNat * 2 ^ 1 +
      ((p.getD (8 * j + 7) false).toNat * 2 ^ 0 + 0)))))))) := rfl
  rw [hsum, key]
  refine List.ext_getElem (by simp; omega) fun k hk hk' => ?_
  simp only [List.length_cons, List.length_nil] at hk
  have hkk : 8 * j + k < p.length := by omega
  rw [List.getElem_take, List.getElem_drop]
  have : k = 0 ∨ k = 1 ∨ k = 2 ∨ k = 3 ∨ k = 4 ∨ k = 5 ∨ k = 6 ∨ k = 7 := by omega
  rcases this with rfl | rfl | rfl | rfl | rfl | rfl | rfl | rfl <;> exact List.getD_eq_getElem p false hkk

/-- Unpacking what was packed gives the bits back (R193 (c)). -/
theorem unpack_packBits (n : Nat) (p : List Bool) (h : p.length = 8 * n) : (packBits p n).flatMap byteBits = p := by
  have : ∀ k, k ≤ n → ((List.range k).map (packedByte p)).flatMap byteBits = p.take (8 * k) := by
    intro k
    induction k with
    | zero => intro; simp
    | succ k ih =>
      intro hk
      rw [List.range_succ, List.map_append, List.flatMap_append, ih (by omega), List.map_singleton,
        List.flatMap_singleton, byteBits_packedByte p k (by omega), show 8 * (k + 1) = 8 * k + 8 by omega,
        List.take_add]
  rw [packBits, this n (Nat.le_refl n), ← h, List.take_length]

@[simp] theorem packBits_length (p : List Bool) (n : Nat) : (packBits p n).length = n := by simp [packBits]

/-! ### The shift-and-OR procedure (R185) -/

/-- What the packer holds after the bits `p`: the whole bytes packed, the rest in `acc`, first bit highest. -/
structure Packs (p : List Bool) (k : Packer) : Prop where
  nb : k.nb = p.length % 8
  out : k.out = packBits p (p.length / 8)
  acc : k.acc = BitVec.ofNat 8 ((p.drop (8 * (p.length / 8))).foldl (fun a b => 2 * a + b.toNat) 0)

theorem packedByte_append {p : List Bool} (q : List Bool) {j : Nat} (h : 8 * j + 8 ≤ p.length) :
    packedByte (p ++ q) j = packedByte p j := by
  unfold packedByte
  congr 2
  refine List.map_congr_left fun k hk => ?_
  have := List.mem_range.1 hk
  rw [List.getD_append _ _ _ _ (by omega)]

theorem packBits_append {p : List Bool} (q : List Bool) {n : Nat} (h : 8 * n ≤ p.length) :
    packBits (p ++ q) n = packBits p n := by
  refine List.map_congr_left fun j hj => packedByte_append q ?_
  have := List.mem_range.1 hj
  omega

theorem packedByte_eq_foldl (p : List Bool) (j : Nat) (h : p.length = 8 * j + 8) :
    packedByte p j = BitVec.ofNat 8 ((p.drop (8 * j)).foldl (fun a b => 2 * a + b.toNat) 0) := by
  obtain ⟨b0, b1, b2, b3, b4, b5, b6, b7, hd⟩ : ∃ b0 b1 b2 b3 b4 b5 b6 b7, p.drop (8 * j) =
      [b0, b1, b2, b3, b4, b5, b6, b7] := by
    have hl : (p.drop (8 * j)).length = 8 := by simp; omega
    match hq : p.drop (8 * j), hl with
    | [b0, b1, b2, b3, b4, b5, b6, b7], _ => exact ⟨b0, b1, b2, b3, b4, b5, b6, b7, rfl⟩
  have hg : ∀ k, p.getD (8 * j + k) false = (p.drop (8 * j)).getD k false := fun k => by
    simp [List.getD_eq_getElem?_getD, List.getElem?_drop]
  unfold packedByte
  congr 1
  simp only [hg, hd, show List.range 8 = [0, 1, 2, 3, 4, 5, 6, 7] from rfl, List.map_cons, List.map_nil, List.sum_cons,
    List.sum_nil, List.foldl_cons, List.foldl_nil, List.getD_cons_zero, List.getD_cons_succ]
  omega

/-- One `emit` (R185) packs one more bit (R188). -/
theorem Packs.emit {p : List Bool} {k : Packer} (h : Packs p k) (b : Bool) : Packs (p ++ [b]) (k.emit b) := by
  have hlen : (p ++ [b]).length = p.length + 1 := by simp
  have hacc : (k.acc <<< 1) ||| (if b then 1 else 0) = BitVec.ofNat 8
      (((p ++ [b]).drop (8 * (p.length / 8))).foldl (fun a b => 2 * a + b.toNat) 0) := by
    rw [List.drop_append_of_le_length (by omega), List.foldl_append, h.acc]
    generalize (p.drop (8 * (p.length / 8))).foldl (fun a b => 2 * a + b.toNat) 0 = a
    have hor : ∀ (x : BitVec 8) (b : Bool), (x <<< 1) ||| (if b then 1 else 0) = 2 * x + BitVec.ofNat 8 b.toNat := by decide
    rw [hor]
    simp only [List.foldl_cons, List.foldl_nil]
    apply BitVec.eq_of_toNat_eq
    simp [BitVec.toNat_add, BitVec.toNat_mul, BitVec.toNat_ofNat]
  unfold Packer.emit
  by_cases h8 : k.nb + 1 = 8
  · rw [if_pos h8]
    have hq : (p.length + 1) / 8 = p.length / 8 + 1 := by have := h.nb; omega
    have hm : p.length + 1 = 8 * (p.length / 8) + 8 := by have := h.nb; omega
    refine ⟨?_, ?_, ?_⟩
    · rw [hlen]; have := h.nb; simp only; omega
    · show k.out ++ [_] = packBits (p ++ [b]) ((p ++ [b]).length / 8)
      rw [hlen, hq, packBits, List.range_succ, List.map_append, List.map_singleton, hacc, h.out,
        packedByte_eq_foldl (p ++ [b]) (p.length / 8) (by rw [hlen]; exact hm)]
      congr 1
      exact (packBits_append [b] (by omega)).symm
    · rw [hlen, hq, List.drop_of_length_le (by rw [hlen]; omega)]; rfl
  · rw [if_neg h8]
    have hq : (p.length + 1) / 8 = p.length / 8 := by have := h.nb; omega
    refine ⟨?_, ?_, ?_⟩
    · rw [hlen]; have := h.nb; simp only; omega
    · show k.out = packBits (p ++ [b]) ((p ++ [b]).length / 8)
      rw [hlen, hq, h.out, packBits_append [b] (by omega)]
    · rw [hlen, hq, ← hacc]

theorem Packs.emitBits {p : List Bool} {k : Packer} (h : Packs p k) (bits : List Bool) :
    Packs (p ++ bits) (Machine.emitBits k bits) := by
  induction bits generalizing p k with
  | nil => simpa [Machine.emitBits] using h
  | cons b bits ih =>
    have := ih (h.emit b)
    rw [List.append_assoc] at this
    exact this

theorem Packs.words {p : List Bool} {k : Packer} (h : Packs p k) (ws : List Codeword) :
    Packs (p ++ concatBits ws) (ws.foldl (fun p w => Machine.emitBits p w.bits) k) := by
  induction ws generalizing p k with
  | nil => simpa [concatBits] using h
  | cons w ws ih =>
    have := ih (h.emitBits w.bits)
    rw [List.append_assoc] at this
    exact this

theorem packs_start : Packs [] Packer.start := ⟨rfl, rfl, rfl⟩

/-! ### Bounds on the labels (R168) -/

/-- The labels of a tree: the depth of an internal node is at most its distance in creation from the root, that of a leaf at
most `NSYM - 1`; below an internal root `clen = depth`; no bit stands above the codeword's length. -/
theorem label_bounds {s : State} (hs : s.hasTree) (hn : 1 ≤ s.nsym) (hc : s.codes) :
    ∀ d i n l, s.nnode ≤ i + d → s.nodeAt i = some n → n.label = some l →
      (n.leaf = false → l.depth + i ≤ s.root) ∧ l.depth + 1 ≤ s.nsym ∧
      l.word.clen = l.depth + (if s.nsym = 1 then 1 else 0) ∧ l.word.code.toNat < 2 ^ l.word.clen := by
  have ht := treeFacts_of_hasTree hs hn
  have hh := hs
  obtain ⟨h1, h2, h3, -, -, h6, -, -⟩ := hs
  obtain ⟨-, hroot, hkids, -⟩ := hc
  -- an internal node stands at index `NSYM` or above
  have hinner : ∀ i n, s.nodeAt i = some n → n.leaf = false → s.nsym ≤ i := by
    intro i n hi hl
    by_contra hlt
    have hm := (mem_node_iff h1 (c := (i, n))).2 hi
    have hli := nodeAt_lt hi
    have hmem : (i, n) ∈ s.node.take s.nsym := by
      obtain ⟨k, hk, e⟩ := List.getElem_of_mem hm
      have hki := h1.getElem hk
      rw [e] at hki
      simp only at hki
      subst hki
      rw [← e]
      exact List.mem_take_iff_getElem.2 ⟨i, by omega, rfl⟩
    have := (take_leaf hh hmem).1
    simp only at this
    rw [hl] at this; cases this
  intro d
  induction d with
  | zero => intro i n l hd hi; have := nodeAt_lt hi; omega
  | succ d ih =>
    intro i n l hd hi hl
    have hlt := nodeAt_lt hi
    have hrt := ht.root
    by_cases hir : i = s.root
    · subst hir
      rw [State.labelAt, hi, Option.bind_some, hl, Option.map_some] at hroot
      obtain rfl := Option.some.inj hroot
      cases hleaf : n.leaf with
      | true =>
        have hone : s.nsym = 1 := by
          by_contra hne
          have hdrop : (s.root, n) ∈ s.node.drop s.nsym := by
            have hm := (mem_node_iff h1 (c := (s.root, n))).2 hi
            rw [← List.take_append_drop s.nsym s.node] at hm
            rcases List.mem_append.1 hm with hm | hm
            · obtain ⟨k, hk, e⟩ := List.mem_take_iff_getElem.1 hm
              have := h1.getElem (i := k) (by omega)
              rw [e] at this; simp only at this; omega
            · exact hm
          have := (h6 _ hdrop).1
          simp only at this
          rw [hleaf] at this; cases this
        simp [rootLabel, hleaf, hone, Codeword.append, Codeword.empty]
      | false =>
        have := hinner _ _ hi hleaf
        have hne : s.nsym ≠ 1 := by omega
        simp [rootLabel, hleaf, hne, Codeword.empty]
        omega
    · have hmem : i ∈ (List.range s.nnode).flatMap s.kids := ht.parents.mem_iff.2 (List.mem_range.2 (by omega))
      obtain ⟨p, hp, hpi⟩ := List.mem_flatMap.1 hmem
      have hpl := ht.below p i hpi
      have hp' := List.mem_range.1 hp
      obtain ⟨m, hm⟩ := nodeAt_isSome h1 hp'
      have hmleaf : m.leaf = false := by
        cases hml : m.leaf with
        | false => rfl
        | true => simp [State.kids, hm, hml] at hpi
      simp only [State.kids, hm, hmleaf, Bool.false_eq_true, if_false, List.mem_cons, List.not_mem_nil, or_false] at hpi
      have hpin := hinner p m hm hmleaf
      have hne : s.nsym ≠ 1 := by omega
      obtain ⟨k1, k2⟩ := hkids (p, m) ((mem_node_iff h1).2 hm) hmleaf
      simp only at k1 k2
      have hml : ∃ lm b, m.label = some lm ∧ l = lm.child b := by
        have hlab : s.labelAt i = some l := by rw [State.labelAt, hi, Option.bind_some, hl]
        rcases hpi with rfl | rfl
        · rw [hlab] at k1
          cases hlm : m.label with
          | none => rw [hlm] at k1; simp at k1
          | some lm => rw [hlm] at k1; exact ⟨lm, true, rfl, by simpa using k1⟩
        · rw [hlab] at k2
          cases hlm : m.label with
          | none => rw [hlm] at k2; simp at k2
          | some lm => rw [hlm] at k2; exact ⟨lm, false, rfl, by simpa using k2⟩
      obtain ⟨lm, b, hlm, rfl⟩ := hml
      obtain ⟨i1, i2, i3, i4⟩ := ih p m lm (by omega) hm hlm
      have i1 := i1 hmleaf
      refine ⟨fun hl' => ?_, ?_, ?_, append_code_lt _ _ i4⟩
      · simp only [PathLabel.child]; omega
      · simp only [PathLabel.child]; omega
      · simp only [PathLabel.child, append_clen, i3]; omega

/-! ### The ROM after `ASG` (R172) -/

theorem crom_keys {s : State} (hs : s.hasTree) (hc : s.codes) : s.crom.map Prod.fst = s.occurring.map BitVec.toNat := by
  have := congrArg (List.map Prod.fst) hc.2.2.2
  rw [← take_syms hs]
  simpa [Function.comp_def] using this

theorem crom_wf {s : State} (hs : s.hasTree) (hc : s.codes) : SparseMap.wf s.crom := by
  have : (s.crom.map Prod.fst).Pairwise (· < ·) := by
    rw [crom_keys hs hc]; exact List.pairwise_map.2 (occurring_sorted s)
  exact List.pairwise_map.1 this

/-- `CROM[b].valid = 1` exactly when `FREQ[b] > 0` (R30, R172). -/
theorem romValid_iff {s : State} (hs : s.hasTree) (hc : s.codes) (b : Byte) :
    s.romValid b = true ↔ 0 < s.freqAt b := by
  have hk := crom_keys hs hc
  rw [← mem_occurring, State.romValid, State.romAt]
  constructor
  · intro h
    obtain ⟨w, hw⟩ := Option.isSome_iff_exists.1 h
    have : b.toNat ∈ s.crom.map Prod.fst := List.mem_map_of_mem (mem_of_lookup hw)
    rw [hk] at this
    obtain ⟨c, hc, e⟩ := List.mem_map.1 this
    rwa [← BitVec.eq_of_toNat_eq e]
  · intro h
    have : b.toNat ∈ s.crom.map Prod.fst := by rw [hk]; exact List.mem_map_of_mem h
    obtain ⟨c, hcm, e⟩ := List.mem_map.1 this
    have := lookup_of_mem (crom_wf hs hc) hcm
    rw [e] at this
    rw [this]; rfl

/-- A valid entry holds the codeword of the leaf of its symbol (R172). -/
theorem romAt_eq_some {s : State} (hs : s.hasTree) (hc : s.codes) {b : Byte} {w : Codeword} (h : s.romAt b = some w) :
    ∃ i n l, s.nodeAt i = some n ∧ n.leaf = true ∧ n.sym = b ∧ n.label = some l ∧ l.word = w := by
  have hm := mem_of_lookup (show lookup s.crom b.toNat = some w from h)
  have : (b.toNat, some w) ∈ s.crom.map fun c => (c.1, some c.2) :=
    List.mem_map_of_mem (f := fun c : Nat × Codeword => (c.1, some c.2)) hm
  rw [hc.2.2.2] at this
  obtain ⟨c, hcm, e⟩ := List.mem_map.1 this
  obtain ⟨e1, e2⟩ := Prod.ext_iff.1 e
  simp only at e1 e2
  cases hl : c.2.label with
  | none => rw [hl] at e2; simp at e2
  | some l =>
    rw [hl] at e2
    exact ⟨c.1, c.2, l, (mem_node_iff hs.1).1 (List.mem_of_mem_take hcm), (take_leaf hs hcm).1,
      BitVec.eq_of_toNat_eq e1, hl, by simpa using e2⟩

/-- A codeword of the ROM has 1 to 255 bits (R168, R171). -/
theorem rom_clen {s : State} (hs : s.hasTree) (hn : 1 ≤ s.nsym) (hle : s.nsym ≤ 256) (hc : s.codes) {b : Byte}
    {w : Codeword} (h : s.romAt b = some w) : 1 ≤ w.clen ∧ w.clen ≤ 255 := by
  obtain ⟨i, n, l, hi, hleaf, -, hl, rfl⟩ := romAt_eq_some hs hc h
  obtain ⟨-, h2, h3, -⟩ := label_bounds hs hn hc s.nnode i n l (by omega) hi hl
  refine ⟨?_, by split at h3 <;> omega⟩
  by_cases hone : s.nsym = 1
  · simp [hone] at h3; omega
  -- the leaf is not the root, so it is some parent's child and its codeword is an extension
  have hh := hs
  obtain ⟨g1, g2, g3, -, -, g6, g7, -⟩ := hs
  have hne : i ≠ s.root := by
    rintro rfl
    have hm := (mem_node_iff g1 (c := (s.root, n))).2 hi
    rw [← List.take_append_drop s.nsym s.node] at hm
    rcases List.mem_append.1 hm with hm | hm
    · obtain ⟨k, hk, e⟩ := List.mem_take_iff_getElem.1 hm
      have := g1.getElem (i := k) (by omega)
      rw [e] at this; simp only at this; omega
    · have := (g6 _ hm).1
      simp only at this
      rw [hleaf] at this; cases this
  have ht := treeFacts_of_hasTree hh hn
  have hlt := nodeAt_lt hi
  have hmem : i ∈ (List.range s.nnode).flatMap s.kids := ht.parents.mem_iff.2 (List.mem_range.2 (by omega))
  obtain ⟨p, hp, hpi⟩ := List.mem_flatMap.1 hmem
  obtain ⟨m, hm⟩ := nodeAt_isSome g1 (List.mem_range.1 hp)
  have hmleaf : m.leaf = false := by
    cases hml : m.leaf with
    | false => rfl
    | true => simp [State.kids, hm, hml] at hpi
  simp only [State.kids, hm, hmleaf, Bool.false_eq_true, if_false, List.mem_cons, List.not_mem_nil, or_false] at hpi
  obtain ⟨k1, k2⟩ := hc.2.2.1 (p, m) ((mem_node_iff g1).2 hm) hmleaf
  have hlab : s.labelAt i = some l := by rw [State.labelAt, hi, Option.bind_some, hl]
  simp only at k1 k2
  rcases hpi with rfl | rfl
  · rw [hlab] at k1
    cases hlm : m.label with
    | none => rw [hlm] at k1; simp at k1
    | some lm => rw [hlm] at k1; obtain rfl := Option.some.inj k1; simp [PathLabel.child]
  · rw [hlab] at k2
    cases hlm : m.label with
    | none => rw [hlm] at k2; simp at k2
    | some lm => rw [hlm] at k2; obtain rfl := Option.some.inj k2; simp [PathLabel.child]

/-! ### The result of `ENC` (R185 to R190) -/

theorem sumLengths_bounds {ws : List Codeword} (h : ∀ w ∈ ws, 1 ≤ w.clen ∧ w.clen ≤ 255) :
    ws.length ≤ sumLengths ws ∧ sumLengths ws ≤ 255 * ws.length := by
  induction ws with
  | nil => simp [sumLengths]
  | cons w ws ih =>
    obtain ⟨h1, h2⟩ := ih fun v hv => h v (List.mem_cons_of_mem _ hv)
    obtain ⟨h3, h4⟩ := h w (by simp)
    have : sumLengths (w :: ws) = w.clen + sumLengths ws := rfl
    simp only [List.length_cons]
    omega

/-- Every byte of the input has a codeword (R190). -/
theorem lookupAll_bytes {s : State} (hc : s.counts) (hs : s.hasTree) (hk : s.codes) :
    ∃ ws, lookupAll s.romAt s.bytes = some ws ∧ ws.length = s.bytes.length := by
  refine lookupAll_eq_some fun b hb => (romValid_iff hs hk b).2 ?_
  rw [hc.2.2.2.1 b (mem_allSymbols b)]
  exact List.count_pos_iff.2 hb

/-- `LEN <= TOTALBITS <= 255 * LEN` (R193 (b)). -/
theorem totalBits_bounds {s : State} (hb : listsExactly s.inMem s.len) (hc : s.counts) (hs : s.hasTree) (hk : s.codes)
    {ws : List Codeword} (h : lookupAll s.romAt s.bytes = some ws) :
    s.len ≤ sumLengths ws ∧ sumLengths ws ≤ 255 * s.len := by
  have hn : s.nsym = s.occurring.length := hc.2.2.2.2
  have hpos : 1 ≤ s.nsym := by
    have hlen := bytes_length hb
    have h1 := hc.1
    obtain ⟨b, hbm⟩ := List.exists_mem_of_length_pos (l := s.bytes) (by omega)
    have : b ∈ s.occurring := mem_occurring.2 (by
      rw [hc.2.2.2.1 b (mem_allSymbols b)]; exact List.count_pos_iff.2 hbm)
    have := List.length_pos_of_mem this
    omega
  have := sumLengths_bounds (ws := ws) fun w hw => by
    obtain ⟨b, -, hbw⟩ := mem_lookupAll h hw
    exact rom_clen hs hpos (by rw [hn]; exact occurring_length_le s) hk hbw
  rw [length_of_lookupAll h, bytes_length hb] at this
  exact this

/-- What the rule of `ENC` does to an assigned code (R185): it completes, writes the results and `PHASE`, and nothing else. -/
theorem bodyEnc_spec {s : State} (hcm : s.common) (hc : s.counts) (hs : s.hasTree) (hk : s.codes) (ho : s.noOutput) :
    ∃ t, bodyEnc s = .next t ∧
      t = { s with outMem := t.outMem, totalBits := t.totalBits, pad := t.pad, outLen := t.outLen, phase := .done } ∧
      t.output := by
  obtain ⟨hp, hb, hcap, -, -⟩ := hcm
  obtain ⟨ws, hws, -⟩ := lookupAll_bytes hc hs hk
  have hbd := totalBits_bounds hb hc hs hk hws
  obtain ⟨-, -, -, hout⟩ := ho
  let tb := sumLengths ws
  let bytes := packBits (padBits (concatBits ws) (padOf tb)) ((tb + padOf tb) / 8)
  have hfit : bytes.length ≤ outCells s.params := by
    have hw : 1 ≤ 2 ^ s.params.freqW := Nat.one_le_two_pow
    have hlen : s.len ≤ 2 ^ s.params.freqW - 1 := by
      simp only [Params.wellFormed, Bool.and_eq_true, decide_eq_true_eq] at hp
      omega
    have hpad := padOf_le tb
    have : (tb + padOf tb) / 8 ≤ 32 * 2 ^ s.params.freqW := by
      have : tb ≤ 255 * s.len := hbd.2
      omega
    simpa [bytes, outCells, Nat.pow_add, Nat.mul_comm] using this
  obtain ⟨hl, hsnd⟩ := Memory.writeBytes_nil bytes
  refine ⟨{ s with outMem := Memory.writeBytes [] 0 bytes, totalBits := tb, pad := padOf tb, outLen := bytes.length,
                   phase := .done }, ?_, rfl, ws, hws, rfl, rfl, by simp [bytes], hl, ?_⟩
  · rw [bodyEnc, input?_eq hb, orRefuse_some, hws, orRefuse_some, State.writeOutput, if_pos hfit, hout]
  · show (Memory.writeBytes [] 0 bytes).map Prod.snd = _
    rw [hsnd]; simp [bytes]

end Sys2Proof.Machine
end

