-- ==== Sys2Proof/Laws/Decode.lean ====
section
/-! SUPPORT. Decoding in terms of the numbers `cmd / 256` and `cmd mod 256`: the fields of a word (R80), when each command is read
(R82), and the masks of the opcode map. -/

namespace Sys2Proof

theorem opField_toNat (cmd : Word) : (opField cmd).toNat = cmd.toNat / 256 := by
  have := cmd.isLt
  simp only [opField, BitVec.extractLsb'_toNat, Nat.shiftRight_eq_div_pow]
  omega

theorem argField_toNat (cmd : Word) : (argField cmd).toNat = cmd.toNat % 256 := by
  simp [argField, BitVec.extractLsb'_toNat]

theorem mkWord_toNat (op arg : Byte) : (mkWord op arg).toNat = op.toNat * 256 + arg.toNat := by
  have h1 := op.isLt
  have h2 := arg.isLt
  simp only [mkWord, BitVec.toNat_append, Nat.shiftLeft_eq]
  rw [← Nat.shiftLeft_eq, ← Nat.shiftLeft_add_eq_or_of_lt (by omega), Nat.shiftLeft_eq]

/-- A word is the command of its fields. -/
theorem mkWord_fields (cmd : Word) : mkWord (opField cmd) (argField cmd) = cmd := by
  apply BitVec.eq_of_toNat_eq
  rw [mkWord_toNat, opField_toNat, argField_toNat]
  omega

theorem argField_eq_zero (cmd : Word) : argField cmd = 0 ↔ cmd.toNat % 256 = 0 := by
  rw [← argField_toNat]
  exact ⟨fun h => by rw [h]; rfl, fun h => BitVec.eq_of_toNat_eq h⟩

theorem takesOperand_iff (cmd : Word) : takesOperand (opField cmd) = true ↔ cmd.toNat / 256 = 2 := by
  rw [← opField_toNat, takesOperand, beq_iff_eq]
  exact ⟨fun h => by rw [h]; rfl, fun h => BitVec.eq_of_toNat_eq h⟩

/-- A word decodes to a command exactly when its opcode stands for it and its operand is allowed (R81, R82). -/
theorem decode_eq_ok {cmd : Word} {i : Instr} :
    decode cmd = .ok i ↔ commandOf (opField cmd) (argField cmd) = some i ∧
      (cmd.toNat / 256 = 2 ∨ cmd.toNat % 256 = 0) := by
  unfold decode
  rw [← takesOperand_iff, ← argField_eq_zero]
  cases h : commandOf (opField cmd) (argField cmd) with
  | none => simp
  | some j =>
    by_cases hc : takesOperand (opField cmd) = true ∨ argField cmd = 0
    · show (if _ then _ else _) = _ ↔ _
      rw [if_pos hc]
      simp only [Except.ok.injEq, Option.some.injEq]; tauto
    · show (if _ then _ else _) = _ ↔ _
      rw [if_neg hc]
      simp only [reduceCtorEq, Option.some.injEq]; tauto

/-- The command of an opcode, by the opcode's number (R82). -/
theorem commandOf_eq_some {op arg : Byte} {i : Instr} : commandOf op arg = some i ↔
    (op.toNat = 0 ∧ i = .nop) ∨ (op.toNat = 1 ∧ i = .clr) ∨ (op.toNat = 2 ∧ i = .put arg) ∨ (op.toNat = 3 ∧ i = .cnt) ∨
    (op.toNat = 4 ∧ i = .bld) ∨ (op.toNat = 5 ∧ i = .asg) ∨ (op.toNat = 6 ∧ i = .enc) ∨ (op.toNat = 7 ∧ i = .run) := by
  unfold commandOf
  constructor
  · intro h
    split at h <;> simp_all
  · rintro (⟨h, rfl⟩ | ⟨h, rfl⟩ | ⟨h, rfl⟩ | ⟨h, rfl⟩ | ⟨h, rfl⟩ | ⟨h, rfl⟩ | ⟨h, rfl⟩ | ⟨h, rfl⟩) <;> rw [h] <;> rfl

/-- When a word decodes to each command (R82). -/
theorem decode_iff (cmd : Word) :
    (decode cmd = .ok .nop ↔ cmd.toNat = 0x0000) ∧ (decode cmd = .ok .clr ↔ cmd.toNat = 0x0100) ∧
    (∀ b, decode cmd = .ok (.put b) ↔ cmd.toNat / 256 = 2 ∧ b = argField cmd) ∧
    (decode cmd = .ok .cnt ↔ cmd.toNat = 0x0300) ∧ (decode cmd = .ok .bld ↔ cmd.toNat = 0x0400) ∧
    (decode cmd = .ok .asg ↔ cmd.toNat = 0x0500) ∧ (decode cmd = .ok .enc ↔ cmd.toNat = 0x0600) ∧
    (decode cmd = .ok .run ↔ cmd.toNat = 0x0700) := by
  simp only [decode_eq_ok, commandOf_eq_some, opField_toNat, reduceCtorEq, and_false, or_false, false_or, and_true,
    Instr.put.injEq]
  refine ⟨by omega, by omega, fun b => ?_, by omega, by omega, by omega, by omega, by omega⟩
  constructor
  · rintro ⟨⟨h, e⟩, -⟩; exact ⟨h, e⟩
  · rintro ⟨h, e⟩; exact ⟨⟨h, e⟩, .inl h⟩

/-- The words that decode to nothing (R83). -/
theorem decode_illegal_iff (cmd : Word) : (∀ i, decode cmd ≠ .ok i) ↔
    (8 ≤ cmd.toNat / 256 ∨ cmd.toNat / 256 ≠ 2 ∧ cmd.toNat % 256 ≠ 0) := by
  obtain ⟨h0, h1, h2, h3, h4, h5, h6, h7⟩ := decode_iff cmd
  constructor
  · intro h
    have := h .nop; have := h .clr; have := h (.put (argField cmd)); have := h .cnt
    have := h .bld; have := h .asg; have := h .enc; have := h .run
    simp only [ne_eq, h0, h1, h2, h3, h4, h5, h6, h7, and_true] at *
    omega
  · intro h i
    cases i <;> simp only [ne_eq, h0, h1, h2, h3, h4, h5, h6, h7] <;> omega

/-- The mask `0xFF00` leaves the opcode. -/
theorem and_high_byte (cmd : Word) : (cmd &&& 0xFF00).toNat = cmd.toNat / 256 * 256 := by
  have h1 : (0xFF00 : Nat) = (2 ^ 8 - 1) * 2 ^ 8 := rfl
  have h2 := cmd.isLt
  rw [BitVec.toNat_and, show (0xFF00 : Word).toNat = 0xFF00 from rfl]
  refine Nat.eq_of_testBit_eq fun k => ?_
  rw [show cmd.toNat / 256 * 256 = 2 ^ 8 * (cmd.toNat / 2 ^ 8) by omega, Nat.testBit_two_pow_mul, Nat.testBit_and,
    show (0xFF00 : Nat) = 2 ^ 8 * (2 ^ 8 - 1) from rfl, Nat.testBit_two_pow_mul, Nat.testBit_two_pow_sub_one,
    Nat.testBit_div_two_pow]
  by_cases hk : 8 ≤ k
  · by_cases hk2 : k - 8 < 8
    · simp [hk, hk2]
    · have : cmd.toNat.testBit k = false := Nat.testBit_lt_two_pow (Nat.lt_of_lt_of_le h2 (Nat.pow_le_pow_right (by omega) (by omega)))
      simp [hk, this, Nat.sub_add_cancel hk]
  · simp [hk]

/-- The mask `0xFFFF` leaves the whole word. -/
theorem and_all (cmd : Word) : cmd &&& 0xFFFF = cmd := by
  have : (0xFFFF : Word) = BitVec.allOnes 16 := by decide
  rw [this, BitVec.and_allOnes]

theorem encode_toNat (i : Instr) : (encode i).toNat =
    match i with
    | .nop => 0x0000 | .clr => 0x0100 | .put b => 0x0200 + b.toNat | .cnt => 0x0300 | .bld => 0x0400 | .asg => 0x0500
    | .enc => 0x0600 | .run => 0x0700 := by
  cases i with
  | put b => rw [encode, mkWord_toNat]; rfl
  | _ => rfl

end Sys2Proof
end

