-- ==== Sys2Proof/Laws/Exec.lean ====
section
/-! SUPPORT. Everything a command can do, from any state at all: the cases of dispatch (R101), and one lemma for `RUN` that joins
the frames of its four stages (R108). -/

namespace Sys2Proof.Machine

/-- The cases of a command that answers a next state (R101). -/
theorem exec_next_cases {i : Instr} {s t : State} (h : exec i s = .next t) :
    (i = .clr ∧ t = s.clear) ∨
    (i ≠ .clr ∧ s.phase = .fault ∧ t = s) ∨
    (i ≠ .clr ∧ s.phase ≠ .fault ∧ allowed i s.phase = false ∧ t = s.raise .badSequence) ∨
    (i ≠ .clr ∧ s.phase ≠ .fault ∧ allowed i s.phase = true ∧ body i s = .next t) := by
  by_cases hc : i = .clr
  · subst hc; cases h; exact .inl ⟨rfl, rfl⟩
  · rw [exec_eq_dispatch hc] at h
    rcases dispatch_cases i (body i) s with ⟨hp, e⟩ | ⟨hp, ha, e⟩ | ⟨hp, ha, e⟩ <;> rw [e] at h
    · cases h; exact .inr (.inl ⟨hc, hp, rfl⟩)
    · cases h; exact .inr (.inr (.inl ⟨hc, hp, ha, rfl⟩))
    · exact .inr (.inr (.inr ⟨hc, hp, ha, h⟩))

/-- A command that is allowed runs its own rule (R101 step 4). -/
theorem exec_allowed {i : Instr} {s : State} (hp : s.phase ≠ .fault) (ha : allowed i s.phase = true) : exec i s = body i s := by
  by_cases hc : i = .clr
  · subst hc; rfl
  · rw [exec_eq_dispatch hc, dispatch_allowed _ hp ha]

/-- A command that is not allowed raises `BAD_SEQUENCE` (R101 step 3). -/
theorem exec_notAllowed {i : Instr} {s : State} (hp : s.phase ≠ .fault) (ha : allowed i s.phase = false) :
    exec i s = .next (s.raise .badSequence) := by
  have hc : i ≠ .clr := by rintro rfl; simp [allowed] at ha
  rw [exec_eq_dispatch hc, dispatch_notAllowed _ hp ha]

/-- In phase `FAULT` every command but `CLR` is ignored (R101 step 1). -/
theorem exec_fault {i : Instr} {s : State} (hp : s.phase = .fault) (hc : i ≠ .clr) : exec i s = .next s := by
  rw [exec_eq_dispatch hc, dispatch_fault _ _ hp]

theorem length_readRange {read : Nat → Option Byte} {n a : Nat} {bs : List Byte} (h : readRange read a n = some bs) :
    bs.length = n := by
  induction n generalizing a bs with
  | zero => simp only [readRange, Option.some.injEq] at h; subst h; rfl
  | succ n ih =>
    unfold readRange at h
    split at h
    · rename_i b cs _ hcs
      obtain rfl := Option.some.inj h
      simp [ih hcs]
    · cases h

/-- Input that is not empty has a symbol, so after `CNT` the check of `BLD` cannot fire (R146). -/
theorem countSymbols_pos {m : SparseMap Nat} {bs : List Byte} (h : bs ≠ []) : countSymbols (countBytes m bs) ≠ 0 := by
  obtain ⟨b, bs', rfl⟩ := List.exists_cons_of_ne_nil h
  intro h0
  have := List.countP_eq_zero.1 h0 b (mem_allSymbols b)
  rw [freqIn_countBytes] at this
  simp at this

/-- All that `RUN`'s rule can do: `EMPTY_INPUT` with nothing written, or the writes of the four stages (R108). -/
theorem bodyRun_frame {s t : State} (h : bodyRun s = .next t) :
    (s.len = 0 ∧ t = s.raise .emptyInput) ∨
    (s.len ≠ 0 ∧ ∃ bytes : List Byte, t = { s with
      freq := t.freq, nsym := t.nsym, node := t.node, nnode := t.nnode, root := t.root, mq := t.mq, nseq := t.nseq,
      crom := t.crom, outMem := Memory.writeBytes s.outMem 0 bytes, totalBits := t.totalBits, pad := t.pad,
      outLen := bytes.length, phase := .done }) := by
  have hcnt : ∀ a, bodyCnt s = .next a → a.phase ≠ .fault →
      s.len ≠ 0 ∧ a = { s with freq := a.freq, nsym := a.nsym, phase := .counted } ∧ a.nsym ≠ 0 := by
    intro a ha hp
    rcases bodyCnt_cases ha with ⟨-, rfl⟩ | ⟨hl, bytes, hb, rfl⟩
    · exact absurd rfl hp
    · refine ⟨hl, rfl, countSymbols_pos ?_⟩
      rintro rfl
      exact hl (length_readRange hb).symm
  rcases bodyRun_cases h with ⟨ha, hp⟩ | ⟨a, ha, hpa, hb, hp⟩ | ⟨a, b, c, ha, hpa, hb, hpb, hc, hd⟩
  · rcases bodyCnt_cases ha with ⟨hl, e⟩ | ⟨-, _, -, e⟩
    · exact .inl ⟨hl, e⟩
    · rw [e] at hp; cases hp
  · obtain ⟨-, -, hn⟩ := hcnt a ha hpa
    rcases bodyBld_cases hb with ⟨h0, -⟩ | ⟨-, e⟩
    · exact absurd h0 hn
    · rw [e] at hp; cases hp
  · obtain ⟨hl, ea, hn⟩ := hcnt a ha hpa
    rcases bodyBld_cases hb with ⟨h0, -⟩ | ⟨-, eb⟩
    · exact absurd h0 hn
    · have ec := (bodyAsg_cases hc).1
      obtain ⟨bytes, ed⟩ := bodyEnc_cases hd
      refine .inr ⟨hl, bytes, ?_⟩
      rw [ed, ec, eb, ea]

end Sys2Proof.Machine
end

