-- ==== Sys2Proof/Laws/Serializer.lean ====
section
/-! SUPPORT. The host-side functions: numerals, the parser on rendered trees (R214), the arena's tree, and decoding a codeword by
the walk of R215. -/

namespace Sys2Proof.Machine

/-! ### Numerals (R210) -/

theorem dec_digits (n : Nat) (h : n < 256) :
    (dec n).all isDigit = true ∧ digitsValue (dec n) = n ∧ dec n ≠ [] := by
  have : ∀ i : Fin 256, (dec i).all isDigit = true ∧ digitsValue (dec i) = i ∧ dec i ≠ [] := by decide +kernel
  exact this ⟨n, h⟩

theorem takeDigits_append {ds rest : List Char} (h : ds.all isDigit = true)
    (hr : ∀ c ∈ rest.head?, isDigit c = false) : takeDigits (ds ++ rest) = (ds, rest) := by
  induction ds with
  | nil =>
    cases rest with
    | nil => rfl
    | cons c cs => simp [takeDigits, hr c (by simp)]
  | cons d ds ih =>
    simp only [List.all_cons, Bool.and_eq_true] at h
    simp [takeDigits, h.1, ih h.2]

/-! ### The parser inverts the renderer (R214) -/

theorem parseAt_text (t : Tree) (k : Nat) (rest : List Char) (hk : t.text.length ≤ k)
    (hr : ∀ c ∈ rest.head?, isDigit c = false) : parseAt k (t.text ++ rest) = some (t, rest) := by
  induction t generalizing k rest with
  | leaf b =>
    obtain ⟨h1, h2, h3⟩ := dec_digits b.toNat b.isLt
    simp only [Tree.text] at hk ⊢
    obtain ⟨d, ds, hd⟩ := List.exists_cons_of_ne_nil h3
    obtain ⟨k, rfl⟩ : ∃ j, k = j + 1 := ⟨k - 1, by rw [hd] at hk; simp at hk; omega⟩
    have hdig : isDigit d = true := by rw [hd] at h1; simp at h1; exact h1.1
    have htake := takeDigits_append (rest := rest) h1 hr
    rw [hd] at htake ⊢
    rw [List.cons_append] at htake ⊢
    have hle : b.toNat ≤ 255 := by have := b.isLt; omega
    simp only [parseAt, hdig, if_true, htake]
    rw [← hd, h2, if_pos hle]
    simp
  | node2 l r ihl ihr =>
    simp only [Tree.text, List.length_cons, List.length_append, List.length_nil] at hk ⊢
    obtain ⟨k, rfl⟩ : ∃ j, k = j + 1 := ⟨k - 1, by omega⟩
    have e : '(' :: (l.text ++ ' ' :: (r.text ++ [')'])) ++ rest = '(' :: (l.text ++ (' ' :: (r.text ++ (')' :: rest)))) := by
      simp
    rw [e]
    have h1 := ihl k (' ' :: (r.text ++ (')' :: rest))) (by omega) (by simp; decide)
    have h2 := ihr k (')' :: rest) (by omega) (by simp; decide)
    have hp : isDigit '(' = false := by decide
    simp only [parseAt, hp, Bool.false_eq_true, if_false, if_true, h1, h2]
  | node1 c ih =>
    simp only [Tree.text, List.length_cons, List.length_append, List.length_nil] at hk ⊢
    obtain ⟨k, rfl⟩ : ∃ j, k = j + 1 := ⟨k - 1, by omega⟩
    have e : '(' :: (c.text ++ [')']) ++ rest = '(' :: (c.text ++ (')' :: rest)) := by simp
    rw [e]
    have h1 := ih k (')' :: rest) (by omega) (by simp; decide)
    have hp : isDigit '(' = false := by decide
    simp only [parseAt, hp, Bool.false_eq_true, if_false, if_true, h1]

/-! ### The arena's tree (R206, R214) -/

theorem treeTextIn_eq (f : Nat → Option Node) (k i : Nat) : treeTextIn f k i = (treeIn f k i).map Tree.text := by
  induction k generalizing i with
  | zero => rfl
  | succ k ih =>
    simp only [treeTextIn, treeIn]
    cases f i with
    | none => rfl
    | some n =>
      simp only
      split
      · rfl
      · rw [ih, ih]
        cases treeIn f k n.left <;> cases treeIn f k n.right <;> rfl

/-- In a finished arena every entry has its tree, with no one-child node in it, and the number of turns beyond the entry's index
does not matter. -/
theorem treeIn_spec {s : State} (ht : TreeFacts s) :
    ∀ i, i < s.nnode → ∃ t, t.isFull = true ∧ ∀ k, i < k → treeIn s.nodeAt k i = some t := by
  intro i
  induction i using Nat.strong_induction_on with
  | _ i ih =>
    intro hi
    obtain ⟨n, hn⟩ := nodeAt_isSome ht.listed hi
    cases hl : n.leaf with
    | true =>
      refine ⟨.leaf n.sym, rfl, fun k hk => ?_⟩
      obtain ⟨k, rfl⟩ : ∃ j, k = j + 1 := ⟨k - 1, by omega⟩
      simp [treeIn, hn, hl]
    | false =>
      have hk : s.kids i = [n.right, n.left] := by simp [State.kids, hn, hl]
      have h1 := ht.below i n.left (by rw [hk]; simp)
      have h2 := ht.below i n.right (by rw [hk]; simp)
      obtain ⟨tl, fl, el⟩ := ih n.left h1 (by omega)
      obtain ⟨tr, fr, er⟩ := ih n.right h2 (by omega)
      refine ⟨.node2 tl tr, by simp [Tree.isFull, fl, fr], fun k hk => ?_⟩
      obtain ⟨k, rfl⟩ : ∃ j, k = j + 1 := ⟨k - 1, by omega⟩
      simp [treeIn, hn, hl, el k (by omega), er k (by omega)]

/-- The tree under an internal entry is made of the trees under its children. -/
theorem tree_internal {s : State} (ht : TreeFacts s) {i : Nat} {n : Node} (hn : s.nodeAt i = some n)
    (hl : n.leaf = false) : ∃ l r, s.tree n.left = some l ∧ s.tree n.right = some r ∧ s.tree i = some (.node2 l r) := by
  have hi := nodeAt_lt hn
  have hk : s.kids i = [n.right, n.left] := by simp [State.kids, hn, hl]
  have h1 := ht.below i n.left (by rw [hk]; simp)
  have h2 := ht.below i n.right (by rw [hk]; simp)
  obtain ⟨tl, -, el⟩ := treeIn_spec ht n.left (by omega)
  obtain ⟨tr, -, er⟩ := treeIn_spec ht n.right (by omega)
  exact ⟨tl, tr, el _ (by omega), er _ (by omega), by simp [State.tree, treeIn, hn, hl, el i h1, er i h2]⟩

theorem tree_leaf {s : State} {i : Nat} {n : Node} (hn : s.nodeAt i = some n) (hl : n.leaf = true) :
    s.tree i = some (.leaf n.sym) := by
  simp [State.tree, treeIn, hn, hl]

/-! ### Codewords are paths (R167), and the walk decodes them (R215) -/

/-- The subtree that a string of edge bits leads to: right on `1`, left on `0`. -/
def Tree.follow : Tree → List Bool → Option Tree
  | t, [] => some t
  | .node2 l r, b :: bs => (if b then r else l).follow bs
  | _, _ :: _ => none

theorem follow_append {t u : Tree} {bs : List Bool} (h : t.follow bs = some u) (cs : List Bool) :
    t.follow (bs ++ cs) = u.follow cs := by
  induction bs generalizing t with
  | nil => simp only [Tree.follow, Option.some.injEq] at h; subst h; rfl
  | cons b bs ih =>
    cases t with
    | leaf _ => simp [Tree.follow] at h
    | node1 _ => simp [Tree.follow] at h
    | node2 l r => exact ih h

/-- The codeword of every entry leads from the root to its tree, below an internal root (R167). -/
theorem follow_label {s : State} (hs : s.hasTree) (hn : 2 ≤ s.nsym) (hle : s.nsym ≤ 256) (hc : s.codes) {root : Tree}
    (hroot : s.tree s.root = some root) :
    ∀ d i n l, s.nnode ≤ i + d → s.nodeAt i = some n → n.label = some l → ∃ t, s.tree i = some t ∧
      root.follow l.word.bits = some t := by
  have ht := treeFacts_of_hasTree hs (by omega)
  have hrt := ht.root
  intro d
  induction d with
  | zero => intro i n l hd hi; have := nodeAt_lt hi; omega
  | succ d ih =>
    intro i n l hd hi hl
    have hlt := nodeAt_lt hi
    by_cases hir : i = s.root
    · subst hir
      have hw := hc.2.1
      rw [State.labelAt, hi, Option.bind_some, hl, Option.map_some] at hw
      obtain rfl := Option.some.inj hw
      have hleaf : n.leaf = false := by
        cases hlf : n.leaf with
        | false => rfl
        | true =>
          obtain ⟨-, -, h3, -⟩ := label_bounds hs (by omega) hc s.nnode s.root n _ (by omega) hi hl
          rw [if_neg (by omega)] at h3
          simp [rootLabel, hlf] at h3
      exact ⟨root, hroot, by simp [rootLabel, hleaf, Tree.follow]⟩
    · have hmem : i ∈ (List.range s.nnode).flatMap s.kids := ht.parents.mem_iff.2 (List.mem_range.2 (by omega))
      obtain ⟨p, hp, hpi⟩ := List.mem_flatMap.1 hmem
      have hpl := ht.below p i hpi
      obtain ⟨m, hm⟩ := nodeAt_isSome ht.listed (List.mem_range.1 hp)
      have hmleaf : m.leaf = false := by
        cases hml : m.leaf with
        | false => rfl
        | true => simp [State.kids, hm, hml] at hpi
      simp only [State.kids, hm, hmleaf, Bool.false_eq_true, if_false, List.mem_cons, List.not_mem_nil, or_false] at hpi
      obtain ⟨k1, k2⟩ := hc.2.2.1 (p, m) ((mem_node_iff ht.listed).2 hm) hmleaf
      have hmlab : m.label ≠ none := hc.1 (p, m) ((mem_node_iff ht.listed).2 hm)
      obtain ⟨lm, hlm⟩ := Option.ne_none_iff_exists'.1 hmlab
      obtain ⟨tp, htp, hfp⟩ := ih p m lm (by omega) hm hlm
      obtain ⟨tl, tr, el, er, ep⟩ := tree_internal ht hm hmleaf
      rw [htp] at ep
      obtain rfl := Option.some.inj ep
      have hb := label_bounds hs (by omega) hc s.nnode i n l (by omega) hi hl
      have hb1 := hb.2.1
      have hb2 := hb.2.2.1
      rw [if_neg (by omega)] at hb2
      have hlab : s.labelAt i = some l := by rw [State.labelAt, hi, Option.bind_some, hl]
      simp only at k1 k2
      have hstep : ∀ b, l = lm.child b → root.follow l.word.bits = some (if b then tr else tl) := by
        rintro b rfl
        have hlen : lm.word.clen < 255 := by simp only [PathLabel.child, append_clen] at hb1 hb2; omega
        rw [PathLabel.child, bits_append _ _ hlen, follow_append hfp]
        rfl
      rcases hpi with rfl | rfl
      · rw [hlab, hlm] at k1
        exact ⟨tr, er, hstep true (by simpa using k1)⟩
      · rw [hlab, hlm] at k2
        exact ⟨tl, el, hstep false (by simpa using k2)⟩

/-- Walking a path to a leaf puts out the leaf's symbol and goes on at the root (R215). -/
theorem walk_path {root : Tree} {c : Byte} (cs : List Bool) :
    ∀ (bs : List Bool) (t : Tree), bs ≠ [] → t.follow bs = some (.leaf c) →
      walk root t (bs ++ cs) = (walk root root cs).map (c :: ·) := by
  intro bs
  induction bs with
  | nil => intro t h; exact absurd rfl h
  | cons b bs ih =>
    intro t _ h
    cases t with
    | leaf _ => simp [Tree.follow] at h
    | node1 _ => simp [Tree.follow] at h
    | node2 l r =>
      simp only [Tree.follow] at h
      simp only [List.cons_append, walk]
      cases hb : (if b then r else l) with
      | leaf d =>
        rw [hb] at h
        cases bs with
        | nil => simp only [Tree.follow, Option.some.injEq, Tree.leaf.injEq] at h; subst h; rfl
        | cons _ _ => simp [Tree.follow] at h
      | node2 l' r' =>
        rw [hb] at h
        cases bs with
        | nil => simp [Tree.follow] at h
        | cons _ _ => exact ih _ (by simp) h
      | node1 c' =>
        rw [hb] at h
        cases bs with
        | nil => simp [Tree.follow] at h
        | cons _ _ => simp [Tree.follow] at h

/-- The walk decodes a string of codewords, each the path of its symbol (R193 (d), R215). -/
theorem walk_words {root : Tree} {rom : Byte → Option Codeword}
    (h : ∀ b w, rom b = some w → w.bits ≠ [] ∧ root.follow w.bits = some (.leaf b)) :
    ∀ {bs : List Byte} {ws : List Codeword}, lookupAll rom bs = some ws → walk root root (concatBits ws) = some bs := by
  intro bs
  induction bs with
  | nil => intro ws hws; simp [lookupAll] at hws; subst hws; simp [concatBits, walk]
  | cons b bs ih =>
    intro ws hws
    unfold lookupAll at hws
    split at hws
    · rename_i w vs h1 h2
      obtain rfl := Option.some.inj hws
      obtain ⟨hne, hf⟩ := h b w h1
      have : concatBits (w :: vs) = w.bits ++ concatBits vs := rfl
      rw [this, walk_path _ _ _ hne hf, ih h2]; rfl
    · cases hws

/-- No leaf's path is the beginning of another's (R171). -/
theorem follow_leaf_prefix {root : Tree} {b c : Byte} {u v : List Bool} (hu : root.follow u = some (.leaf b))
    (hv : root.follow v = some (.leaf c)) (h : u <+: v) : u = v ∧ b = c := by
  obtain ⟨w, rfl⟩ := h
  rw [follow_append hu] at hv
  cases w with
  | nil => simp only [Tree.follow, Option.some.injEq, Tree.leaf.injEq] at hv; simp [hv]
  | cons _ _ => simp [Tree.follow] at hv

/-- The codewords of the ROM are the paths to their leaves, with two symbols or more (R167, R172). -/
theorem rom_follow {s : State} (hs : s.hasTree) (hn : 2 ≤ s.nsym) (hle : s.nsym ≤ 256) (hc : s.codes) {root : Tree}
    (hroot : s.tree s.root = some root) {b : Byte} {w : Codeword} (h : s.romAt b = some w) :
    w.bits ≠ [] ∧ root.follow w.bits = some (.leaf b) := by
  have hpos := (rom_clen hs (by omega) hle hc h).1
  obtain ⟨i, n, l, hi, hleaf, hsym, hl, rfl⟩ := romAt_eq_some hs hc h
  obtain ⟨t, ht, hf⟩ := follow_label hs hn hle hc hroot s.nnode i n l (by omega) hi hl
  rw [tree_leaf hi hleaf, hsym] at ht
  obtain rfl := Option.some.inj ht
  refine ⟨fun e => ?_, hf⟩
  have := bits_length l.word
  rw [e] at this
  simp at this
  omega

/-! ### Every path is a codeword (R171) -/

/-- The ROM holds every leaf's codeword under its symbol (R172). -/
theorem romAt_leaf {s : State} (hs : s.hasTree) (hc : s.codes) {c : Nat × Node} (hcm : c ∈ s.node.take s.nsym) {l : PathLabel}
    (hl : c.2.label = some l) : s.romAt c.2.sym = some l.word := by
  have hmem : (c.2.sym.toNat, some l.word) ∈ s.crom.map fun c => (c.1, some c.2) := by
    rw [hc.2.2.2]
    exact List.mem_map.2 ⟨c, hcm, by rw [hl]; rfl⟩
  obtain ⟨d, hd, e⟩ := List.mem_map.1 hmem
  obtain ⟨e1, e2⟩ := Prod.ext_iff.1 e
  simp only [Option.some.injEq] at e1 e2
  rw [State.romAt, ← e1, lookup_of_mem (crom_wf hs hc) hd, e2]

/-- A path from an entry's tree leads to an entry whose codeword is the path's extension (R167). -/
theorem follow_node {s : State} (hs : s.hasTree) (hn : 2 ≤ s.nsym) (hle : s.nsym ≤ 256) (hc : s.codes) {t : Tree} :
    ∀ (p : List Bool) (i : Nat) (n : Node) (l : PathLabel) (u : Tree), s.nodeAt i = some n → n.label = some l →
      s.tree i = some u → u.follow p = some t →
      ∃ j m k, s.nodeAt j = some m ∧ m.label = some k ∧ s.tree j = some t ∧ k.word.bits = l.word.bits ++ p := by
  have ht := treeFacts_of_hasTree hs (by omega)
  intro p
  induction p with
  | nil =>
    intro i n l u hi hl hu hf
    simp only [Tree.follow, Option.some.injEq] at hf
    subst hf
    exact ⟨i, n, l, hi, hl, hu, by simp⟩
  | cons b p ih =>
    intro i n l u hi hl hu hf
    cases hleaf : n.leaf with
    | true =>
      rw [tree_leaf hi hleaf] at hu
      obtain rfl := Option.some.inj hu
      simp [Tree.follow] at hf
    | false =>
      obtain ⟨tl, tr, el, er, ei⟩ := tree_internal ht hi hleaf
      rw [hu] at ei
      obtain rfl := Option.some.inj ei
      obtain ⟨k1, k2⟩ := hc.2.2.1 (i, n) ((mem_node_iff ht.listed).2 hi) hleaf
      simp only [hl, Option.map_some] at k1 k2
      have hbits : ∀ j m, s.nodeAt j = some m → m.label = some (l.child b) →
          (l.child b).word.bits = l.word.bits ++ [b] := by
        intro j m hj hm
        obtain ⟨-, h2, h3, -⟩ := label_bounds hs (by omega) hc s.nnode j m _ (by omega) hj hm
        rw [if_neg (by omega)] at h3
        exact bits_append _ _ (by simp only [PathLabel.child, append_clen] at h2 h3; omega)
      cases b with
      | true =>
        obtain ⟨m, hm, hml⟩ : ∃ m, s.nodeAt n.right = some m ∧ m.label = some (l.child true) := by
          rw [State.labelAt] at k1
          cases h : s.nodeAt n.right with
          | none => rw [h] at k1; cases k1
          | some m => rw [h] at k1; exact ⟨m, rfl, k1⟩
        obtain ⟨j, m', k, h1, h2, h3, h4⟩ := ih n.right m _ tr hm hml er hf
        exact ⟨j, m', k, h1, h2, h3, by rw [h4, hbits _ m hm hml]; simp⟩
      | false =>
        obtain ⟨m, hm, hml⟩ : ∃ m, s.nodeAt n.left = some m ∧ m.label = some (l.child false) := by
          rw [State.labelAt] at k2
          cases h : s.nodeAt n.left with
          | none => rw [h] at k2; cases k2
          | some m => rw [h] at k2; exact ⟨m, rfl, k2⟩
        obtain ⟨j, m', k, h1, h2, h3, h4⟩ := ih n.left m _ tl hm hml el hf
        exact ⟨j, m', k, h1, h2, h3, by rw [h4, hbits _ m hm hml]; simp⟩

/-- Every infinite bit sequence passes a leaf of a tree without one-child nodes. -/
theorem exists_leaf_path {t : Tree} (h : t.isFull = true) (f : Nat → Bool) :
    ∃ k b, t.follow ((List.range k).map f) = some (.leaf b) := by
  induction t generalizing f with
  | leaf b => exact ⟨0, b, rfl⟩
  | node1 c ih => simp [Tree.isFull] at h
  | node2 l r ihl ihr =>
    simp only [Tree.isFull, Bool.and_eq_true] at h
    have hshift : ∀ (u : Tree) k b, u.follow ((List.range k).map fun n => f (n + 1)) = some (.leaf b) →
        (if f 0 then r else l) = u → (Tree.node2 l r).follow ((List.range (k + 1)).map f) = some (.leaf b) := by
      intro u k b hu e
      rw [List.range_succ_eq_map, List.map_cons, List.map_map, Tree.follow, e]
      exact hu
    cases hf : f 0 with
    | true =>
      obtain ⟨k, b, hk⟩ := ihr h.2 fun n => f (n + 1)
      exact ⟨k + 1, b, hshift r k b hk (by simp [hf])⟩
    | false =>
      obtain ⟨k, b, hk⟩ := ihl h.1 fun n => f (n + 1)
      exact ⟨k + 1, b, hshift l k b hk (by simp [hf])⟩

/-- Every infinite bit sequence begins with the codeword of some occurring symbol, with two symbols or more (R171). -/
theorem exists_codeword {s : State} (hs : s.hasTree) (hn : 2 ≤ s.nsym) (hle : s.nsym ≤ 256) (hc : s.codes) (f : Nat → Bool) :
    ∃ b w, s.romAt b = some w ∧ b ∈ s.occurring ∧ w.bits = (List.range w.clen).map f := by
  have ht := treeFacts_of_hasTree hs (by omega)
  have hr := ht.root
  obtain ⟨n, hn'⟩ := nodeAt_isSome ht.listed (i := s.root) (by omega)
  obtain ⟨root, hfull, hroot⟩ := treeIn_spec ht s.root (by omega)
  have htree : s.tree s.root = some root := hroot _ (Nat.lt_succ_self _)
  obtain ⟨k, b, hk⟩ := exists_leaf_path hfull f
  have hlab := hc.2.1
  rw [State.labelAt, hn', Option.bind_some, Option.map_some] at hlab
  obtain ⟨j, m, lj, h1, h2, h3, h4⟩ := follow_node hs hn hle hc _ s.root n _ root hn' hlab htree hk
  have hinner : n.leaf = false := by
    cases hlf : n.leaf with
    | false => rfl
    | true =>
      obtain ⟨-, -, b3, -⟩ := label_bounds hs (by omega) hc s.nnode s.root n _ (by omega) hn' hlab
      rw [if_neg (by omega)] at b3
      simp [rootLabel, hlf] at b3
  have hempty : (rootLabel n).word.bits = [] := by simp [rootLabel, hinner]
  rw [hempty, List.nil_append] at h4
  have hmleaf : m.leaf = true := by
    cases hml : m.leaf with
    | true => rfl
    | false =>
      obtain ⟨_, _, -, -, e⟩ := tree_internal ht h1 hml
      rw [h3] at e; cases e
  have hsym : m.sym = b := by
    rw [tree_leaf h1 hmleaf] at h3
    simpa using h3
  have hmem := (mem_node_iff hs.1 (c := (j, m))).2 h1
  have htake : (j, m) ∈ s.node.take s.nsym := by
    rw [← List.take_append_drop s.nsym s.node] at hmem
    rcases List.mem_append.1 hmem with h | h
    · exact h
    · have := (hs.2.2.2.2.2.1 _ h).1
      simp only at this
      rw [hmleaf] at this; cases this
  have hrom := romAt_leaf hs hc htake h2
  simp only [hsym] at hrom
  have hb := (take_leaf hs htake).2.1
  simp only [hsym] at hb
  refine ⟨b, lj.word, hrom, hb, ?_⟩
  have hlen := bits_length lj.word
  rw [h4] at hlen ⊢
  simp only [List.length_map, List.length_range] at hlen
  rw [hlen]

end Sys2Proof.Machine
end

