-- ==== Sys2Proof/Laws/Huffman.lean ====
section
/-! SUPPORT. Why the greedy merge is optimal (R154): the exchange argument on weights with codeword lengths that satisfy Kraft's
inequality, the cost of the tree as the sum of its internal weights, and Kraft's inequality for prefix-free codes. -/

namespace Sys2Proof.Machine

/-! ### Weights with lengths -/

/-- Weighted length of a list of pairs (weight, length). -/
def cost (P : List (Nat × Nat)) : Nat := (P.map fun p => p.1 * p.2).sum

/-- Kraft's sum with all lengths at most `M`, times `2^M`. -/
def kraftSum (M : Nat) (P : List (Nat × Nat)) : Nat := (P.map fun p => 2 ^ (M - p.2)).sum

/-- Kraft's inequality, cleared of fractions by a bound `M` on the lengths. -/
def Kraft (M : Nat) (P : List (Nat × Nat)) : Prop := (∀ p ∈ P, p.2 ≤ M) ∧ kraftSum M P ≤ 2 ^ M

@[simp] theorem cost_cons (p : Nat × Nat) (P : List (Nat × Nat)) : cost (p :: P) = p.1 * p.2 + cost P := by simp [cost]

@[simp] theorem kraftSum_cons (M : Nat) (p : Nat × Nat) (P : List (Nat × Nat)) :
    kraftSum M (p :: P) = 2 ^ (M - p.2) + kraftSum M P := by simp [kraftSum]

theorem cost_perm {P Q : List (Nat × Nat)} (h : P.Perm Q) : cost P = cost Q := (h.map _).sum_eq

theorem kraftSum_perm {P Q : List (Nat × Nat)} (h : P.Perm Q) (M : Nat) : kraftSum M P = kraftSum M Q :=
  (h.map _).sum_eq

theorem Kraft.perm {P Q : List (Nat × Nat)} {M : Nat} (h : P.Perm Q) (hk : Kraft M P) : Kraft M Q :=
  ⟨fun p hp => hk.1 p (h.mem_iff.2 hp), by rw [← kraftSum_perm h]; exact hk.2⟩

/-- The bound may be lowered to any bound of the lengths. -/
theorem Kraft.lower {P : List (Nat × Nat)} {M L : Nat} (hk : Kraft M P) (hL : ∀ p ∈ P, p.2 ≤ L) (hLM : L ≤ M) :
    Kraft L P := by
  refine ⟨hL, ?_⟩
  have : kraftSum M P = 2 ^ (M - L) * kraftSum L P := by
    clear hk
    induction P with
    | nil => simp [kraftSum]
    | cons p P ih =>
      have hp := hL p (by simp)
      rw [kraftSum_cons, kraftSum_cons, ih fun q hq => hL q (List.mem_cons_of_mem _ hq), Nat.mul_add, ← Nat.pow_add]
      congr 2; omega
  have h2 : 2 ^ M = 2 ^ (M - L) * 2 ^ L := by rw [← Nat.pow_add]; congr 1; omega
  have h1 := hk.2
  rw [this, h2] at h1
  exact Nat.le_of_mul_le_mul_left h1 (Nat.two_pow_pos _)

theorem le_sum_of_mem {l : List Nat} {a : Nat} (h : a ∈ l) : a ≤ l.sum := by
  induction l with
  | nil => simp at h
  | cons b l ih =>
    rw [List.sum_cons]
    rcases List.mem_cons.1 h with rfl | h
    · omega
    · have := ih h; omega

/-! ### Exchange -/

/-- A pair list with a pair of weight `w` splits it off. -/
theorem exists_perm_of_weight {P : List (Nat × Nat)} {w : Nat} (h : w ∈ P.map Prod.fst) :
    ∃ k Q, P.Perm ((w, k) :: Q) := by
  obtain ⟨p, hp, rfl⟩ := List.mem_map.1 h
  exact ⟨p.2, P.erase p, List.perm_cons_erase hp⟩

/-- The least weight may be given the greatest length (the exchange): the cost does not rise, and the lengths are the same. -/
theorem exchange {P : List (Nat × Nat)} {L w : Nat} {ws : List Nat} (hL : ∀ p ∈ P, p.2 ≤ L) (hx : ∃ x, (x, L) ∈ P)
    (hw : (P.map Prod.fst).Perm (w :: ws)) (hmin : ∀ v ∈ ws, w ≤ v) :
    ∃ Q, (Q.map Prod.fst).Perm ws ∧ (P.map Prod.snd).Perm (L :: Q.map Prod.snd) ∧ w * L + cost Q ≤ cost P := by
  obtain ⟨x, hx⟩ := hx
  have hP : P.Perm ((x, L) :: P.erase (x, L)) := List.perm_cons_erase hx
  set R := P.erase (x, L) with hR
  have hRL : ∀ p ∈ R, p.2 ≤ L := fun p hp => hL p (List.mem_of_mem_erase hp)
  have hmap := (hP.map Prod.fst).symm.trans hw
  simp only [List.map_cons] at hmap
  by_cases hxw : x = w
  · subst hxw
    refine ⟨R, (List.perm_cons _).1 hmap, by simpa using hP.map Prod.snd, ?_⟩
    rw [cost_perm hP, cost_cons]
  · have hmem : w ∈ R.map Prod.fst := by
      have := hmap.mem_iff.2 (show w ∈ w :: ws by simp)
      rcases List.mem_cons.1 this with e | e
      · exact absurd e.symm hxw
      · exact e
    have hxws : x ∈ ws := by
      have := hmap.mem_iff.1 (show x ∈ x :: R.map Prod.fst by simp)
      rcases List.mem_cons.1 this with e | e
      · exact absurd e hxw
      · exact e
    obtain ⟨k, Q, hQ⟩ := exists_perm_of_weight hmem
    have hk : k ≤ L := hRL (w, k) (hQ.mem_iff.2 (by simp))
    refine ⟨(x, k) :: Q, ?_, ?_, ?_⟩
    · have h1 : (x :: w :: Q.map Prod.fst).Perm (w :: ws) := by
        have := ((hQ.map Prod.fst).cons x).symm.trans hmap
        simpa using this
      exact (List.perm_cons _).1 ((List.Perm.swap x w _).trans h1)
    · have := (hP.map Prod.snd).trans ((hQ.map Prod.snd).cons L)
      simpa using this
    · have e1 : cost P = x * L + (w * k + cost Q) := by rw [cost_perm hP, cost_cons, cost_perm hQ, cost_cons]
      have hwx := hmin x hxws
      obtain ⟨d, rfl⟩ := Nat.exists_eq_add_of_le hwx
      obtain ⟨e, rfl⟩ := Nat.exists_eq_add_of_le hk
      rw [e1, cost_cons]
      have h0 : (w + d) * (k + e) + w * k = w * (k + e) + (w + d) * k + d * e := by ring
      have h1 : w * (k + e) + ((w + d) * k + cost Q) + d * e = (w + d) * (k + e) + (w * k + cost Q) := by
        rw [← Nat.add_assoc ((w + d) * (k + e)), h0]; ring
      exact h1 ▸ Nat.le_add_right _ _

theorem kraftSum_eq_of_lengths {M : Nat} {P Q : List (Nat × Nat)} (h : (P.map Prod.snd).Perm (Q.map Prod.snd)) :
    kraftSum M P = kraftSum M Q := by
  have := (h.map fun l => 2 ^ (M - l)).sum_eq
  simpa [kraftSum, Function.comp_def] using this

theorem kraftSum_even {L : Nat} {P : List (Nat × Nat)} (h : ∀ p ∈ P, p.2 < L) : 2 ∣ kraftSum L P := by
  induction P with
  | nil => simp [kraftSum]
  | cons p P ih =>
    rw [kraftSum_cons]
    have hp := h p (by simp)
    refine (Nat.dvd_add_right ?_).2 (ih fun q hq => h q (List.mem_cons_of_mem _ hq))
    obtain ⟨d, hd⟩ : ∃ d, L - p.2 = d + 1 := ⟨L - p.2 - 1, by omega⟩
    rw [hd, Nat.pow_succ]; exact Nat.dvd_mul_left _ _

theorem exists_max_length {P : List (Nat × Nat)} (h : P ≠ []) : ∃ x L, (x, L) ∈ P ∧ ∀ p ∈ P, p.2 ≤ L := by
  induction P with
  | nil => exact absurd rfl h
  | cons p P ih =>
    by_cases hP : P = []
    · subst hP; exact ⟨p.1, p.2, by simp, by simp⟩
    · obtain ⟨x, L, hx, hL⟩ := ih hP
      by_cases hp : p.2 ≤ L
      · refine ⟨x, L, by simp [hx], fun q hq => ?_⟩
        rcases List.mem_cons.1 hq with rfl | hq
        · exact hp
        · exact hL q hq
      · refine ⟨p.1, p.2, by simp, fun q hq => ?_⟩
        rcases List.mem_cons.1 hq with rfl | hq
        · exact Nat.le_refl _
        · have := hL q hq; omega

/-- The step of Huffman's argument: from lengths for all weights to lengths for the weights with the two least merged, at a cost
less by their sum. -/
theorem merge_two {w1 w2 : Nat} {ws : List Nat} (h12 : w1 ≤ w2) (hmin : ∀ v ∈ ws, w2 ≤ v) :
    ∀ (n : Nat) (P : List (Nat × Nat)) (M : Nat), (P.map Prod.snd).sum ≤ n → (P.map Prod.fst).Perm (w1 :: w2 :: ws) →
      Kraft M P → ∃ Q M', (Q.map Prod.fst).Perm ((w1 + w2) :: ws) ∧ Kraft M' Q ∧ cost Q + (w1 + w2) ≤ cost P := by
  intro n
  induction n with
  | zero =>
    -- lengths that are all 0 break Kraft's inequality
    intro P M hn hperm hk
    exfalso
    have hz : ∀ p ∈ P, p.2 = 0 := fun p hp => by
      have := le_sum_of_mem (List.mem_map_of_mem (f := Prod.snd) hp)
      omega
    have hk0 : Kraft 0 P := hk.lower (fun p hp => by rw [hz p hp]) (Nat.zero_le _)
    have hlen : P.length = ws.length + 2 := by simpa using hperm.length_eq
    have hsum : kraftSum 0 P = P.length := by simp [kraftSum]
    have := hk0.2
    rw [hsum, hlen] at this
    simp at this
  | succ n ih =>
    intro P M hn hperm hk
    have hlen : P.length = ws.length + 2 := by simpa using hperm.length_eq
    obtain ⟨x, L, hx, hL⟩ := exists_max_length (P := P) (by rintro rfl; simp at hlen)
    have hLM : L ≤ M := hk.1 _ hx
    have hkL : Kraft L P := hk.lower hL hLM
    have hP := List.perm_cons_erase hx
    set R := P.erase (x, L) with hR
    have hRlen : R.length = ws.length + 1 := by have := hP.length_eq; simp at this; omega
    by_cases hone : ∀ p ∈ R, p.2 < L
    · -- one pair alone has the greatest length: it can be shortened
      have hLpos : 0 < L := by
        obtain ⟨p, hp⟩ := List.exists_mem_of_length_pos (l := R) (by omega)
        have := hone p hp; omega
      obtain ⟨L', rfl⟩ : ∃ j, L = j + 1 := ⟨L - 1, by omega⟩
      have hsum := hkL.2
      rw [kraftSum_perm hP, kraftSum_cons] at hsum
      simp only [Nat.sub_self, Nat.pow_zero] at hsum
      obtain ⟨e, he⟩ := kraftSum_even hone
      have hk' : Kraft (L' + 1) ((x, L') :: R) := by
        refine ⟨fun p hp => ?_, ?_⟩
        · rcases List.mem_cons.1 hp with rfl | hp
          · simp
          · exact Nat.le_of_lt (hone p hp)
        · rw [kraftSum_cons]
          simp only [Nat.add_sub_cancel_left, Nat.pow_one]
          rw [he] at hsum ⊢
          rw [Nat.pow_succ] at hsum ⊢
          omega
      have hsl : (P.map Prod.snd).sum = L' + 1 + (R.map Prod.snd).sum := by
        have := (hP.map Prod.snd).sum_eq
        simpa using this
      have hfst : (((x, L') :: R).map Prod.fst).Perm (w1 :: w2 :: ws) := by
        have := (hP.map Prod.fst).symm.trans hperm
        simpa using this
      obtain ⟨Q, M', hQ, hkQ, hcost⟩ := ih ((x, L') :: R) (L' + 1) (by simp; omega) hfst hk'
      refine ⟨Q, M', hQ, hkQ, Nat.le_trans hcost ?_⟩
      rw [cost_perm hP, cost_cons, cost_cons]
      simp only [Nat.mul_succ]; omega
    · -- two pairs have the greatest length: the two least weights may take it, as siblings
      push Not at hone
      obtain ⟨p, hp, hpL⟩ := hone
      have hpR : p.2 = L := Nat.le_antisymm (hL p (List.mem_of_mem_erase hp)) hpL
      obtain ⟨Q1, hq1, hs1, hc1⟩ := exchange hL ⟨x, hx⟩ hperm (by
        intro v hv
        rcases List.mem_cons.1 hv with rfl | hv
        · exact h12
        · exact Nat.le_trans h12 (hmin v hv))
      have hlens : (R.map Prod.snd).Perm (Q1.map Prod.snd) := by
        have h1 := (hP.map Prod.snd).symm.trans hs1
        simp only [List.map_cons] at h1
        exact (List.perm_cons _).1 h1
      have hL1 : ∀ q ∈ Q1, q.2 ≤ L := fun q hq => by
        have : q.2 ∈ R.map Prod.snd := hlens.mem_iff.2 (List.mem_map_of_mem hq)
        obtain ⟨r, hr, e⟩ := List.mem_map.1 this
        rw [← e]; exact hL r (List.mem_of_mem_erase hr)
      have hx1 : ∃ y, (y, L) ∈ Q1 := by
        have : L ∈ Q1.map Prod.snd := hlens.mem_iff.1 (hpR ▸ List.mem_map_of_mem hp)
        obtain ⟨q, hq, e⟩ := List.mem_map.1 this
        exact ⟨q.1, by rw [← e]; exact hq⟩
      obtain ⟨Q2, hq2, hs2, hc2⟩ := exchange hL1 hx1 hq1 hmin
      have hall : (P.map Prod.snd).Perm (((w1, L) :: (w2, L) :: Q2).map Prod.snd) := by
        have := hs1.trans (hs2.cons L)
        simpa using this
      have hkr := hkL.2
      rw [kraftSum_eq_of_lengths hall, kraftSum_cons, kraftSum_cons] at hkr
      simp only [Nat.sub_self, Nat.pow_zero] at hkr
      have hLpos : 0 < L := by
        rcases Nat.eq_zero_or_pos L with rfl | h
        · simp at hkr
        · exact h
      obtain ⟨L', rfl⟩ : ∃ j, L = j + 1 := ⟨L - 1, by omega⟩
      refine ⟨(w1 + w2, L') :: Q2, L' + 1, by simpa using hq2, ⟨fun q hq => ?_, ?_⟩, ?_⟩
      · rcases List.mem_cons.1 hq with rfl | hq
        · simp
        · have : q.2 ∈ Q1.map Prod.snd := hs2.mem_iff.2 (List.mem_cons_of_mem _ (List.mem_map_of_mem hq))
          obtain ⟨r, hr, e⟩ := List.mem_map.1 this
          rw [← e]; exact hL1 r hr
      · rw [kraftSum_cons]
        simp only [Nat.add_sub_cancel_left, Nat.pow_one]
        omega
      · rw [cost_cons]
        simp only [Nat.mul_succ] at hc1 hc2 ⊢
        rw [Nat.add_mul]
        omega

/-! ### Kraft's inequality for a prefix-free code -/

/-- Neither is a prefix of the other. -/
def Apart (u v : List Bool) : Prop := ¬ u <+: v ∧ ¬ v <+: u

/-- What follows the first bit `b`, if that is the first bit. -/
def tailAfter (b : Bool) : List Bool → Option (List Bool)
  | c :: w => if c = b then some w else none
  | [] => none

theorem tails_apart {W : List (List Bool)} (h : W.Pairwise Apart) (b : Bool) : (W.filterMap (tailAfter b)).Pairwise Apart := by
  rw [List.pairwise_filterMap]
  refine h.imp fun {u v} huv x hx y hy => ?_
  cases u with
  | nil => simp [tailAfter] at hx
  | cons c u =>
    cases v with
    | nil => simp [tailAfter] at hy
    | cons d v =>
      simp only [tailAfter, Option.ite_none_right_eq_some, Option.some.injEq] at hx hy
      obtain ⟨rfl, rfl⟩ := hx
      obtain ⟨rfl, rfl⟩ := hy
      simpa [Apart] using huv

/-- Words of at most `M` bits, none a prefix of another, meet Kraft's inequality. -/
theorem kraft_of_apart (M : Nat) {W : List (List Bool)} (hM : ∀ w ∈ W, w.length ≤ M) (h : W.Pairwise Apart) :
    (W.map fun w => 2 ^ (M - w.length)).sum ≤ 2 ^ M := by
  have hnil : ∀ {W : List (List Bool)}, W.Pairwise Apart → [] ∈ W → W = [[]] := by
    intro W h hm
    induction W with
    | nil => simp at hm
    | cons w W _ =>
      obtain ⟨h1, h2⟩ := List.pairwise_cons.1 h
      rcases List.mem_cons.1 hm with e | hm
      · subst e
        cases W with
        | nil => rfl
        | cons v W => exact absurd List.nil_prefix (h1 v (by simp)).1
      · exact absurd List.nil_prefix (h1 [] hm).2
  induction M generalizing W with
  | zero =>
    cases W with
    | nil => simp
    | cons w W =>
      have hw : w = [] := by simpa using hM w (by simp)
      have := hnil h (by simp [hw])
      rw [this]; simp
  | succ M ih =>
    by_cases hm : [] ∈ W
    · rw [hnil h hm]; simp
    · have hsplit : (W.map fun w => 2 ^ (M + 1 - w.length)).sum =
          ((W.filterMap (tailAfter false)).map fun w => 2 ^ (M - w.length)).sum +
          ((W.filterMap (tailAfter true)).map fun w => 2 ^ (M - w.length)).sum := by
        clear h hM ih
        induction W with
        | nil => simp
        | cons w W ih =>
          have := ih fun hc => hm (List.mem_cons_of_mem _ hc)
          cases w with
          | nil => simp at hm
          | cons b w => cases b <;> simp [tailAfter, this] <;> omega
      have hlen : ∀ b, ∀ w ∈ W.filterMap (tailAfter b), w.length ≤ M := by
        intro b w hw
        obtain ⟨v, hv, e⟩ := List.mem_filterMap.1 hw
        have := hM v hv
        cases v with
        | nil => simp [tailAfter] at e
        | cons c v =>
          simp only [tailAfter, Option.ite_none_right_eq_some, Option.some.injEq] at e
          rw [← e.2]; simpa using this
      have h0 := ih (hlen false) (tails_apart h false)
      have h1 := ih (hlen true) (tails_apart h true)
      rw [hsplit, Nat.pow_succ]; omega

/-! ### The tree's cost is the sum of its internal weights (R154) -/

/-- The depth of arena entry `i`. -/
def State.depthAt (s : State) (i : Nat) : Nat := ((s.labelAt i).map PathLabel.depth).getD 0

theorem sum_map_range_flatMap (f : Nat → Nat) (g : Nat → List Nat) (l : List Nat) :
    ((l.flatMap g).map f).sum = (l.map fun i => ((g i).map f).sum).sum := by
  induction l with
  | nil => rfl
  | cons a l ih => simp [List.flatMap_cons, ih]

/-- Below an internal root, the leaves' weights times their depths sum to the internal weights: each leaf counts once in every
internal node above it. -/
theorem leaf_cost_eq {s : State} (hs : s.hasTree) (hn : 1 ≤ s.nsym) (hc : s.codes) :
    ((s.node.take s.nsym).map fun c => c.2.weight * s.depthAt c.1).sum = s.innerWeight := by
  have ht := treeFacts_of_hasTree hs hn
  obtain ⟨h1, -, -, -, -, h6, h7, -⟩ := id hs
  obtain ⟨hlab, hroot, hkids, -⟩ := hc
  let f := fun i => s.weightAt i * s.depthAt i
  have hval : ∀ c ∈ s.node, f c.1 = c.2.weight * s.depthAt c.1 ∧
      s.depthAt c.1 = (c.2.label.map PathLabel.depth).getD 0 := by
    intro c hcm
    have hn := (mem_node_iff h1).1 hcm
    simp [f, State.weightAt, State.depthAt, State.labelAt, hn]
  have hroot0 : f s.root = 0 := by
    have : s.depthAt s.root = 0 := by
      rw [State.depthAt, hroot]
      cases s.nodeAt s.root <;> rfl
    simp [f, this]
  -- over all entries
  have hall : ((List.range s.nnode).map f).sum =
      ((s.node.take s.nsym).map fun c => c.2.weight * s.depthAt c.1).sum +
      ((s.node.drop s.nsym).map fun c => c.2.weight * s.depthAt c.1).sum := by
    rw [← h1, List.map_map, ← List.sum_append, ← List.map_append, List.take_append_drop]
    congr 1
    exact List.map_congr_left fun c hcm => (hval c hcm).1
  have hrange : ((List.range s.nnode).map f).sum = ((childIndices s.node).map f).sum := by
    rw [← ht.root, List.range_succ, List.map_append, List.sum_append, (h7.map f).sum_eq]
    simp [hroot0]
  -- over the children
  have hch : ((childIndices s.node).map f).sum =
      ((s.node.drop s.nsym).map fun c => c.2.weight * s.depthAt c.1).sum + s.innerWeight := by
    conv_lhs => rw [← List.take_append_drop s.nsym s.node, childIndices_append,
      childIndices_leaves fun c hcm => (take_leaf hs hcm).1, List.nil_append]
    have : ∀ m : SparseMap Node, (∀ c ∈ m, c ∈ s.node.drop s.nsym) → ((childIndices m).map f).sum =
        (m.map fun c => c.2.weight * s.depthAt c.1).sum + (m.map fun c => c.2.weight).sum := by
      intro m hm
      induction m with
      | nil => rfl
      | cons c m ih =>
        have hcm := hm c (by simp)
        have hcn := List.mem_of_mem_drop hcm
        obtain ⟨a1, -, -, -, a5⟩ := h6 c hcm
        obtain ⟨k1, k2⟩ := hkids c hcn a1
        obtain ⟨l, hl⟩ := Option.ne_none_iff_exists'.1 (hlab c hcn)
        have hd := (hval c hcn).2
        rw [hl] at hd k1 k2
        have e1 : s.depthAt c.2.right = s.depthAt c.1 + 1 := by rw [State.depthAt, k1, hd]; rfl
        have e2 : s.depthAt c.2.left = s.depthAt c.1 + 1 := by rw [State.depthAt, k2, hd]; rfl
        have hcons : childIndices (c :: m) = c.2.right :: c.2.left :: childIndices m := by
          simp [childIndices, a1]
        rw [hcons, List.map_cons, List.map_cons, List.sum_cons, List.sum_cons,
          ih fun d hd => hm d (List.mem_cons_of_mem _ hd)]
        simp only [f, e1, e2, List.map_cons, List.sum_cons, a5]
        ring
    exact this _ fun c hc => hc
  omega

/-- The same, by symbols: the weighted length of the ROM's code, with two symbols or more. -/
theorem weightedLength_eq {s : State} (hs : s.hasTree) (hn : 2 ≤ s.nsym) (hc : s.codes) :
    s.weightedLength s.romLen = s.innerWeight := by
  rw [← leaf_cost_eq hs (by omega) hc, State.weightedLength, ← take_syms hs, List.map_map]
  congr 1
  refine List.map_congr_left fun c hcm => ?_
  obtain ⟨-, h2, h3⟩ := take_leaf hs hcm
  have hcn := (mem_node_iff hs.1).1 (List.mem_of_mem_take hcm)
  obtain ⟨l, hl⟩ := Option.ne_none_iff_exists'.1 (hc.1 c (List.mem_of_mem_take hcm))
  have hrom := romAt_leaf hs hc hcm hl
  obtain ⟨-, -, b3, -⟩ := label_bounds hs (by omega) hc s.nnode c.1 c.2 l (by omega) hcn hl
  rw [if_neg (by omega)] at b3
  have hd : s.depthAt c.1 = l.depth := by simp [State.depthAt, State.labelAt, hcn, hl]
  simp only [Function.comp_apply, State.romLen, hrom, Option.map_some, Option.getD_some]
  rw [h3, hd, b3, Nat.add_zero]

/-- `TOTALBITS` is the weighted length of the ROM's code (R154, R186). -/
theorem sumLengths_eq {s : State} (hc : s.counts) {ws : List Codeword} (h : lookupAll s.romAt s.bytes = some ws) :
    sumLengths ws = s.weightedLength s.romLen := by
  have h1 : ∀ (bs : List Byte) (ws : List Codeword), lookupAll s.romAt bs = some ws →
      sumLengths ws = (bs.map s.romLen).sum := by
    intro bs
    induction bs with
    | nil => intro ws hws; simp [lookupAll] at hws; subst hws; rfl
    | cons b bs ih =>
      intro ws hws
      unfold lookupAll at hws
      split at hws
      · rename_i w vs e1 e2
        obtain rfl := Option.some.inj hws
        have : sumLengths (w :: vs) = w.clen + sumLengths vs := rfl
        rw [this, ih vs e2, List.map_cons, List.sum_cons, State.romLen, e1]; rfl
      · cases hws
  -- a sum over the input, grouped by symbol
  have h2 : ∀ (bs : List Byte), (bs.map s.romLen).sum = (allSymbols.map fun b => bs.count b * s.romLen b).sum := by
    intro bs
    induction bs with
    | nil =>
      generalize allSymbols = l
      induction l with
      | nil => rfl
      | cons b l ih => simp
    | cons c bs ih =>
      rw [List.map_cons, List.sum_cons, ih]
      have h3 : ∀ l : List Byte, l.Nodup → (l.map fun b => (c :: bs).count b * s.romLen b).sum =
          (if c ∈ l then s.romLen c else 0) + (l.map fun b => bs.count b * s.romLen b).sum := by
        intro l hl
        induction l with
        | nil => rfl
        | cons d l ih =>
          obtain ⟨hd, hl⟩ := List.nodup_cons.1 hl
          simp only [List.map_cons, List.sum_cons, ih hl]
          by_cases hcd : c = d
          · subst hcd
            simp only [List.count_cons_self, hd, List.mem_cons_self, if_true, if_false]
            ring
          · have : (c :: bs).count d = bs.count d := List.count_cons_of_ne hcd
            simp only [this, List.mem_cons, hcd, false_or]
            ring
      rw [h3 _ allSymbols_nodup]
      simp
  have h4 : ∀ l : List Byte, (l.map fun b => s.bytes.count b * s.romLen b).sum =
      ((l.filter fun b => decide (0 < s.freqAt b)).map fun b => s.freqAt b * s.romLen b).sum := by
    intro l
    induction l with
    | nil => rfl
    | cons b l ih =>
      have hb := hc.2.2.2.1 b (mem_allSymbols b)
      by_cases hp : 0 < s.freqAt b
      · rw [List.map_cons, List.sum_cons, ih, List.filter_cons_of_pos (by simpa using hp), List.map_cons, List.sum_cons, hb]
      · have : s.bytes.count b = 0 := by omega
        simp [hp, ih, this]
  rw [h1 _ _ h, h2, h4]; rfl

/-! ### The greedy choice in terms of the arena (R148, R153) -/

/-- In a forest the queue's nodes are the entries that wait. -/
theorem Forest.waits_iff {leaves : SparseMap Node} {total : Nat} {s : State} (h : Forest leaves total s) (j : Nat) :
    s.waits s.nnode j ↔ ∃ e ∈ s.mq, e.node = j := by
  have hnd : (childIndices s.node ++ s.mq.map Entry.node).Nodup := h.parents.nodup_iff.2 List.nodup_range
  have hchild : ∀ j, j ∈ childIndices s.node ↔ ∃ c ∈ s.node, c.2.leaf = false ∧ (j = c.2.right ∨ j = c.2.left) := by
    intro j
    simp only [childIndices, List.mem_flatMap]
    constructor
    · rintro ⟨c, hc, hj⟩
      cases hl : c.2.leaf with
      | true => simp [hl] at hj
      | false => exact ⟨c, hc, hl, by simpa [hl] using hj⟩
    · rintro ⟨c, hc, hl, hj⟩
      exact ⟨c, hc, by simpa [hl] using hj⟩
  constructor
  · rintro ⟨hj, hno⟩
    have : j ∈ childIndices s.node ++ s.mq.map Entry.node := h.parents.mem_iff.2 (List.mem_range.2 hj)
    rcases List.mem_append.1 this with hc | hc
    · obtain ⟨c, hcm, hl, he⟩ := (hchild j).1 hc
      have := hno c hcm (h.listed.lt hcm) hl
      tauto
    · obtain ⟨e, he, rfl⟩ := List.mem_map.1 hc
      exact ⟨e, he, rfl⟩
  · rintro ⟨e, he, rfl⟩
    refine ⟨h.node_lt he, fun c hcm _ hl => ?_⟩
    have hdis := (List.nodup_append.1 hnd).2.2
    by_contra hcon
    have hor : e.node = c.2.right ∨ e.node = c.2.left := by
      by_cases h1 : e.node = c.2.right
      · exact .inl h1
      · by_cases h2 : e.node = c.2.left
        · exact .inr h2
        · exact absurd ⟨h1, h2⟩ hcon
    exact hdis e.node ((hchild _).2 ⟨c, hcm, hl, hor⟩) e.node (List.mem_map_of_mem he) rfl

/-- A merge keeps the choices made so far and makes its own (R148). -/
theorem mergeOnce_greedy {leaves : SparseMap Node} {total : Nat} {s t : State} (h : Forest leaves total s)
    (hq : 1 < s.mq.length) (hl : leaves.length ≤ 256) (hg : s.greedy) (hrun : mergeOnce s = .next t) : t.greedy := by
  obtain ⟨a, b, u, ha, hb, hm, -, hnode, -, hf⟩ := mergeOnce_spec h hq hl
  rw [hm] at hrun
  obtain rfl := Host.Outcome.next.inj hrun
  obtain ⟨a', b', ha', hb', hperm, hab, hmin⟩ := two_minima hq
  obtain rfl : a = a' := by rw [ha] at ha'; exact Option.some.inj ha'
  obtain rfl : b = b' := by rw [hb] at hb'; exact Option.some.inj hb'
  have hw : ∀ i, i < s.nnode → u.weightAt i = s.weightAt i := fun i hi => weightAt_append h.listed hf.listed hnode hi
  have hwaits : ∀ i j, i ≤ s.nnode → (u.waits i j ↔ s.waits i j) := by
    intro i j hi
    simp only [State.waits, hnode, List.mem_append, List.mem_singleton]
    constructor
    · rintro ⟨h1, h2⟩
      exact ⟨h1, fun c hc => h2 c (.inl hc)⟩
    · rintro ⟨h1, h2⟩
      refine ⟨h1, fun c hc hci => ?_⟩
      rcases hc with hc | rfl
      · exact h2 c hc hci
      · simp only at hci; omega
  have hleaves : ∀ j k, j < s.nnode → k < s.nnode → (u.leavesBefore j k ↔ s.leavesBefore j k) := by
    intro j k hj hk
    simp only [State.leavesBefore, hw j hj, hw k hk]
  intro c hc hcl
  rw [hnode] at hc
  rcases List.mem_append.1 hc with hc | hc
  · obtain ⟨g1, g2, g3, g4⟩ := hg c hc hcl
    have hlt := h.listed.lt hc
    have hr := g1.1
    have hlf := g2.1
    refine ⟨(hwaits _ _ (by omega)).2 g1, (hwaits _ _ (by omega)).2 g2, (hleaves _ _ (by omega) (by omega)).2 g3, ?_⟩
    intro j hj hjr hjl
    have hj' := (hwaits _ _ (by omega)).1 hj
    have := hj'.1
    exact (hleaves _ _ (by omega) (by omega)).2 (g4 j hj' hjr hjl)
  · obtain rfl := List.mem_singleton.1 hc
    have ham : a ∈ s.mq := (minEntry_spec ha).1
    have hbm : b ∈ s.mq := List.mem_of_mem_erase (minEntry_spec hb).1
    have hq : ∀ e ∈ s.mq, e.seq = e.node ∧ e.weight = s.weightAt e.node ∧ e.node < s.nnode := fun e he =>
      ⟨(h.entries e he).1, (h.entries e he).2, h.node_lt he⟩
    have hnd : (s.mq.map Entry.node).Nodup :=
      (List.nodup_append.1 (h.parents.nodup_iff.2 List.nodup_range)).2.1
    have hnd' := (hperm.map Entry.node).nodup_iff.1 hnd
    simp only [List.map_cons, List.nodup_cons, List.mem_cons, not_or] at hnd'
    have hbefore : ∀ e d : Entry, e ∈ s.mq → d ∈ s.mq → e.node ≠ d.node → Entry.before d e = false →
        s.leavesBefore e.node d.node := by
      intro e d he hd hne hbf
      obtain ⟨e1, e2, -⟩ := hq e he
      obtain ⟨d1, d2, -⟩ := hq d hd
      rw [← Bool.not_eq_true, before_iff, e1, e2, d1, d2] at hbf
      unfold State.leavesBefore
      omega
    have hle : s.nnode ≤ s.nnode := Nat.le_refl _
    show u.waits s.nnode a.node ∧ u.waits s.nnode b.node ∧ u.leavesBefore a.node b.node ∧
      ∀ j, u.waits s.nnode j → j ≠ a.node → j ≠ b.node → u.leavesBefore b.node j
    refine ⟨(hwaits _ _ hle).2 ((h.waits_iff _).2 ⟨a, ham, rfl⟩), (hwaits _ _ hle).2 ((h.waits_iff _).2 ⟨b, hbm, rfl⟩),
      (hleaves _ _ (hq a ham).2.2 (hq b hbm).2.2).2 (hbefore a b ham hbm hnd'.1.1 hab), ?_⟩
    intro j hj hja hjb
    obtain ⟨e, he, rfl⟩ := (h.waits_iff j).1 ((hwaits _ _ hle).1 hj)
    refine (hleaves _ _ (hq b hbm).2.2 (hq e he).2.2).2 (hbefore b e hbm he (Ne.symm hjb) (hmin e ?_))
    have := hperm.mem_iff.1 he
    simp only [List.mem_cons] at this
    rcases this with rfl | rfl | h3
    · exact absurd rfl hja
    · exact absurd rfl hjb
    · exact h3

theorem mergeLoop_greedy {leaves : SparseMap Node} {total : Nat} (hl : leaves.length ≤ 256) (k : Nat) {s t : State}
    (h : Forest leaves total s) (hg : s.greedy) (hrun : mergeLoop k s = .next t) : t.greedy := by
  induction k generalizing s with
  | zero => cases hrun; exact hg
  | succ k ih =>
    unfold mergeLoop at hrun
    by_cases hq : 1 < s.mq.length
    · obtain ⟨a, b, u, -, -, hm, -, -, -, hf⟩ := mergeOnce_spec h hq hl
      rw [State.mqSize, if_pos hq, hm, andThen_next] at hrun
      exact ih hf (mergeOnce_greedy h hq hl hg hm) hrun
    · rw [State.mqSize, if_neg hq] at hrun
      cases hrun; exact hg

/-- The tree of `BLD` is the tree of the greedy merges (R148, R153). -/
theorem bodyBld_greedy {s t : State} (hb : listsExactly s.inMem s.len) (hm : s.mq = []) (hc : s.counts) (ht : s.noTree)
    (h0 : s.nsym ≠ 0) (hrun : bodyBld s = .next t) : t.greedy := by
  have hle := occurring_length_le s
  have hf := seeded_forest hb hc
  have hlen : (seedNodes s.freqAt 0 s.occurring).length = s.occurring.length := seedNodes_length _ _ _
  rw [bodyBld, if_neg h0, seed_allSymbols ht hm, andThen_next] at hrun
  obtain ⟨u, hu, hfin⟩ := andThen_eq_next hrun
  have hg0 : s.seeded.greedy := by
    intro c hcm hcl
    have := (seedNodes_leaf _ _ _ c hcm).1
    rw [hcl] at this; cases this
  have hg := mergeLoop_greedy (by rw [hlen]; exact hle) _ hf hg0 hu
  rw [finishBuild] at hfin
  obtain ⟨x, hx, e⟩ := orRefuse_eq_next hfin
  have := (mqExtractMin_eq_some hx).2
  cases e
  rw [this]
  exact hg

/-- The choices are a matter of the shape alone. -/
theorem SameShape.greedy {s t : State} (h : SameShape s t) (hs : listsExactly s.node s.nnode) (hg : s.greedy) : t.greedy := by
  have hw : t.weightAt = s.weightAt := funext h.weightAt
  have hl := h.list hs
  have hmem : ∀ c ∈ t.node, ∃ d ∈ s.node, d.1 = c.1 ∧ d.2.leaf = c.2.leaf ∧ d.2.left = c.2.left ∧ d.2.right = c.2.right := by
    intro c hc
    have : (c.1, c.2.unlabelled) ∈ s.node.map fun c => (c.1, c.2.unlabelled) := by
      rw [← hl]; exact List.mem_map_of_mem (f := fun c : Nat × Node => (c.1, c.2.unlabelled)) hc
    obtain ⟨d, hd, e⟩ := List.mem_map.1 this
    obtain ⟨b1, -, b3, b4, -⟩ := unlabelled_eq (Prod.ext_iff.1 e).2
    exact ⟨d, hd, (Prod.ext_iff.1 e).1, b1, b3, b4⟩
  have hmem' : ∀ d ∈ s.node, ∃ c ∈ t.node, d.1 = c.1 ∧ d.2.leaf = c.2.leaf ∧ d.2.left = c.2.left ∧ d.2.right = c.2.right := by
    intro d hd
    have : (d.1, d.2.unlabelled) ∈ t.node.map fun c => (c.1, c.2.unlabelled) := by
      rw [hl]; exact List.mem_map_of_mem (f := fun c : Nat × Node => (c.1, c.2.unlabelled)) hd
    obtain ⟨c, hc, e⟩ := List.mem_map.1 this
    obtain ⟨b1, -, b3, b4, -⟩ := unlabelled_eq (Prod.ext_iff.1 e).2
    exact ⟨c, hc, (Prod.ext_iff.1 e).1.symm, b1.symm, b3.symm, b4.symm⟩
  have hwaits : ∀ i j, t.waits i j ↔ s.waits i j := by
    intro i j
    constructor
    · rintro ⟨h1, h2⟩
      refine ⟨h1, fun d hd hdi hdl => ?_⟩
      obtain ⟨c, hc, e1, e2, e3, e4⟩ := hmem' d hd
      rw [e3, e4]; exact h2 c hc (by omega) (by rw [← e2]; exact hdl)
    · rintro ⟨h1, h2⟩
      refine ⟨h1, fun c hc hci hcl => ?_⟩
      obtain ⟨d, hd, e1, e2, e3, e4⟩ := hmem c hc
      rw [← e3, ← e4]; exact h2 d hd (by omega) (by rw [e2]; exact hcl)
  have hb : ∀ j k, t.leavesBefore j k ↔ s.leavesBefore j k := by
    intro j k; simp only [State.leavesBefore, hw]
  intro c hc hcl
  obtain ⟨d, hd, e1, e2, e3, e4⟩ := hmem c hc
  obtain ⟨g1, g2, g3, g4⟩ := hg d hd (by rw [e2]; exact hcl)
  rw [e1, e3, e4] at *
  exact ⟨(hwaits _ _).2 g1, (hwaits _ _).2 g2, (hb _ _).2 g3, fun j h1 h2 h3 =>
    (hb _ _).2 (g4 j ((hwaits _ _).1 h1) h2 h3)⟩

/-! ### The greedy tree is optimal (R154) -/

/-- The entries that wait when entry `i` is created. -/
def State.pending (s : State) (i : Nat) : List Nat :=
  (List.range i).filter fun j => s.node.all fun c => !(decide (c.1 < i) && !c.2.leaf && (j == c.2.right || j == c.2.left))

theorem mem_pending {s : State} {i j : Nat} : j ∈ s.pending i ↔ s.waits i j := by
  simp only [State.pending, List.mem_filter, List.mem_range, List.all_eq_true, State.waits]
  refine and_congr_right fun _ => forall_congr' fun c => forall_congr' fun _ => ?_
  cases c.2.leaf <;> simp [imp_iff_not_or]

theorem pending_nodup (s : State) (i : Nat) : (s.pending i).Nodup := List.nodup_range.filter _

/-- Creating entry `i` takes its two children out of the waiting entries and puts `i` in. -/
theorem pending_step {s : State} (hs : s.hasTree) (hg : s.greedy) {c : Nat × Node} (hc : c ∈ s.node) (hl : c.2.leaf = false) :
    ∃ rest, (s.pending c.1).Perm (c.2.right :: c.2.left :: rest) ∧ (s.pending (c.1 + 1)).Perm (c.1 :: rest) ∧
      ∀ j ∈ rest, s.leavesBefore c.2.left j := by
  obtain ⟨g1, g2, g3, g4⟩ := hg c hc hl
  have hne : c.2.right ≠ c.2.left := by
    intro e
    rw [e] at g3
    rcases g3 with h | ⟨-, h⟩ <;> omega
  have hnd := pending_nodup s c.1
  refine ⟨((s.pending c.1).erase c.2.right).erase c.2.left, ?_, ?_, ?_⟩
  · have h1 := List.perm_cons_erase (mem_pending.2 g1)
    have h2 : c.2.left ∈ (s.pending c.1).erase c.2.right :=
      (hnd.mem_erase_iff).2 ⟨Ne.symm hne, mem_pending.2 g2⟩
    exact h1.trans ((List.perm_cons_erase h2).cons _)
  · have hnd2 := (hnd.erase c.2.right).erase c.2.left
    have hmem : ∀ j, j ∈ ((s.pending c.1).erase c.2.right).erase c.2.left ↔
        j ≠ c.2.left ∧ j ≠ c.2.right ∧ s.waits c.1 j := by
      intro j
      rw [(hnd.erase _).mem_erase_iff, hnd.mem_erase_iff, mem_pending]
    have hnot : c.1 ∉ ((s.pending c.1).erase c.2.right).erase c.2.left := fun h => by
      have := ((hmem _).1 h).2.2.1
      omega
    refine (List.perm_ext_iff_of_nodup (pending_nodup s _) (List.nodup_cons.2 ⟨hnot, hnd2⟩)).2 fun j => ?_
    rw [mem_pending, List.mem_cons, hmem]
    constructor
    · rintro ⟨h1, h2⟩
      by_cases hj : j = c.1
      · exact .inl hj
      · have := h2 c hc (by omega) hl
        exact .inr ⟨this.2, this.1, by omega, fun d hd hdi => h2 d hd (by omega)⟩
    · rintro (rfl | ⟨h1, h2, h3, h4⟩)
      · refine ⟨by omega, fun d hd hdi hdl => ?_⟩
        have hr := (hg d hd hdl).1.1
        have hle := (hg d hd hdl).2.1.1
        omega
      · refine ⟨by omega, fun d hd hdi hdl => ?_⟩
        by_cases hdc : d.1 = c.1
        · have e1 := (mem_node_iff hs.1).1 hd
          have e2 := (mem_node_iff hs.1).1 hc
          rw [hdc, e2] at e1
          obtain rfl : d = c := Prod.ext hdc (Option.some.inj e1).symm
          exact ⟨h2, h1⟩
        · exact h4 d hd (by omega) hdl
  · intro j hj
    have h1 := List.mem_of_mem_erase hj
    rw [(hnd.erase _).mem_erase_iff] at hj
    rw [hnd.mem_erase_iff] at h1
    exact g4 j (mem_pending.1 h1.2) h1.1 hj.1

/-- From any entry on, the internal weights sum to no more than any lengths for the waiting weights cost. -/
theorem greedy_cost {s : State} (hs : s.hasTree) (hg : s.greedy) :
    ∀ d i, s.nnode ≤ i + d → s.nsym ≤ i → ∀ (P : List (Nat × Nat)) (M : Nat),
      (P.map Prod.fst).Perm ((s.pending i).map s.weightAt) → Kraft M P →
      ((s.node.drop i).map fun c => c.2.weight).sum ≤ cost P := by
  have h1 := hs.1
  have hlen := h1.length
  intro d
  induction d with
  | zero =>
    intro i hi _ P M _ _
    rw [List.drop_eq_nil_of_le (by omega)]; simp
  | succ d ih =>
    intro i hi hni P M hP hk
    by_cases hlt : i < s.node.length
    · have hkey := h1.getElem hlt
      have hmem := List.getElem_mem hlt
      set c := s.node[i] with hcdef
      have hdrop : s.node.drop i = c :: s.node.drop (i + 1) := List.drop_eq_getElem_cons hlt
      have hcd : c ∈ s.node.drop s.nsym := by
        have : s.node.drop s.nsym = (s.node.drop s.nsym).take (i - s.nsym) ++ s.node.drop i := by
          have := (List.take_append_drop (i - s.nsym) (s.node.drop s.nsym)).symm
          rwa [List.drop_drop, Nat.add_sub_cancel' hni] at this
        rw [this, hdrop]; simp
      obtain ⟨hl, -, -, -, hw⟩ := hs.2.2.2.2.2.1 c hcd
      obtain ⟨rest, p1, p2, p3⟩ := pending_step hs hg hmem hl
      rw [hkey] at p1 p2
      have g3 := (hg c hmem hl).2.2.1
      have hle : ∀ j k, s.leavesBefore j k → s.weightAt j ≤ s.weightAt k := by
        intro j k h
        rcases h with h | ⟨h, -⟩ <;> omega
      have hwi : s.weightAt i = c.2.weight := by
        have := (mem_node_iff h1).1 hmem
        rw [hkey] at this
        simp [State.weightAt, this]
      obtain ⟨Q, M', hQ, hkQ, hcost⟩ := merge_two (ws := rest.map s.weightAt) (hle _ _ g3)
        (by
          intro v hv
          obtain ⟨j, hj, rfl⟩ := List.mem_map.1 hv
          exact hle _ _ (p3 j hj))
        _ P M (Nat.le_refl _) (hP.trans (by simpa using p1.map s.weightAt)) hk
      have := ih (i + 1) (by omega) (by omega) Q M' (hQ.trans (by
        have := (p2.map s.weightAt).symm
        rw [List.map_cons, hwi, hw, Nat.add_comm] at this
        exact this)) hkQ
      rw [hdrop, List.map_cons, List.sum_cons]
      omega
    · rw [List.drop_eq_nil_of_le (by omega)]; simp

/-- No prefix-free code on the occurring symbols has a smaller weighted length than the sum of the internal weights (R154). -/
theorem innerWeight_le {s : State} (hs : s.hasTree) (hg : s.greedy) {code : Byte → List Bool}
    (hcode : prefixFree s.occurring code) : s.innerWeight ≤ s.weightedLength fun b => (code b).length := by
  let P := s.occurring.map fun b => (s.freqAt b, (code b).length)
  let W := s.occurring.map code
  obtain ⟨M, hM⟩ : ∃ M, ∀ w ∈ W, w.length ≤ M := ⟨(W.map List.length).sum, fun w hw =>
    le_sum_of_mem (List.mem_map_of_mem hw)⟩
  have hapart : W.Pairwise Apart := by
    refine List.pairwise_map.2 (List.Pairwise.imp_of_mem ?_ (occurring_nodup s))
    intro b c hbm hcm hne
    exact ⟨hcode b hbm c hcm hne, hcode c hcm b hbm (Ne.symm hne)⟩
  have hkraft : Kraft M P := by
    refine ⟨fun p hp => ?_, ?_⟩
    · obtain ⟨b, hbm, rfl⟩ := List.mem_map.1 hp
      exact hM _ (List.mem_map_of_mem hbm)
    · have := kraft_of_apart M hM hapart
      simpa [kraftSum, P, W, Function.comp_def] using this
  have hlen := hs.1.length
  have hnn := hs.2.1
  -- at the start the leaves wait, and nothing else
  have hpend : s.pending s.nsym = List.range s.nsym := by
    refine List.filter_eq_self.2 fun j hj => ?_
    rw [List.all_eq_true]
    intro c hc
    by_cases hci : c.1 < s.nsym
    · have : c ∈ s.node.take s.nsym := by
        obtain ⟨k, hk, e⟩ := List.getElem_of_mem hc
        have := hs.1.getElem hk
        rw [e] at this
        exact List.mem_take_iff_getElem.2 ⟨k, by omega, e⟩
      simp [(take_leaf hs this).1]
    · simp [hci]
  have hP : (P.map Prod.fst).Perm ((s.pending s.nsym).map s.weightAt) := by
    have e : (s.pending s.nsym).map s.weightAt = P.map Prod.fst := by
      rw [hpend]
      have htake : (s.node.take s.nsym).map Prod.fst = List.range s.nsym := by
        rw [List.map_take, hs.1, List.take_range]
        congr 1; omega
      rw [← htake, List.map_map]
      have hl : (s.node.take s.nsym).map (fun c => s.freqAt c.2.sym) = s.occurring.map s.freqAt := by
        rw [← take_syms hs, List.map_map]; rfl
      have hr : P.map Prod.fst = s.occurring.map s.freqAt := by simp [P, Function.comp_def]
      rw [hr, ← hl]
      refine List.map_congr_left fun c hc => ?_
      have := (mem_node_iff hs.1).1 (List.mem_of_mem_take hc)
      simp [State.weightAt, this, (take_leaf hs hc).2.2]
    rw [e]
  have := greedy_cost hs hg s.nnode s.nsym (by omega) (Nat.le_refl _) P M hP hkraft
  have hcp : cost P = s.weightedLength fun b => (code b).length := by
    simp [cost, P, State.weightedLength, Function.comp_def]
  rwa [hcp] at this

end Sys2Proof.Machine
end

