-- ==== Sys2Proof/Laws/PerInstr.lean ====
section
/-! SUPPORT. Facts of the syntax, one lemma per constructor: every command is well formed, takes its operand as its opcode says
(R81), and its word is accepted by the opcode map's row of its mnemonic and by no other row (R82). -/

namespace Sys2Proof.Laws.Encoding

/-- The rows of the opcode map that accept the command's word are exactly those of its mnemonic (R82: the rows are disjoint). -/
def Statement (i : Instr) : Prop :=
  i.wellFormed = true ∧ (opcodeMap.filter fun r => r.accepts (encode i)).map OpcodeRow.mnemonic = [i.mnemonic]

theorem nop : Statement .nop := by unfold Statement; decide +kernel
theorem clr : Statement .clr := by unfold Statement; decide +kernel
theorem put (b : Byte) : Statement (.put b) := by
  have : ∀ b : Byte, Statement (.put b) := by unfold Statement; decide +kernel
  exact this b
theorem cnt : Statement .cnt := by unfold Statement; decide +kernel
theorem bld : Statement .bld := by unfold Statement; decide +kernel
theorem asg : Statement .asg := by unfold Statement; decide +kernel
theorem enc : Statement .enc := by unfold Statement; decide +kernel
theorem run : Statement .run := by unfold Statement; decide +kernel

end Sys2Proof.Laws.Encoding
end

