-- ==== Sys2Proof/Laws/Stages.lean ====
section
/-! SUPPORT. What the rule of each command does from the line of R41 it starts at: it completes, changes only the fields it may
write, and reaches the next line. One lemma per command; `RUN` is their composition (R108). -/

namespace Sys2Proof.Machine

/-- The data of a line of R41 does not depend on `PHASE`, `ERR`, the parameters or the host's pending commands. -/
theorem stage_congr {s t : State} (p : Phase)
    (h : t = { s with params := t.params, cmds := t.cmds, phase := t.phase, err := t.err }) : t.stage p ↔ s.stage p := by
  rw [h]; rfl

/-- `CNT` on input that is not empty (R122). -/
theorem bodyCnt_stage {s : State} (hcm : s.common) (hst : s.stage .load) (hl : s.len ≠ 0) :
    ∃ t, bodyCnt s = .next t ∧ t = { s with freq := t.freq, nsym := t.nsym, phase := .counted } ∧
      t.stage .counted := by
  obtain ⟨hp, hb, hcap, hmq, herr⟩ := hcm
  obtain ⟨⟨hf, -⟩, hrest⟩ := hst
  let t : State := { s with freq := countBytes s.freq s.bytes, nsym := countSymbols (countBytes s.freq s.bytes),
                            phase := .counted }
  refine ⟨t, bodyCnt_eq hb hl, rfl, ⟨by show 1 ≤ s.len; omega, ?_, ?_, ?_, countSymbols_eq t⟩, hrest⟩
  · exact (countBytes_canonical (m := s.freq) (by rw [hf]; simp) (by rw [hf]; simp) s.bytes).1
  · exact (countBytes_canonical (m := s.freq) (by rw [hf]; simp) (by rw [hf]; simp) s.bytes).2
  · intro b _
    show freqIn (countBytes s.freq s.bytes) b = s.bytes.count b
    rw [freqIn_countBytes, hf]; simp

/-- `BLD` on counted input (R145). -/
theorem bodyBld_stage {s : State} (hcm : s.common) (hst : s.stage .counted) :
    ∃ t, bodyBld s = .next t ∧
      t = { s with node := t.node, nnode := t.nnode, root := t.root, nseq := t.nseq, phase := .built } ∧
      t.stage .built := by
  obtain ⟨-, hb, -, hmq, -⟩ := hcm
  obtain ⟨hc, ht, ⟨-, hrom⟩, ho⟩ := hst
  obtain ⟨t, hrun, hfr, htree, hlab⟩ := bodyBld_spec hb hmq hc ht
  have h0 : s.nsym ≠ 0 := by
    intro h0
    rw [bodyBld, if_pos h0] at hrun
    obtain rfl := Host.Outcome.next.inj hrun
    have h1 : ErrCode.emptyInput = s.err := congrArg State.err hfr
    have h2 : Phase.fault = .built := congrArg State.phase hfr
    cases h2
  refine ⟨t, hrun, hfr, ?_, htree, bodyBld_greedy hb hmq hc ht h0 hrun, ⟨hlab, ?_⟩, ?_⟩
  · rw [hfr]; exact hc
  · rw [hfr]; exact hrom
  · rw [hfr]; exact ho

/-- A counted input has a symbol. -/
theorem counts_nsym_pos {s : State} (hb : listsExactly s.inMem s.len) (hc : s.counts) : 1 ≤ s.nsym := by
  have hn : s.nsym = s.occurring.length := hc.2.2.2.2
  have hlen := bytes_length hb
  have h1 := hc.1
  obtain ⟨b, hbm⟩ := List.exists_mem_of_length_pos (l := s.bytes) (by omega)
  have : b ∈ s.occurring := mem_occurring.2 (by
    rw [hc.2.2.2.1 b (mem_allSymbols b)]; exact List.count_pos_iff.2 hbm)
  have := List.length_pos_of_mem this
  omega

theorem counts_nsym_le {s : State} (hc : s.counts) : s.nsym ≤ 256 := by
  rw [hc.2.2.2.2]; exact occurring_length_le s

/-- `ASG` on a finished tree (R165). -/
theorem bodyAsg_stage {s : State} (hcm : s.common) (hst : s.stage .built) :
    ∃ t, bodyAsg s = .next t ∧ t = { s with node := t.node, crom := t.crom, phase := .assigned } ∧
      (∀ i, (t.nodeAt i).map Node.unlabelled = (s.nodeAt i).map Node.unlabelled) ∧ t.stage .assigned := by
  obtain ⟨-, hb, -, -, -⟩ := hcm
  obtain ⟨hc, htree, hg, ⟨-, hrom⟩, ho⟩ := hst
  obtain ⟨t, hrun, hfr, hnodes, htree', hcodes⟩ := bodyAsg_spec htree (counts_nsym_pos hb hc) hrom
  refine ⟨t, hrun, hfr, hnodes, ?_, htree', ?_, hcodes, ?_⟩
  · rw [hfr]; exact hc
  · have hsh : SameShape s { s with node := t.node } := by
      refine ⟨rfl, ?_, fun i => ?_⟩
      · have := htree'.1; rw [hfr] at this; exact this
      · have := hnodes i; rw [hfr] at this; exact this
    have := hsh.greedy htree.1 hg
    rw [hfr]; exact this
  · rw [hfr]; exact ho

/-- `ENC` on an assigned code (R185). -/
theorem bodyEnc_stage {s : State} (hcm : s.common) (hst : s.stage .assigned) :
    ∃ t, bodyEnc s = .next t ∧
      t = { s with outMem := t.outMem, totalBits := t.totalBits, pad := t.pad, outLen := t.outLen, phase := .done } ∧
      t.stage .done := by
  obtain ⟨hc, htree, hg, hk, ho⟩ := hst
  obtain ⟨t, hrun, hfr, hout⟩ := bodyEnc_spec hcm hc htree hk ho
  refine ⟨t, hrun, hfr, ?_, ?_, ?_, ?_, hout⟩
  · rw [hfr]; exact hc
  · rw [hfr]; exact htree
  · rw [hfr]; exact hg
  · rw [hfr]; exact hk

/-- `common` needs only what the stage commands leave alone. -/
theorem common_of_fields {s t : State} (hcm : s.common) (h1 : t.params = s.params) (h2 : t.inMem = s.inMem)
    (h3 : t.len = s.len) (h4 : t.mq = s.mq) (h5 : t.errOk) : t.common := by
  obtain ⟨a, b, c, d, -⟩ := hcm
  exact ⟨by rw [h1]; exact a, by rw [h2, h3]; exact b, by rw [h3, h1]; exact c, by rw [h4]; exact d, h5⟩

/-- With no error on record, every phase but `FAULT` is as R35 says. -/
theorem errOk_of_none {t : State} (h : t.err = .none) (hp : t.phase ≠ .fault) : t.errOk := by
  refine ⟨⟨fun _ => hp, fun _ => h⟩, ?_, ?_⟩ <;> rw [h] <;> simp

/-- `RUN` on input that is not empty passes through the four stages (R108). -/
theorem bodyRun_stages {s : State} (hcm : s.common) (herr : s.err = .none) (hst : s.stage .load) (hl : s.len ≠ 0) :
    ∃ a b c d, bodyCnt s = .next a ∧ bodyBld a = .next b ∧ bodyAsg b = .next c ∧ bodyEnc c = .next d ∧
      bodyRun s = .next d ∧
      a = { s with freq := a.freq, nsym := a.nsym, phase := .counted } ∧
      b = { a with node := b.node, nnode := b.nnode, root := b.root, nseq := b.nseq, phase := .built } ∧
      c = { b with node := c.node, crom := c.crom, phase := .assigned } ∧
      d = { c with outMem := d.outMem, totalBits := d.totalBits, pad := d.pad, outLen := d.outLen, phase := .done } ∧
      (∀ i, (c.nodeAt i).map Node.unlabelled = (b.nodeAt i).map Node.unlabelled) ∧
      (a.common ∧ a.stage .counted) ∧ (b.common ∧ b.stage .built) ∧ (c.common ∧ c.stage .assigned) ∧
      d.common ∧ d.stage .done := by
  obtain ⟨a, ha, fa, sa⟩ := bodyCnt_stage hcm hst hl
  have pa : a.phase = .counted := by rw [fa]
  have ea : a.err = .none := by rw [fa]; exact herr
  have ca : a.common := common_of_fields hcm (by rw [fa]) (by rw [fa]) (by rw [fa]) (by rw [fa])
    (errOk_of_none ea (by rw [pa]; simp))
  obtain ⟨b, hb, fb, sb⟩ := bodyBld_stage ca sa
  have pb : b.phase = .built := by rw [fb]
  have eb : b.err = .none := by rw [fb]; exact ea
  have cb : b.common := common_of_fields ca (by rw [fb]) (by rw [fb]) (by rw [fb]) (by rw [fb])
    (errOk_of_none eb (by rw [pb]; simp))
  obtain ⟨c, hc, fc, hn, sc⟩ := bodyAsg_stage cb sb
  have pc : c.phase = .assigned := by rw [fc]
  have ec : c.err = .none := by rw [fc]; exact eb
  have cc : c.common := common_of_fields cb (by rw [fc]) (by rw [fc]) (by rw [fc]) (by rw [fc])
    (errOk_of_none ec (by rw [pc]; simp))
  obtain ⟨d, hd, fd, sd⟩ := bodyEnc_stage cc sc
  have pd : d.phase = .done := by rw [fd]
  have ed : d.err = .none := by rw [fd]; exact ec
  have cd : d.common := common_of_fields cc (by rw [fd]) (by rw [fd]) (by rw [fd]) (by rw [fd])
    (errOk_of_none ed (by rw [pd]; simp))
  refine ⟨a, b, c, d, ha, hb, hc, hd, ?_, fa, fb, fc, fd, hn, ⟨ca, sa⟩, ⟨cb, sb⟩, ⟨cc, sc⟩, cd, sd⟩
  rw [bodyRun, ha, andThen_next, unlessFaulted, if_neg (by rw [pa]; simp), hb, andThen_next, unlessFaulted,
    if_neg (by rw [pb]; simp), hc, andThen_next, hd]

end Sys2Proof.Machine
end

