-- ==== Sys2Proof/Tests/Slice0.lean ====
section
/-! SUPPORT. Tests of the model against values taken from the spec (95_test_vectors.md and the examples of the rules), and a
witness for the hypotheses of every statement of Certificates/Slice0/Obligations.lean. -/

namespace Sys2Proof.Tests
open Sys2Proof.Machine

-- One theorem after the other: tests evaluated by the kernel in many threads at once need too much memory.
set_option Elab.async false

/-! ### Small states -/

/-- A block of 12 input bytes and 4-bit counters. -/
def small : Params := { freqW := 4, inCap := 12 }

/-- A block of 4 input bytes and 3-bit counters. -/
def tiny : Params := { freqW := 3, inCap := 4 }

/-- Phase `LOAD` with the given input. -/
def loaded (p : Params) (bs : List Byte) : State :=
  { State.resetWith p with inMem := bs.zipIdx.map fun x => (x.2, x.1), len := bs.length }

/-- The state after a command, the state itself where it stops. -/
def after (i : Instr) (s : State) : State :=
  match exec i s with
  | .next t => t
  | _ => s

/-- The state after a word. -/
def afterWord (w : Word) (s : State) : State :=
  match execWord w s with
  | .next t => t
  | _ => s

/-- What the host sees of `PHASE` and `ERR` (R34, R35). -/
def status (s : State) : Nat × Nat := (s.phase.code.toNat, s.err.code.toNat)

/-- The codeword of a symbol as bits, none where the ROM entry is invalid. -/
def rom (s : State) (b : Byte) : Option (List Bool) := (s.romAt b).map Codeword.bits

/-! ### Well-formedness refuses each ill-formed term (R6, R87) -/

theorem test_wellFormed_default : Params.default.wellFormed = true := by decide +kernel
theorem test_wellFormed_freqW_zero : (Params.mk 0 1).wellFormed = false := by decide
theorem test_wellFormed_inCap_zero : (Params.mk 4 0).wellFormed = false := by decide
theorem test_wellFormed_inCap_too_large : (Params.mk 4 16).wellFormed = false := by decide
theorem test_wellFormed_inCap_greatest : (Params.mk 4 15).wellFormed = true := by decide
theorem test_wellFormed_puts_not_ascii : (Pseudo.puts ['A', Char.ofNat 233]).wellFormed = false := by decide
theorem test_wellFormed_put : (Instr.put 0xFF).wellFormed = true := by decide

/-! ### Decoding and encoding, on words written bit by bit from R80 and R82 (V20) -/

theorem test_decode_nop : decode 0b0000000000000000#16 = .ok .nop := by decide
theorem test_decode_clr : decode 0b0000000100000000#16 = .ok .clr := by decide
theorem test_decode_put : decode 0b0000001001000001#16 = .ok (.put 65) := by decide
theorem test_decode_put_ends : decode 0b0000001000000000#16 = .ok (.put 0) ∧
    decode 0b0000001011111111#16 = .ok (.put 255) := by decide
theorem test_decode_cnt : decode 0b0000001100000000#16 = .ok .cnt := by decide
theorem test_decode_bld : decode 0b0000010000000000#16 = .ok .bld := by decide
theorem test_decode_asg : decode 0b0000010100000000#16 = .ok .asg := by decide
theorem test_decode_enc : decode 0b0000011000000000#16 = .ok .enc := by decide
theorem test_decode_run : decode 0b0000011100000000#16 = .ok .run := by decide
theorem test_decode_illegal : decode 0x0001 = .error (.nonzeroOperand 0 1) ∧ decode 0x0101 = .error (.nonzeroOperand 1 1) ∧
    decode 0x0341 = .error (.nonzeroOperand 3 0x41) ∧ decode 0x07FF = .error (.nonzeroOperand 7 0xFF) ∧
    decode 0x0800 = .error (.reservedOpcode 8) ∧ decode 0xFFFF = .error (.reservedOpcode 0xFF) := by decide
theorem test_encode : [Instr.nop, .clr, .put 65, .cnt, .bld, .asg, .enc, .run].map encode =
    [0x0000, 0x0100, 0x0241, 0x0300, 0x0400, 0x0500, 0x0600, 0x0700] := by decide
theorem test_decodeTableWord : decodeTableWord 16 0x0241 = some (.put 65) ∧ decodeTableWord 16 0x0800 = none := by decide

/-! ### The commands -/

/-- The example of R103: in `DONE` with `PAD = 4`. -/
theorem test_nop : exec .nop (after .run (loaded small [65, 66, 65, 66])) =
    .next (after .run (loaded small [65, 66, 65, 66])) := exec_nop _

/-- The example of R104. -/
theorem test_clr_from_fault : let s := after .clr (after .cnt (loaded small [])); status s = (0, 0) ∧ s.len = 0 := by decide +kernel
theorem test_clr_from_done : after .clr (after .run (loaded small [65, 66])) = State.resetWith small := by decide +kernel

/-- The example of R106, and P4: the third byte of a block with `IN_CAP = 2`. -/
theorem test_put : let s := after (.put 0x41) (State.resetWith small)
    s.inAt 0 = some 0x41 ∧ s.inAt 1 = none ∧ s.len = 1 ∧ status s = (0, 0) := by decide +kernel
theorem test_put_overflow : let s := after (.put 3) (loaded { freqW := 2, inCap := 2 } [1, 2])
    status s = (7, 6) ∧ s.len = 2 ∧ s.input? = some [1, 2] := by decide +kernel

/-- The counts of V6, and P3. -/
theorem test_cnt : let s := after .cnt (loaded small [0xFF, 0x00, 0xFF])
    s.freqAt 0 = 1 ∧ s.freqAt 255 = 2 ∧ s.freqAt 1 = 0 ∧ s.nsym = 2 ∧ status s = (1, 0) := by decide +kernel
theorem test_cnt_empty : let s := after .cnt (loaded small []); status s = (7, 1) ∧ s.nsym = 0 := by decide +kernel

/-- V4: a leaf against an internal fragment of equal weight; and P2, step 5. -/
theorem test_bld_tie : let s := after .bld (after .cnt (loaded small [65, 66, 67, 67]))
    (s.node.drop 3).map (fun c => (c.1, c.2.right, c.2.left, c.2.weight)) = [(3, 0, 1, 2), (4, 2, 3, 4)] ∧
    s.nnode = 5 ∧ s.root = 4 ∧ s.nseq = 5 ∧ s.mq = [] := by decide +kernel
theorem test_bld_unequal : let s := after .bld (after .cnt (loaded small [65, 65, 66]))
    s.nodeAt 0 = some { leaf := true, sym := 65, left := 0, right := 0, weight := 2, label := none } ∧
    s.nodeAt 2 = some { leaf := false, sym := 0, left := 0, right := 1, weight := 3, label := none } ∧
    s.nodeAt 3 = none ∧ status s = (2, 0) := by decide +kernel

/-- The codes of R173, and V1's single leaf. -/
theorem test_asg : let s := after .asg (after .bld (after .cnt (loaded small [97, 98, 114, 97, 99, 97, 100, 97, 98, 114, 97])))
    rom s 97 = some [true] ∧ rom s 98 = some [false, false, true] ∧ rom s 99 = some [false, true, true] ∧
    rom s 100 = some [false, true, false] ∧ rom s 114 = some [false, false, false] ∧ rom s 65 = none := by decide +kernel
theorem test_asg_single : let s := after .asg (after .bld (after .cnt (loaded small [65])))
    s.labelAt 0 = some { depth := 0, word := { clen := 1, code := 0 } } ∧ rom s 65 = some [false] ∧
    status s = (3, 0) := by decide +kernel

/-- V10, and V5 with no padding. -/
theorem test_enc : let s := after .enc (after .asg (after .bld (after .cnt (loaded small [65, 65, 66, 66, 67, 68]))))
    s.output? = some [0x50, 0xE0] ∧ s.totalBits = 12 ∧ s.pad = 4 ∧ s.outLen = 2 ∧ status s = (4, 0) := by decide +kernel
theorem test_enc_no_padding :
    let s := after .enc (after .asg (after .bld (after .cnt (loaded small [65, 66, 65, 66, 65, 66, 65, 66]))))
    s.output? = some [0xAA] ∧ s.totalBits = 8 ∧ s.pad = 0 := by decide +kernel

/-- V11, the deep tree, and V9. -/
theorem test_run : let s := after .run (loaded small [65, 66, 67, 67, 68, 68, 68, 69, 69, 69, 69, 69])
    s.output? = some [0x10, 0x25, 0x5F, 0x80] ∧ s.totalBits = 25 ∧ s.pad = 7 ∧
    rom s 65 = some [false, false, false, true] ∧ s.treeText s.root = some "((((66 65) 67) 68) 69)".toList := by decide +kernel
theorem test_run_mississippi :
    let s := after .run (loaded small [0x6D, 0x69, 0x73, 0x73, 0x69, 0x73, 0x73, 0x69, 0x70, 0x70, 0x69])
    s.output? = some [0x66, 0x62, 0x40] ∧ s.totalBits = 21 ∧ s.pad = 3 ∧ status s = (4, 0) := by decide +kernel

/-! ### Dispatch, fault priority and the step (V21) -/

theorem test_bad_sequence : status (after .bld (loaded small [])) = (7, 5) ∧
    status (after .enc (loaded small [1, 2, 3])) = (7, 5) ∧
    status (after (.put 65) (after .cnt (loaded tiny [1, 2, 3, 4]))) = (7, 5) := by decide +kernel
theorem test_illegal_before_sequence : status (afterWord 0x0800 (after .run (loaded small [65]))) = (7, 4) := by decide +kernel
theorem test_fault_keeps_first : let s := after .run (loaded small [])
    status s = (7, 1) ∧ afterWord 0x0800 s = s ∧ afterWord 0x0241 s = s ∧ afterWord 0x0101 s = s ∧
    afterWord 0x0100 s = State.resetWith small := by decide +kernel
theorem test_step_fetch : step (State.reset.withFetchWord 16 0x0241) = exec (.put 65) State.reset := by rfl

/-! ### The merge queue (V22), codewords (V23), packing (V24) -/

/-- Five insertions of V22. -/
def queue22 : State :=
  (((((State.resetWith small).mqInsert 0 5).mqInsert 1 2).mqInsert 2 1).mqInsert 3 1).mqInsert 4 2

/-- One extraction: the pair it returns and the state after it. -/
def extract (s : State) : (Nat × Nat) × State :=
  match s.mqExtractMin with
  | some x => ((x.1.node, x.1.weight), x.2)
  | none => ((0, 0), s)

theorem test_queue : let a := extract queue22; let b := extract a.2; let c := extract (b.2.mqInsert 5 2); let d := extract c.2
    queue22.mqSize = 5 ∧ queue22.nseq = 5 ∧ a.1 = (2, 1) ∧ b.1 = (3, 1) ∧ c.1 = (1, 2) ∧ d.1 = (4, 2) := by decide +kernel
theorem test_codeword : Codeword.ofBits [false, true, true] = ⟨3, 3⟩ ∧ Codeword.ofBits [false, false, false, true] = ⟨4, 1⟩ ∧
    (Codeword.ofBits [false, true, true]).append true = ⟨4, 7⟩ ∧ Codeword.ofBits [false] = ⟨1, 0⟩ := by decide +kernel
theorem test_pack : packBits [true, true, true, true, false, false, false, false, true, false, true, false, true, false, true,
    false] 2 = [0xF0, 0xAA] ∧ packBits [false, false, false, false, false, false, false, true] 1 = [0x01] := by decide +kernel
theorem test_pad : (List.range 8).map padOf = [0, 7, 6, 5, 4, 3, 2, 1] := by decide

/-! ### The serializer (V8, V25, V26, P1) and the listing notation (R86, R87) -/

theorem test_dec : dec 0 = ['0'] ∧ dec 7 = ['7'] ∧ dec 10 = ['1', '0'] ∧ dec 255 = ['2', '5', '5'] := by decide
theorem test_tree_text : let s := after .bld (after .cnt (loaded small [97, 98, 114, 97, 99, 97, 100, 97, 98, 114, 97]))
    s.treeText s.root = some "(((114 98) (100 99)) 97)".toList := by decide +kernel
theorem test_artifact : ((after .run (loaded small [65, 66, 65, 66])).artifact ("t.txt".toList.map asciiByte)).map Artifact.bytes =
    some [0x74, 0x2E, 0x74, 0x78, 0x74, 0x0D, 0x0A, 0x28, 0x36, 0x36, 0x20, 0x36, 0x35, 0x29, 0x0D, 0x0A, 0x34, 0x0D, 0x0A, 0xA0] := by
  decide +kernel
theorem test_parse : parse "(66 65)".toList = some (.node2 (.leaf 66) (.leaf 65)) ∧
    parse "(65)".toList = some (.node1 (.leaf 65)) ∧ parse "(65 66".toList = none ∧ parse "( 65 66)".toList = none ∧
    parse "256".toList = none ∧ parse [] = none := by decide +kernel
theorem test_decode_artifact : decodeArtifact (.node2 (.leaf 66) (.leaf 65)) 4 [0xA0] = some [65, 66, 65, 66] ∧
    decodeArtifact (.leaf 65) 4 [0, 0] = some (List.replicate 12 65) := by decide +kernel
theorem test_listing : Assembler.listing ["PUT 'A' ; first".toList, "PUT 0x42".toList, "PUT 255".toList, "PUTS \"AB\"".toList,
    "STEPS".toList] = some [.put 65, .put 66, .put 255, .put 65, .put 66, .cnt, .bld, .asg, .enc] := by decide +kernel
theorem test_compress : (Assembler.line "COMPRESS 'A', 0x42".toList).map assemble = some [0x0100, 0x0241, 0x0242, 0x0700] := by
  decide +kernel

/-! ### Witnesses: sound states in every phase -/

/-- Four bytes that fill `IN`: `ABAB`. -/
def full : State := loaded tiny [65, 66, 65, 66]

/-- One byte. -/
def one : State := loaded tiny [65]

/-- No byte. -/
def empty : State := loaded tiny []

theorem inv_of_stage {s : State} {p : Phase} (hc : s.common) (h : s.stage p) (hp : s.phase = p) : s.Inv :=
  ⟨hc, .inl (by rw [hp]; exact h)⟩

theorem load_sound (bs : List Byte) (hl : bs.length ≤ 4) :
    (loaded tiny bs).common ∧ (loaded tiny bs).stage .load ∧ (loaded tiny bs).Inv := by
  have hc : (loaded tiny bs).common := by
    refine ⟨show tiny.wellFormed = true by decide, ?_, hl, rfl, errOk_of_none rfl (by simp [loaded, State.resetWith])⟩
    simp [listsExactly, loaded, Function.comp_def, List.range_eq_range']
  have hs : (loaded tiny bs).stage .load := ⟨⟨rfl, rfl⟩, ⟨rfl, rfl, rfl, rfl⟩, ⟨by simp [loaded, State.resetWith], rfl⟩, rfl, rfl, rfl, rfl⟩
  exact ⟨hc, hs, inv_of_stage hc hs rfl⟩

theorem after_eq {i : Instr} {s t : State} (h : exec i s = .next t) : after i s = t := by rw [after, h]

/-- The states after each stage of a run from `LOAD` are sound and in the stage's phase. -/
theorem stages_sound (bs : List Byte) (hl : bs.length ≤ 4) (h0 : bs ≠ []) :
    let a := after .cnt (loaded tiny bs); let b := after .bld a; let c := after .asg b; let d := after .enc c
    (a.Inv ∧ a.phase = .counted) ∧ (b.Inv ∧ b.phase = .built) ∧ (c.Inv ∧ c.phase = .assigned) ∧ d.Inv ∧ d.phase = .done := by
  obtain ⟨hcm, hst, -⟩ := load_sound bs hl
  have hlen : (loaded tiny bs).len ≠ 0 := fun h => h0 (List.eq_nil_of_length_eq_zero h)
  obtain ⟨a, b, c, d, ha, hb, hc, hd, -, fa, fb, fc, fd, -, ⟨ca, sa⟩, ⟨cb, sb⟩, ⟨cc, sc⟩, cd, sd⟩ :=
    bodyRun_stages hcm rfl hst hlen
  have pa : a.phase = .counted := by rw [fa]
  have pb : b.phase = .built := by rw [fb]
  have pc : c.phase = .assigned := by rw [fc]
  have pd : d.phase = .done := by rw [fd]
  have ea : after .cnt (loaded tiny bs) = a := after_eq (by rw [exec_allowed (by simp [loaded, State.resetWith]) rfl]; exact ha)
  have eb : after .bld a = b := after_eq (by rw [exec_allowed (by simp [pa]) (by simp [allowed, pa])]; exact hb)
  have ec : after .asg b = c := after_eq (by rw [exec_allowed (by simp [pb]) (by simp [allowed, pb])]; exact hc)
  have ed : after .enc c = d := after_eq (by rw [exec_allowed (by simp [pc]) (by simp [allowed, pc])]; exact hd)
  simp only [ea, eb, ec, ed]
  exact ⟨⟨inv_of_stage ca sa pa, pa⟩, ⟨inv_of_stage cb sb pb, pb⟩, ⟨inv_of_stage cc sc pc, pc⟩, inv_of_stage cd sd pd, pd⟩

/-- The states after the stages, from `ABAB`. -/
def counted : State := after .cnt full
def built : State := after .bld counted
def assigned : State := after .asg built
def done : State := after .enc assigned

/-- The states after the stages, from one byte. -/
def counted1 : State := after .cnt one
def built1 : State := after .bld counted1
def assigned1 : State := after .asg built1
def done1 : State := after .enc assigned1

/-- A sound state in phase `FAULT`. -/
def faulted : State := empty.raise .emptyInput

theorem faulted_sound : faulted.Inv ∧ faulted.phase = .fault := by
  obtain ⟨⟨h1, h2, h3, h4, -⟩, hs, -⟩ := load_sound [] (by decide)
  refine ⟨⟨⟨h1, h2, h3, h4, ?_⟩, .inr ⟨rfl, .load, hs⟩⟩, rfl⟩
  refine ⟨⟨?_, fun h => absurd rfl h⟩, ?_, ?_⟩ <;> simp [faulted, State.raise, FaultKind.err]

theorem full_sound : full.Inv ∧ full.phase = .load ∧ full.len = full.params.inCap ∧ 1 ≤ full.len :=
  ⟨(load_sound _ (by decide)).2.2, rfl, rfl, by decide⟩
theorem one_sound : one.Inv ∧ one.phase = .load ∧ one.len = 1 := ⟨(load_sound _ (by decide)).2.2, rfl, rfl⟩
theorem empty_sound : empty.Inv ∧ empty.phase = .load ∧ empty.len = 0 := ⟨(load_sound _ (by decide)).2.2, rfl, rfl⟩
theorem full_stages : (counted.Inv ∧ counted.phase = .counted) ∧ (built.Inv ∧ built.phase = .built) ∧
    (assigned.Inv ∧ assigned.phase = .assigned) ∧ done.Inv ∧ done.phase = .done :=
  stages_sound [65, 66, 65, 66] (by decide) (by simp)
theorem one_stages : (counted1.Inv ∧ counted1.phase = .counted) ∧ (built1.Inv ∧ built1.phase = .built) ∧
    (assigned1.Inv ∧ assigned1.phase = .assigned) ∧ done1.Inv ∧ done1.phase = .done :=
  stages_sound [65] (by decide) (by simp)

theorem illegal_word (w : Word) (h : 8 ≤ w.toNat / 256 ∨ w.toNat / 256 ≠ 2 ∧ w.toNat % 256 ≠ 0) : ∀ i, decode w ≠ .ok i :=
  (decode_illegal_iff w).2 h

/-! ### Witnesses: one theorem for each statement that has hypotheses -/

theorem witness_DecodeEncodeAgree : (Instr.put 0xFF).wellFormed = true ∧ decode 0x02FF = .ok (.put 0xFF) := by decide

theorem witness_IllegalWords : ((∀ i, decode 0x0800 ≠ .ok i) ∧ full.phase ≠ .fault) ∧
    ((∀ i, decode 0x0001 ≠ .ok i) ∧ full.phase ≠ .fault) ∧ (∀ i, decode 0x07FF ≠ .ok i) ∧ full.phase ≠ .fault :=
  ⟨⟨illegal_word _ (by decide), by decide⟩, ⟨illegal_word _ (by decide), by decide⟩, illegal_word _ (by decide), by decide⟩

theorem witness_StepRunsTheDecodedCommand :
    (({ full with cmds := [0x0300] } : State).cmds = 0x0300 :: [] ∧ decode 0x0300 = .ok .cnt) ∧
    (({ faulted with cmds := [0x0800, 0] } : State).cmds = 0x0800 :: [0] ∧ (∀ i, decode 0x0800 ≠ .ok i) ∧ faulted.phase = .fault) ∧
    (({ full with cmds := [0xFFFF] } : State).cmds = 0xFFFF :: [] ∧ (∀ i, decode 0xFFFF ≠ .ok i) ∧ full.phase ≠ .fault) :=
  ⟨⟨rfl, by decide⟩, ⟨rfl, illegal_word _ (by decide), rfl⟩, rfl, illegal_word _ (by decide), by decide⟩

theorem witness_StepConsumesOneCommand : full.cmds = [] ∧ step { full with cmds := [0x0100, 0] } = .next { full.clear with cmds := [0] } :=
  ⟨rfl, rfl⟩

theorem witness_DispatchOrderAndPhases : faulted.phase = .fault ∧ (0x0241 : Word) ≠ 0x0100 ∧
    (full.phase ≠ .fault ∧ ∀ i, decode 0x0101 ≠ .ok i) ∧
    (full.phase ≠ .fault ∧ decode 0x0400 = .ok .bld ∧ allowed .bld full.phase = false) ∧
    full.phase ≠ .fault ∧ decode 0x0300 = .ok .cnt ∧ allowed .cnt full.phase = true :=
  ⟨rfl, by decide, ⟨by decide, illegal_word _ (by decide)⟩, by decide, by decide⟩

theorem witness_PhaseTransitions : exec .cnt empty = .next (empty.raise .emptyInput) ∧ exec .clr full = .next full.clear :=
  ⟨rfl, rfl⟩

theorem witness_ClrClearsEverything : (1 : Byte) ≠ 0 ∧ (255 : Byte) ≠ 0 ∧ faulted.phase = .fault ∧
    (exec .run faulted = .next faulted ∧ Instr.run ≠ .clr) ∧ empty.Inv ∧ empty.phase = .load ∧ empty.len = 0 :=
  ⟨by decide, by decide, rfl, ⟨rfl, by decide⟩, empty_sound⟩

theorem witness_PutAppendsOneByte :
    ((loaded tiny [1, 2, 3]).len ≤ tiny.inCap ∧ (loaded tiny [1, 2, 3]).phase = .load ∧ (loaded tiny [1, 2, 3]).len < tiny.inCap ∧
      Memory.wf (loaded tiny [1, 2, 3]).inMem ∧ tiny.wellFormed = true) ∧
    (full.len ≤ full.params.inCap ∧ full.phase = .load ∧ full.len = full.params.inCap) ∧
    (counted1.len ≤ counted1.params.inCap ∧ counted1.phase ≠ .load ∧ counted1.phase ≠ .fault) := by
  refine ⟨by decide, by decide, ?_⟩
  decide +kernel

theorem witness_RunIsTheFourCommands : (counted.phase ≠ .load ∧ counted.phase ≠ .fault) ∧ (empty.phase = .load ∧ empty.len = 0) ∧
    exec .run empty = .next (empty.raise .emptyInput) ∧ (empty.raise .emptyInput).phase = .fault :=
  ⟨by rw [full_stages.1.2]; decide, ⟨rfl, rfl⟩, rfl, rfl⟩

theorem witness_RunCompletes : (full.Inv ∧ full.phase = .load ∧ 1 ≤ full.len) ∧ one.Inv ∧ one.phase = .load ∧ 1 ≤ one.len :=
  ⟨⟨full_sound.1, rfl, by decide⟩, one_sound.1, rfl, by decide⟩

theorem witness_EachRegisterHasItsWriters : exec .nop full = .next full ∧ Instr.nop ≠ .clr ∧ (∀ b, Instr.nop ≠ .put b) ∧
    Instr.nop ≠ .cnt ∧ Instr.nop ≠ .bld ∧ Instr.nop ≠ .asg ∧ Instr.nop ≠ .enc ∧ Instr.nop ≠ .run ∧ full.phase ≠ .fault :=
  ⟨exec_nop _, by decide, by simp, by decide, by decide, by decide, by decide, by decide, by decide⟩

theorem witness_MemoryFrame : (exec (.put 7) one = .next (after (.put 7) one) ∧ Instr.put 7 ≠ .clr ∧ (0 : Nat) ≠ one.len) ∧
    (exec .nop done = .next done ∧ Instr.nop ≠ .clr) ∧ exec .clr full = .next full.clear :=
  ⟨⟨rfl, by decide, by decide⟩, ⟨exec_nop _, by decide⟩, rfl⟩

theorem witness_MemoriesStayCanonical : Memory.wf full.inMem ∧ Memory.wf full.outMem ∧ exec .nop full = .next full :=
  ⟨by decide, by decide, exec_nop _⟩

theorem witness_ResultsStandInDone : done.phase = .done ∧ Instr.nop ≠ .clr ∧ Instr.run ≠ .clr :=
  ⟨full_stages.2.2.2.2, by decide, by decide⟩

theorem witness_FaultConditions : (full.Inv ∧ full.phase ≠ .fault) ∧ (empty.Inv ∧ empty.phase ≠ .fault) ∧
    (∀ i, decode 0x0800 ≠ .ok i) ∧ (decode 0x0400 = .ok .bld ∧ allowed .bld full.phase = false) ∧
    (empty.phase = .load ∧ empty.len = 0 ∧ decode 0x0300 = .ok .cnt) ∧
    full.phase = .load ∧ full.len = full.params.inCap ∧ decode 0x0241 = .ok (.put 0x41) :=
  ⟨⟨full_sound.1, by decide⟩, ⟨empty_sound.1, by decide⟩, illegal_word _ (by decide), by decide, ⟨rfl, rfl, by decide⟩, rfl, rfl,
    by decide⟩

theorem witness_FaultsArePrecise : full.phase ≠ .fault ∧ execWord 0x0800 full = .next (full.raise .illegalCommand) ∧
    (full.raise .illegalCommand).phase = .fault := ⟨by decide, rfl, rfl⟩

theorem witness_FaultIsLeftByClrOnly : faulted.phase = .fault ∧ (0x0700 : Word) ≠ 0x0100 := ⟨rfl, by decide⟩

theorem witness_HostCodesNeverAppear : State.reset.err.code ≠ 2 ∧ State.reset.err.code ≠ 3 ∧ step State.reset = .next State.reset :=
  ⟨by decide, by decide, rfl⟩

theorem witness_EmptyInputFailsFast : (empty.phase = .load ∧ empty.len = 0) ∧
    ({ empty with phase := .counted } : State).phase = .counted ∧ ({ empty with phase := .counted } : State).nsym = 0 :=
  ⟨⟨rfl, rfl⟩, rfl, rfl⟩

theorem witness_CntCounts : (full.Inv ∧ full.phase = .load ∧ 1 ≤ full.len) ∧ (one.Inv ∧ one.phase = .load ∧ 1 ≤ one.len) ∧
    (empty.phase = .load ∧ empty.len = 0) ∧ built.phase ≠ .load ∧ built.phase ≠ .fault :=
  ⟨⟨full_sound.1, rfl, by decide⟩, ⟨one_sound.1, rfl, by decide⟩, ⟨rfl, rfl⟩, by rw [full_stages.2.1.2]; decide⟩

theorem witness_CountProperties : (counted.Inv ∧ counted.phase ≠ .load ∧ counted.phase ≠ .fault) ∧
    (done1.Inv ∧ done1.phase ≠ .load ∧ done1.phase ≠ .fault) ∧
    (full.Inv ∧ (loaded tiny [66, 66, 65, 65]).Inv ∧ full.phase = .load ∧ (loaded tiny [66, 66, 65, 65]).phase = .load ∧ 1 ≤ full.len ∧
      full.bytes.Perm (loaded tiny [66, 66, 65, 65]).bytes ∧ exec .cnt full = .next counted ∧
      exec .cnt (loaded tiny [66, 66, 65, 65]) = .next (after .cnt (loaded tiny [66, 66, 65, 65]))) :=
  ⟨⟨full_stages.1.1, by rw [full_stages.1.2]; decide⟩, ⟨one_stages.2.2.2.1, by rw [one_stages.2.2.2.2]; decide⟩,
    full_sound.1, (load_sound _ (by decide)).2.2, rfl, rfl, by decide, by decide, rfl, rfl⟩

theorem witness_ExtractMinTakesTheLeast : queue22.mq ≠ [] ∧ (queue22.mq.map Entry.seq).Nodup ∧
    State.mqExtractMin { queue22 with mq := queue22.mq.erase ⟨1, 2, 2⟩ } =
      some (⟨1, 3, 3⟩, { queue22 with mq := (queue22.mq.erase ⟨1, 2, 2⟩).erase ⟨1, 3, 3⟩ }) := by decide +kernel

theorem witness_QueueSizeAndEmpty : queue22.mqExtractMin = some (⟨1, 2, 2⟩, { queue22 with mq := queue22.mq.erase ⟨1, 2, 2⟩ }) := by
  decide +kernel

theorem witness_BldCompletes : (counted.Inv ∧ counted.phase = .counted) ∧ counted1.Inv ∧ counted1.phase = .counted :=
  ⟨full_stages.1, one_stages.1⟩

theorem witness_SeedingInAscendingOrder : counted.Inv ∧ counted.phase = .counted ∧ counted.occurring[1]? = some 66 :=
  ⟨full_stages.1.1, full_stages.1.2, by decide +kernel⟩

/-- A queue of two entries and an arena with one entry free. -/
def twoLeft : State :=
  { State.resetWith tiny with nnode := 510, nseq := 510, mq := [⟨2, 508, 508⟩, ⟨2, 509, 509⟩] }

theorem witness_OneMerge : twoLeft.nnode < 511 ∧
    twoLeft.mqExtractMin = some (⟨2, 508, 508⟩, { twoLeft with mq := [⟨2, 509, 509⟩] }) ∧
    State.mqExtractMin { twoLeft with mq := [⟨2, 509, 509⟩] } = some (⟨2, 509, 509⟩, { twoLeft with mq := [] }) := by
  decide +kernel

/-- For the statements on finished arenas: two symbols and one, in each of the three phases. -/
theorem witness_TreeShape_TreeWeights_TreeText : (built.Inv ∧ built.phase = .built) ∧ (assigned.Inv ∧ assigned.phase = .assigned) ∧
    (done.Inv ∧ done.phase = .done) ∧ (built1.Inv ∧ built1.phase = .built) ∧ (assigned1.Inv ∧ assigned1.phase = .assigned) ∧
    (done1.Inv ∧ done1.phase = .done) :=
  ⟨full_stages.2.1, full_stages.2.2.1, full_stages.2.2.2, one_stages.2.1, one_stages.2.2.1, one_stages.2.2.2⟩

theorem witness_TreeShape : built.nsym = 2 ∧ built.nnode = 3 ∧ built.root = 2 ∧
    (built.nodeAt 2).map (fun n => (n.leaf, n.left, n.right)) = some (false, 1, 0) := by decide +kernel

theorem witness_MergesJoinTheTwoLeast : counted.Inv ∧ counted.phase = .counted := full_stages.1

theorem witness_TreeWeights : built.nsym ≤ 2 ∧ 2 < built.nnode ∧ (built.nodeAt 0).map Node.leaf = some true ∧
    (built.nodeAt 2).map Node.leaf = some false := by decide +kernel

theorem witness_SingleSymbol : counted1.Inv ∧ counted1.phase = .counted ∧ counted1.occurring = [65] :=
  ⟨one_stages.1.1, one_stages.1.2, by decide +kernel⟩

/-- For the statements on assigned codes: two symbols and one, in both phases. -/
theorem witness_CodeIsOptimal : (assigned.Inv ∧ assigned.phase = .assigned ∧ 2 ≤ assigned.nsym) ∧
    (done.Inv ∧ done.phase = .done ∧ 2 ≤ done.nsym) ∧ (done1.Inv ∧ done1.phase = .done ∧ done1.nsym = 1) ∧
    prefixFree assigned.occurring (fun b => if b = 65 then [true] else [false]) := by
  refine ⟨⟨full_stages.2.2.1.1, full_stages.2.2.1.2, by decide +kernel⟩,
    ⟨full_stages.2.2.2.1, full_stages.2.2.2.2, by decide +kernel⟩, ⟨one_stages.2.2.2.1, one_stages.2.2.2.2, by decide +kernel⟩, ?_⟩
  have e : assigned.occurring = [65, 66] := by decide +kernel
  rw [e]
  unfold prefixFree
  decide +kernel

theorem witness_AsgCompletes : (built.Inv ∧ built.phase = .built) ∧ built1.Inv ∧ built1.phase = .built :=
  ⟨full_stages.2.1, one_stages.2.1⟩

theorem witness_CodewordsFollowTheTree : assigned.Inv ∧ assigned.phase = .assigned ∧
    (assigned.nodeAt assigned.root).map (fun n => (n.leaf, n.label.isSome)) = some (false, true) ∧
    (done1.nodeAt done1.root).map (fun n => (n.leaf, n.label.isSome)) = some (true, true) :=
  ⟨full_stages.2.2.1.1, full_stages.2.2.1.2, by decide +kernel, by decide +kernel⟩

theorem witness_CodewordBounds : (assigned.Inv ∧ assigned.phase = .assigned ∧ 2 ≤ assigned.nsym ∧
      (assigned.nodeAt 0).map (fun n => (n.leaf, n.label.isSome)) = some (true, true)) ∧
    assigned1.Inv ∧ assigned1.phase = .assigned ∧ assigned1.nsym = 1 ∧
      (assigned1.nodeAt 0).map (fun n => (n.leaf, n.label.isSome)) = some (true, true) :=
  ⟨⟨full_stages.2.2.1.1, full_stages.2.2.1.2, by decide +kernel, by decide +kernel⟩,
    one_stages.2.2.1.1, one_stages.2.2.1.2, by decide +kernel, by decide +kernel⟩

theorem witness_CodeIsPrefixFree : (done.Inv ∧ done.phase = .done ∧ 2 ≤ done.nsym ∧ (65 : Byte) ∈ done.occurring) ∧
    assigned1.Inv ∧ assigned1.phase = .assigned ∧ assigned1.nsym = 1 ∧ (65 : Byte) ∈ assigned1.occurring :=
  ⟨⟨full_stages.2.2.2.1, full_stages.2.2.2.2, by decide +kernel, by decide +kernel⟩,
    one_stages.2.2.1.1, one_stages.2.2.1.2, by decide +kernel, by decide +kernel⟩

theorem witness_RomHoldsTheLeaves : done.Inv ∧ done.phase = .done ∧
    (done.nodeAt 1).map (fun n => (n.leaf, n.label.isSome)) = some (true, true) ∧ exec .nop done = .next done ∧ Instr.nop ≠ .clr :=
  ⟨full_stages.2.2.2.1, full_stages.2.2.2.2, by decide +kernel, exec_nop _, by decide⟩

theorem witness_CodewordStorage : (List.replicate 255 true).length ≤ 255 ∧ (List.replicate 254 true).length < 255 ∧
    (254 : Nat) < (List.replicate 255 true).length ∧ (⟨255, 2 ^ 255 - 1⟩ : Codeword).clen ≤ 255 ∧
    (⟨255, 2 ^ 255 - 1⟩ : Codeword).code.toNat < 2 ^ 255 := by decide +kernel

theorem witness_EncEncodes : (assigned.Inv ∧ assigned.phase = .assigned) ∧ assigned1.Inv ∧ assigned1.phase = .assigned :=
  ⟨full_stages.2.2.1, one_stages.2.2.1⟩

theorem witness_ResultRegisters : (done.Inv ∧ done.phase = .done) ∧ (done1.Inv ∧ done1.phase = .done) ∧
    exec .nop done = .next done ∧ Instr.nop ≠ .clr := ⟨full_stages.2.2.2, one_stages.2.2.2, exec_nop _, by decide⟩

theorem witness_EncodingProperties : (done.Inv ∧ done.phase = .done) ∧ (∀ b ∈ [65, 66], b ∈ done.occurring) ∧
    (done1.Inv ∧ done1.phase = .done) :=
  ⟨full_stages.2.2.2, by decide +kernel, one_stages.2.2.2⟩

theorem witness_DecimalNumerals : 255 ≤ 255 ∧ 0 ≤ 255 ∧ (dec 0).head? = some '0' := by decide

theorem witness_TreeTextEquations : built.Inv ∧ built.phase = .built ∧ 2 < built.nnode ∧ 0 < built.nnode :=
  ⟨full_stages.2.1.1, full_stages.2.1.2, by decide +kernel, by decide +kernel⟩

theorem witness_ParseReadsTheTreeBack_RoundTrip : (done.Inv ∧ done.phase = .done) ∧ done1.Inv ∧ done1.phase = .done :=
  ⟨full_stages.2.2.2, one_stages.2.2.2⟩

theorem witness_ArtifactLayout_EndOfARun : (done.Inv ∧ done.phase = .done) ∧ (faulted.Inv ∧ faulted.phase = .fault) ∧
    full.Inv ∧ full.phase ≠ .done ∧ full.phase ≠ .fault :=
  ⟨full_stages.2.2.2, faulted_sound, full_sound.1, by decide⟩

theorem witness_PseudoInstructions : tiny.wellFormed = true ∧ ([1, 2, 3, 4] : List Byte) ≠ [] ∧
    ([1, 2, 3, 4] : List Byte).length ≤ tiny.inCap ∧ ([7] : List Byte) ≠ [] ∧ ([7] : List Byte).length ≤ tiny.inCap := by decide

/-- Sound states in all six phases, for the statements on the whole machine. -/
theorem witness_InvKeptByEveryStep : empty.Inv ∧ full.Inv ∧ counted.Inv ∧ built.Inv ∧ assigned.Inv ∧ done.Inv ∧ faulted.Inv ∧
    step { full with cmds := [0x0300] } = .next counted :=
  ⟨empty_sound.1, full_sound.1, full_stages.1.1, full_stages.2.1.1, full_stages.2.2.1.1, full_stages.2.2.2.1, faulted_sound.1, rfl⟩

theorem witness_EveryWord_Widths_Codes_Values : full.Inv ∧ done.Inv ∧ faulted.Inv ∧
    (full.phase = .load ∨ full.phase = .counted ∨ full.phase = .built) :=
  ⟨full_sound.1, full_stages.2.2.2.1, faulted_sound.1, .inl rfl⟩

end Sys2Proof.Tests
end

/-! ## Scope (00_scope.md): the end of a run (R18) and the widths of the registers (R20) -/

section
namespace Sys2Proof.Machine

/-! ### The lines of R41, taken apart -/

/-- Every sound state, a faulted one too (R228), meets one of R41's lines. -/
theorem State.Inv.exists_stage {s : State} (h : s.Inv) : ∃ p, s.stage p := by
  obtain ⟨-, hst | ⟨-, hst⟩⟩ := h
  · exact ⟨_, hst⟩
  · exact hst

theorem State.Inv.stage_done {s : State} (h : s.Inv) (hp : s.phase = .done) : s.stage .done := by
  obtain ⟨-, hst | ⟨hf, -⟩⟩ := h
  · exact hp ▸ hst
  · rw [hp] at hf; cases hf

/-- In every line of R41 each group of registers is at reset, or its stage command and those before it have written it. -/
theorem stage_groups {s : State} {p : Phase} (h : s.stage p) :
    (s.noCounts ∨ s.counts) ∧ (s.noTree ∨ s.counts ∧ s.hasTree) ∧ (s.noCodes ∨ s.counts ∧ s.hasTree ∧ s.codes) ∧
      (s.noOutput ∨ s.counts ∧ s.hasTree ∧ s.codes ∧ s.output) := by
  cases p with
  | load =>
    obtain ⟨hc, ht, hk, ho⟩ := h
    exact ⟨.inl hc, .inl ht, .inl hk, .inl ho⟩
  | counted =>
    obtain ⟨hc, ht, hk, ho⟩ := h
    exact ⟨.inr hc, .inl ht, .inl hk, .inl ho⟩
  | built =>
    obtain ⟨hc, ht, -, hk, ho⟩ := h
    exact ⟨.inr hc, .inr ⟨hc, ht⟩, .inl hk, .inl ho⟩
  | assigned =>
    obtain ⟨hc, ht, -, hk, ho⟩ := h
    exact ⟨.inr hc, .inr ⟨hc, ht⟩, .inr ⟨hc, ht, hk⟩, .inl ho⟩
  | done =>
    obtain ⟨hc, ht, -, hk, ho⟩ := h
    exact ⟨.inr hc, .inr ⟨hc, ht⟩, .inr ⟨hc, ht, hk⟩, .inr ⟨hc, ht, hk, ho⟩⟩
  | fault => exact h.elim

/-- `IN` holds a value exactly below `LEN` (R22, R60). -/
theorem State.common.inMem_listed {s : State} (h : s.common) : listsExactly s.inMem s.len := by
  obtain ⟨-, hin, -⟩ := h
  exact hin

/-! ### The end of a run (R18) -/

theorem artifact_eq_none {s : State} (hp : s.phase ≠ .done) (name : List Byte) : s.artifact name = none := by
  simp [State.artifact, hp]

/-- A finished arena has its text (R206). -/
theorem exists_treeText_root {s : State} (ht : TreeFacts s) : ∃ text, s.treeText s.root = some text := by
  have hroot := ht.root
  obtain ⟨t, -, he⟩ := treeIn_spec ht s.root (by omega)
  exact ⟨t.text, by rw [State.treeText, treeTextIn_eq, he _ (Nat.lt_succ_self _), Option.map_some]⟩

/-- In `DONE` the host has the artifact (R18, R212). -/
theorem exists_artifact {s : State} (h : s.Inv) (hp : s.phase = .done) (name : List Byte) :
    ∃ a, s.artifact name = some a := by
  obtain ⟨hc, ht, -, -, ws, -, -, -, -, hlist, -⟩ := h.stage_done hp
  obtain ⟨hcm, -⟩ := h
  obtain ⟨text, htext⟩ := exists_treeText_root (treeFacts_of_hasTree ht (counts_nsym_pos hcm.inMem_listed hc))
  exact ⟨_, by rw [State.artifact, if_pos hp, htext, output?_eq hlist]⟩

theorem status_fault {s : State} (hp : s.phase = .fault) (name : List Byte) : s.status name = .failed s.err := by
  simp [State.status, hp]

theorem status_complete {s : State} {name : List Byte} {a : Artifact} (hp : s.phase ≠ .fault)
    (ha : s.artifact name = some a) : s.status name = .complete a := by
  simp [State.status, hp, ha]

theorem status_unfinished {s : State} {name : List Byte} (hp : s.phase ≠ .fault) (ha : s.artifact name = none) :
    s.status name = .unfinished := by
  simp [State.status, hp, ha]

/-- `ERR` is not `NONE` in phase `FAULT` (R35). -/
theorem State.Inv.err_ne_none {s : State} (h : s.Inv) (hp : s.phase = .fault) : s.err ≠ .none := by
  obtain ⟨⟨-, -, -, -, herr, -⟩, -⟩ := h
  exact fun hn => herr.1 hn hp

/-- Settles O52, from the artifact's existence in `DONE` and from R35. -/
theorem endOfARun : Obligations.EndOfARun := by
  intro s name h
  refine ⟨fun hp => ?_, fun hp => ⟨status_fault hp name, h.err_ne_none hp⟩, fun hd hf => ?_⟩
  · obtain ⟨a, ha⟩ := exists_artifact h hp name
    exact ⟨a, status_complete (by rw [hp]; simp) ha⟩
  · exact status_unfinished hf (artifact_eq_none hd name)

/-! ### `LEN` and the counters fit (R6, R22, R23, R24) -/

theorem len_lt {s : State} (hcm : s.common) : s.len < 2 ^ s.params.freqW := by
  obtain ⟨hp, -, hcap, -⟩ := hcm
  have hpow : 0 < 2 ^ s.params.freqW := Nat.two_pow_pos _
  simp only [Params.wellFormed, Bool.and_eq_true, decide_eq_true_eq] at hp
  omega

theorem freqAt_le_len {s : State} (hb : listsExactly s.inMem s.len) (hc : s.counts) (b : Byte) : s.freqAt b ≤ s.len := by
  obtain ⟨-, -, -, hcount, -⟩ := hc
  rw [hcount b (mem_allSymbols b), ← bytes_length hb]
  exact List.count_le_length

theorem counts_fit {s : State} (hcm : s.common) (h : s.noCounts ∨ s.counts) :
    (∀ b, s.freqAt b < 2 ^ s.params.freqW) ∧ s.nsym < 2 ^ 9 := by
  rcases h with ⟨hf, hn⟩ | hc
  · exact ⟨fun b => by rw [State.freqAt, hf, freqIn_nil]; exact Nat.two_pow_pos _, by omega⟩
  · have hle := counts_nsym_le hc
    exact ⟨fun b => (freqAt_le_len hcm.inMem_listed hc b).trans_lt (len_lt hcm), by omega⟩

/-! ### The arena fits (R25, R27, R28, R151) -/

/-- An arena record is a leaf of R147, which names no child, or an internal node over two earlier entries (R150, R151). -/
theorem node_cases {s : State} (hs : s.hasTree) {c : Nat × Node} (hc : c ∈ s.node) :
    (c.2.leaf = true ∧ c.2.left = 0 ∧ c.2.right = 0) ∨
    (c.2.left < c.1 ∧ c.2.right < c.1 ∧ c.2.weight = s.weightAt c.2.left + s.weightAt c.2.right) := by
  obtain ⟨-, -, -, -, hleaves, hinner, -⟩ := hs
  rw [← List.take_append_drop s.nsym s.node] at hc
  rcases List.mem_append.1 hc with hc | hc
  · have hm : c.2.unlabelled ∈ s.occurring.map fun b => Node.ofSymbol b (s.freqAt b) :=
      hleaves ▸ List.mem_map_of_mem (f := fun c : Nat × Node => c.2.unlabelled) hc
    obtain ⟨b, -, he⟩ := List.mem_map.1 hm
    obtain ⟨hl, -, hleft, hright, -⟩ := unlabelled_eq (m := c.2) (n := Node.ofSymbol b (s.freqAt b)) he.symm
    exact .inl ⟨hl, hleft, hright⟩
  · obtain ⟨-, -, hleft, hright, hw⟩ := hinner c hc
    exact .inr ⟨hleft, hright, hw⟩

theorem weightAt_of_mem {s : State} (hs : listsExactly s.node s.nnode) {c : Nat × Node} (hc : c ∈ s.node) :
    s.weightAt c.1 = c.2.weight := by
  rw [State.weightAt, (mem_node_iff hs).1 hc]; rfl

/-- Every entry but the root is a child of some internal node (R28). -/
theorem exists_parent {s : State} (hs : s.hasTree) {i : Nat} (hi : i < s.root) :
    ∃ c ∈ s.node, c.2.leaf = false ∧ (i = c.2.right ∨ i = c.2.left) := by
  obtain ⟨-, -, -, -, -, -, hperm, -⟩ := hs
  obtain ⟨c, hc, hic⟩ := List.mem_flatMap.1 (hperm.mem_iff.2 (List.mem_range.2 hi))
  cases hl : c.2.leaf with
  | true => simp [hl] at hic
  | false => exact ⟨c, hc, hl, by simpa [hl] using hic⟩

/-- No entry is heavier than the root, whose weight is `LEN` (R151): the weights do not fall on the way up. -/
theorem weightAt_le_len {s : State} (hs : s.hasTree) : ∀ d i, i ≤ s.root → s.root ≤ i + d → s.weightAt i ≤ s.len := by
  have hh := hs
  obtain ⟨hlist, hnn, hroot, -, -, -, -, hw⟩ := hs
  intro d
  induction d with
  | zero =>
    intro i hi hd
    rw [show i = s.root by omega, hw]
  | succ d ih =>
    intro i hi hd
    by_cases hir : i = s.root
    · rw [hir, hw]
    obtain ⟨c, hc, hl, hchild⟩ := exists_parent hh (show i < s.root by omega)
    rcases node_cases hh hc with ⟨hl', -⟩ | ⟨hleft, hright, hsum⟩
    · rw [hl] at hl'; cases hl'
    have hlt := hlist.lt hc
    have hpar : s.weightAt c.1 ≤ s.len := ih c.1 (by omega) (by omega)
    rw [weightAt_of_mem hlist hc, hsum] at hpar
    rcases hchild with rfl | rfl <;> omega

theorem tree_fits {s : State} (hcm : s.common) (h : s.noTree ∨ s.counts ∧ s.hasTree) :
    s.nnode < 2 ^ 9 ∧ s.root < nodeMax ∧ s.nseq < 2 ^ 9 ∧
      ∀ c ∈ s.node, c.1 < nodeMax ∧ c.2.left < nodeMax ∧ c.2.right < nodeMax ∧ c.2.weight < 2 ^ s.params.freqW := by
  unfold nodeMax
  rcases h with ⟨hnode, hnn, hroot, hseq⟩ | ⟨hc, hs⟩
  · exact ⟨by omega, by omega, by omega, by simp [hnode]⟩
  · have hpos := counts_nsym_pos hcm.inMem_listed hc
    have hle := counts_nsym_le hc
    have hh := hs
    obtain ⟨hlist, hnn, hroot, hseq, -⟩ := hs
    refine ⟨by omega, by omega, by omega, fun c hmem => ?_⟩
    have hlt := hlist.lt hmem
    have hweight : c.2.weight ≤ s.len := by
      rw [← weightAt_of_mem hlist hmem]
      exact weightAt_le_len hh s.root c.1 (by omega) (by omega)
    have hlen := len_lt hcm
    rcases node_cases hh hmem with ⟨-, hleft, hright⟩ | ⟨hleft, hright, -⟩
    · exact ⟨by omega, by omega, by omega, by omega⟩
    · exact ⟨by omega, by omega, by omega, by omega⟩

/-! ### The codewords fit (R30, R31, R168) -/

theorem label_fits {s : State} (hcm : s.common) (hc : s.counts) (hs : s.hasTree) (hk : s.codes) {i : Nat} {n : Node}
    {l : PathLabel} (hn : s.nodeAt i = some n) (hl : n.label = some l) :
    l.depth < 2 ^ 8 ∧ l.word.clen ≤ clenMax ∧ l.word.code.toNat < 2 ^ l.word.clen := by
  have hpos := counts_nsym_pos hcm.inMem_listed hc
  have hle := counts_nsym_le hc
  obtain ⟨-, hdepth, hclen, hcode⟩ := label_bounds hs hpos hk s.nnode i n l (by omega) hn hl
  refine ⟨by omega, ?_, hcode⟩
  unfold clenMax
  split at hclen <;> omega

theorem codes_fit {s : State} (hcm : s.common) (h : s.noCodes ∨ s.counts ∧ s.hasTree ∧ s.codes) :
    (∀ c ∈ s.node, ∀ l ∈ c.2.label, l.depth < 2 ^ 8 ∧ l.word.clen ≤ clenMax ∧ l.word.code.toNat < 2 ^ l.word.clen) ∧
      ∀ c ∈ s.crom, c.1 < numSymbols ∧ c.2.clen ≤ clenMax ∧ c.2.code.toNat < 2 ^ c.2.clen := by
  rcases h with ⟨hlab, hrom⟩ | ⟨hc, hs, hk⟩
  · exact ⟨fun c hc l hl => by simp [hlab c hc] at hl, by simp [hrom]⟩
  refine ⟨fun c hmem l hl => label_fits hcm hc hs hk ((mem_node_iff hs.1).1 hmem) hl, fun c hcr => ?_⟩
  have hkey : c.1 ∈ s.occurring.map BitVec.toNat := crom_keys hs hk ▸ List.mem_map_of_mem hcr
  obtain ⟨b, -, hb⟩ := List.mem_map.1 hkey
  have hrom : s.romAt b = some c.2 := by rw [State.romAt, hb, lookup_of_mem (crom_wf hs hk) hcr]
  obtain ⟨i, n, l, hn, -, -, hl, hword⟩ := romAt_eq_some hs hk hrom
  obtain ⟨-, hclen, hcode⟩ := label_fits hcm hc hs hk hn hl
  exact ⟨hb ▸ b.isLt, hword ▸ hclen, hword ▸ hcode⟩

/-! ### The encoder's results fit (R32) -/

theorem output_fits {s : State} (hcm : s.common) (h : s.noOutput ∨ s.counts ∧ s.hasTree ∧ s.codes ∧ s.output) :
    s.totalBits < 2 ^ (s.params.freqW + 8) ∧ s.pad < 2 ^ 3 ∧ s.outLen < 2 ^ (s.params.freqW + 5) := by
  have hlen := len_lt hcm
  rw [Nat.pow_add, Nat.pow_add]
  rcases h with ⟨htb, hpad, hol, -⟩ | ⟨hc, hs, hk, ws, hws, htb, hpad, hol, -⟩
  · exact ⟨by omega, by omega, by omega⟩
  · have hbound := (totalBits_bounds hcm.inMem_listed hc hs hk hws).2
    have hpad7 := padOf_le s.totalBits
    exact ⟨by omega, by omega, by omega⟩

/-- Settles O57: each register from the group of R41's lines it belongs to. -/
theorem widthsFit : Obligations.WidthsFit := by
  intro s h
  have hcm : s.common := h.1
  obtain ⟨p, hst⟩ := h.exists_stage
  obtain ⟨gcounts, gtree, gcodes, gout⟩ := stage_groups hst
  obtain ⟨hfreq, hnsym⟩ := counts_fit hcm gcounts
  obtain ⟨hnn, hroot, hseq, hnode⟩ := tree_fits hcm gtree
  obtain ⟨hlabel, hrom⟩ := codes_fit hcm gcodes
  have hmq : s.mq.length ≤ mqMax := by obtain ⟨-, -, -, hmq, -⟩ := hcm; simp [hmq]
  refine ⟨len_lt hcm, hfreq, hnsym, hnn, hroot, hseq, hmq, fun c hc => ?_, hrom, output_fits hcm gout⟩
  obtain ⟨hidx, hleft, hright, hweight⟩ := hnode c hc
  exact ⟨hidx, hleft, hright, hweight, hlabel c hc⟩

end Sys2Proof.Machine
end

/-! ## State (10_state.md): the invariant R41 and every step -/

section
namespace Sys2Proof.Machine

/-! ### Reset and `CLR` (R40, R104) -/

theorem default_wellFormed : Params.default.wellFormed = true := by
  simp [Params.wellFormed, Params.default]

/-- The reset state of a legal block is sound, whatever words the host has pending. -/
theorem resetWith_inv {p : Params} (hp : p.wellFormed = true) (ws : List Word) :
    State.Inv { State.resetWith p with cmds := ws } := by
  have hcm : State.common { State.resetWith p with cmds := ws } :=
    ⟨hp, listsExactly_nil, Nat.zero_le _, rfl, errOk_of_none rfl (by simp [State.resetWith])⟩
  have hcodes : State.noCodes { State.resetWith p with cmds := ws } := ⟨by simp [State.resetWith], rfl⟩
  exact ⟨hcm, .inl ⟨⟨rfl, rfl⟩, ⟨rfl, rfl, rfl, rfl⟩, hcodes, ⟨rfl, rfl, rfl, rfl⟩⟩⟩

theorem clear_inv {s : State} (h : s.Inv) : s.clear.Inv := by
  obtain ⟨⟨hp, -⟩, -⟩ := h
  rw [State.clear_eq_reset]
  exact resetWith_inv hp s.cmds

/-! ### Fault entry (R228) and the host's pending words (log entry 2) -/

/-- Fault entry keeps the invariant from any phase: the data stays at the line of R41 it was at. -/
theorem raise_inv {s : State} (h : s.Inv) (f : FaultKind) : (s.raise f).Inv := by
  obtain ⟨p, hst⟩ := h.exists_stage
  have herr : (s.raise f).errOk := by cases f <;> simp [State.errOk, FaultKind.err]
  exact ⟨common_of_fields h.1 rfl rfl rfl rfl herr, .inr ⟨rfl, p, hst⟩⟩

theorem execIllegal_inv {s t : State} (h : s.Inv) (ht : execIllegal s = .next t) : t.Inv := by
  unfold execIllegal at ht
  split at ht <;> cases ht
  · exact h
  · exact raise_inv h .illegalCommand

/-- The pending words play no part in the invariant. -/
theorem inv_cmds_iff (s : State) (ws : List Word) : State.Inv { s with cmds := ws } ↔ s.Inv := Iff.rfl

/-! ### The stage commands (R41's lines, one after the other) -/

theorem State.Inv.stage_of_phase {s : State} {p : Phase} (h : s.Inv) (hp : s.phase = p) (hpf : p ≠ .fault) : s.stage p := by
  obtain ⟨-, hst | ⟨hf, -⟩⟩ := h
  · exact hp ▸ hst
  · exact absurd (hp.symm.trans hf) hpf

theorem State.Inv.err_eq_none {s : State} (h : s.Inv) (hp : s.phase ≠ .fault) : s.err = .none := by
  obtain ⟨⟨-, -, -, -, herr, -⟩, -⟩ := h
  exact herr.2 hp

/-- A rule that reaches a line of R41 and writes none of the registers that every phase restricts keeps the invariant. -/
theorem inv_of_reached_stage {s t u : State} {q : Phase} {r : Result} (h : s.Inv) (hp : s.phase ≠ .fault)
    (hq : q ≠ .fault) (hu : r = .next u) (ht : r = .next t)
    (hkeep : u = { u with params := s.params, inMem := s.inMem, len := s.len, mq := s.mq, err := s.err, phase := q })
    (hst : u.stage q) : t.Inv := by
  obtain rfl : u = t := Host.Outcome.next.inj (hu.symm.trans ht)
  have herr : u.err = .none := by rw [hkeep]; exact h.err_eq_none hp
  have hpu : u.phase = q := by rw [hkeep]
  have hcm : u.common := common_of_fields h.1 (by rw [hkeep]) (by rw [hkeep]) (by rw [hkeep]) (by rw [hkeep])
    (errOk_of_none herr (hpu ▸ hq))
  exact ⟨hcm, .inl (hpu ▸ hst)⟩

theorem bodyPut_inv {b : Byte} {s t : State} (h : s.Inv) (hp : s.phase = .load) (ht : bodyPut b s = .next t) : t.Inv := by
  rcases bodyPut_cases ht with ⟨-, rfl⟩ | ⟨hlt, rfl⟩
  · exact raise_inv h _
  · obtain ⟨hpar, hin, -, hmq, herr⟩ := h.1
    refine ⟨⟨hpar, (hin.store b).2, hlt, hmq, herr⟩, .inl ?_⟩
    have hst : s.stage .load := h.stage_of_phase hp (by simp)
    simp only [hp]
    exact hst

theorem bodyCnt_inv {s t : State} (h : s.Inv) (hp : s.phase = .load) (ht : bodyCnt s = .next t) : t.Inv := by
  rcases bodyCnt_cases ht with ⟨-, rfl⟩ | ⟨hl, -⟩
  · exact raise_inv h _
  · obtain ⟨u, hu, fr, hst⟩ := bodyCnt_stage h.1 (h.stage_of_phase hp (by simp)) hl
    exact inv_of_reached_stage h (by simp [hp]) (by simp) hu ht (by rw [fr]) hst

theorem bodyBld_inv {s t : State} (h : s.Inv) (hp : s.phase = .counted) (ht : bodyBld s = .next t) : t.Inv := by
  obtain ⟨u, hu, fr, hst⟩ := bodyBld_stage h.1 (h.stage_of_phase hp (by simp))
  exact inv_of_reached_stage h (by simp [hp]) (by simp) hu ht (by rw [fr]) hst

theorem bodyAsg_inv {s t : State} (h : s.Inv) (hp : s.phase = .built) (ht : bodyAsg s = .next t) : t.Inv := by
  obtain ⟨u, hu, fr, -, hst⟩ := bodyAsg_stage h.1 (h.stage_of_phase hp (by simp))
  exact inv_of_reached_stage h (by simp [hp]) (by simp) hu ht (by rw [fr]) hst

theorem bodyEnc_inv {s t : State} (h : s.Inv) (hp : s.phase = .assigned) (ht : bodyEnc s = .next t) : t.Inv := by
  obtain ⟨u, hu, fr, hst⟩ := bodyEnc_stage h.1 (h.stage_of_phase hp (by simp))
  exact inv_of_reached_stage h (by simp [hp]) (by simp) hu ht (by rw [fr]) hst

/-! ### `RUN` (R108): each stage starts in the phase the one before reached -/

theorem bodyCnt_phase {s t : State} (h : bodyCnt s = .next t) (hf : t.phase ≠ .fault) : t.phase = .counted := by
  rcases bodyCnt_cases h with ⟨-, rfl⟩ | ⟨-, _, -, rfl⟩
  · exact absurd rfl hf
  · rfl

theorem bodyBld_phase {s t : State} (h : bodyBld s = .next t) (hf : t.phase ≠ .fault) : t.phase = .built := by
  rcases bodyBld_cases h with ⟨-, rfl⟩ | ⟨-, e⟩
  · exact absurd rfl hf
  · rw [e]

theorem bodyAsg_phase {s t : State} (h : bodyAsg s = .next t) : t.phase = .assigned := by
  rw [(bodyAsg_cases h).1]

theorem bodyRun_inv {s t : State} (h : s.Inv) (hp : s.phase = .load) (ht : bodyRun s = .next t) : t.Inv := by
  rcases bodyRun_cases ht with ⟨ha, -⟩ | ⟨a, ha, hpa, hb, -⟩ | ⟨a, b, c, ha, hpa, hb, hpb, hc, hd⟩
  · exact bodyCnt_inv h hp ha
  · exact bodyBld_inv (bodyCnt_inv h hp ha) (bodyCnt_phase ha hpa) hb
  · have hainv : a.Inv := bodyCnt_inv h hp ha
    have hbinv : b.Inv := bodyBld_inv hainv (bodyCnt_phase ha hpa) hb
    have hcinv : c.Inv := bodyAsg_inv hbinv (bodyBld_phase hb hpb) hc
    exact bodyEnc_inv hcinv (bodyAsg_phase hc) hd

/-! ### Every command, every word, every step -/

/-- The rule of each command keeps the invariant in the one phase R101's table allows it in. -/
theorem body_inv {i : Instr} {s t : State} (h : s.Inv) (ha : allowed i s.phase = true) (ht : body i s = .next t) :
    t.Inv := by
  cases i with
  | nop => cases ht; exact h
  | clr => cases ht; exact clear_inv h
  | put b => exact bodyPut_inv h (by simpa [allowed] using ha) ht
  | cnt => exact bodyCnt_inv h (by simpa [allowed] using ha) ht
  | bld => exact bodyBld_inv h (by simpa [allowed] using ha) ht
  | asg => exact bodyAsg_inv h (by simpa [allowed] using ha) ht
  | enc => exact bodyEnc_inv h (by simpa [allowed] using ha) ht
  | run => exact bodyRun_inv h (by simpa [allowed] using ha) ht

theorem exec_inv {i : Instr} {s t : State} (h : s.Inv) (ht : exec i s = .next t) : t.Inv := by
  rcases exec_next_cases ht with ⟨-, rfl⟩ | ⟨-, -, rfl⟩ | ⟨-, -, -, rfl⟩ | ⟨-, -, ha, hb⟩
  · exact clear_inv h
  · exact h
  · exact raise_inv h .badSequence
  · exact body_inv h ha hb

/-- Settles O55: a step waits, or executes a legal or an illegal word, and each keeps R41's map. -/
theorem invKeptByEveryStep : Obligations.InvKeptByEveryStep := by
  intro s t h ht
  rcases step_cases s with ⟨-, he⟩ | ⟨w, rest, -, ⟨i, -, he⟩ | ⟨e, -, he⟩⟩ <;> rw [he] at ht
  · cases ht; exact h
  · exact exec_inv ((inv_cmds_iff s rest).2 h) ht
  · exact execIllegal_inv ((inv_cmds_iff s rest).2 h) ht

/-- Settles O54: the parameters of `State.reset` are R6's defaults, which are legal. -/
theorem invAtReset : Obligations.InvAtReset := resetWith_inv default_wellFormed []

end Sys2Proof.Machine
end

/-! ## State (10_state.md): who writes what (R20, R42) and the reset values (R40) -/

section
namespace Sys2Proof.Machine

/-! ### The column 'written by' of R20 -/

/-- The registers that the rule of each command writes when it raises no fault (R20's column 'written by'). -/
def WritesOwnRegisters (s t : State) : Instr → Prop
  | .nop => t = s
  | .clr => t = s.clear
  | .put _ => t = { s with inMem := t.inMem, len := t.len }
  | .cnt => t = { s with freq := t.freq, nsym := t.nsym, phase := t.phase }
  | .bld => t = { s with node := t.node, nnode := t.nnode, root := t.root, mq := t.mq, nseq := t.nseq, phase := t.phase }
  | .asg => t = { s with node := t.node, crom := t.crom, phase := t.phase }
  | .enc => t = { s with outMem := t.outMem, totalBits := t.totalBits, pad := t.pad, outLen := t.outLen, phase := t.phase }
  | .run => t = { s with
      freq := t.freq, nsym := t.nsym, node := t.node, nnode := t.nnode, root := t.root, mq := t.mq, nseq := t.nseq,
      crom := t.crom, outMem := t.outMem, totalBits := t.totalBits, pad := t.pad, outLen := t.outLen, phase := t.phase }

theorem body_writes {i : Instr} {s t : State} (h : body i s = .next t) :
    (∃ f, t = s.raise f) ∨ WritesOwnRegisters s t i := by
  cases i with
  | nop => cases h; exact .inr rfl
  | clr => cases h; exact .inr rfl
  | put b =>
    rcases bodyPut_cases h with ⟨-, e⟩ | ⟨-, e⟩
    · exact .inl ⟨_, e⟩
    · exact .inr (by rw [WritesOwnRegisters, e])
  | cnt =>
    rcases bodyCnt_cases h with ⟨-, e⟩ | ⟨-, _, -, e⟩
    · exact .inl ⟨_, e⟩
    · exact .inr (by rw [WritesOwnRegisters, e])
  | bld =>
    rcases bodyBld_cases h with ⟨-, e⟩ | ⟨-, e⟩
    · exact .inl ⟨_, e⟩
    · exact .inr (by rw [WritesOwnRegisters, e])
  | asg => exact .inr (by rw [WritesOwnRegisters, (bodyAsg_cases h).1])
  | enc =>
    obtain ⟨_, e⟩ := bodyEnc_cases h
    exact .inr (by rw [WritesOwnRegisters, e])
  | run =>
    rcases bodyRun_frame h with ⟨-, e⟩ | ⟨-, _, e⟩
    · exact .inl ⟨_, e⟩
    · exact .inr (by rw [WritesOwnRegisters, e])

/-- All that a command can write: nothing, `PHASE` and `ERR` at a fault entry, or its own registers. -/
theorem exec_writes {i : Instr} {s t : State} (h : exec i s = .next t) :
    t = s ∨ (∃ f, t = s.raise f) ∨ WritesOwnRegisters s t i := by
  rcases exec_next_cases h with ⟨rfl, e⟩ | ⟨-, -, e⟩ | ⟨-, -, -, e⟩ | ⟨-, -, -, hb⟩
  · exact .inr (.inr e)
  · exact .inl e
  · exact .inr (.inl ⟨_, e⟩)
  · exact .inr (body_writes hb)

/-- Settles O15: a command that is not among a register's writers does not list it. -/
theorem eachRegisterHasItsWriters : Obligations.EachRegisterHasItsWriters := by
  intro i s t h
  rcases exec_writes h with rfl | ⟨f, rfl⟩ | hw
  · simp
  · simp
  · -- a register the command writes has a false premise in its clause, every other clause reads an unwritten field
    cases i <;> rw [WritesOwnRegisters] at hw <;> rw [hw] <;> simp

/-! ### In phase `DONE` (R42, R101) -/

theorem not_allowed_done {i : Instr} (hc : i ≠ .clr) (hn : i ≠ .nop) : allowed i .done = false := by
  cases i with
  | nop => exact absurd rfl hn
  | clr => exact absurd rfl hc
  | put b => rfl
  | cnt | bld | asg | enc | run => rfl

/-- Settles O18: in `DONE` R101's table allows only `NOP` and `CLR`. -/
theorem resultsStandInDone : Obligations.ResultsStandInDone := by
  intro i s hp hc
  by_cases hn : i = .nop
  · exact .inl ⟨hn ▸ exec_nop s, hn⟩
  · exact .inr ⟨exec_notAllowed (by simp [hp]) (hp ▸ not_allowed_done hc hn), hn⟩

/-! ### Which cells hold a value (R38, R39, R60, R61) -/

theorem listsExactly.lookup_isSome {α : Type} {m : SparseMap α} {n : Nat} (h : listsExactly m n) (i : Nat) :
    (Machine.lookup m i).isSome = true ↔ i < n := by
  rw [h.lookup, Option.isSome_map, isSome_getElem?, h.length]

/-- An accessor that reads below the bound only has a value exactly there. -/
theorem listsExactly.guarded_isSome {α : Type} {m : SparseMap α} {n : Nat} (h : listsExactly m n) (i : Nat) :
    (if i < n then Machine.lookup m i else none).isSome = true ↔ i < n := by
  split
  · exact h.lookup_isSome i
  · simp [*]

theorem inAt_isSome {s : State} (h : listsExactly s.inMem s.len) (a : Nat) : (s.inAt a).isSome = true ↔ a < s.len :=
  h.guarded_isSome a

theorem outAt_isSome {s : State} (h : listsExactly s.outMem s.outLen) (a : Nat) :
    (s.outAt a).isSome = true ↔ a < s.outLen :=
  h.guarded_isSome a

theorem nodeAt_isSome_iff {s : State} (h : listsExactly s.node s.nnode) (i : Nat) :
    (s.nodeAt i).isSome = true ↔ i < s.nnode :=
  h.guarded_isSome i

/-- The arena of every line of R41 lists the entries below `NNODE` (R27, R39). -/
theorem stage_node_listed {s : State} {p : Phase} (h : s.stage p) : listsExactly s.node s.nnode := by
  obtain ⟨-, ⟨hnode, hnn, -⟩ | ⟨-, hlist, -⟩, -⟩ := stage_groups h
  · rw [hnode, hnn]; exact listsExactly_nil
  · exact hlist

/-- `OUT` of every line of R41 lists the cells below `OUTLEN` (R61). -/
theorem stage_outMem_listed {s : State} {p : Phase} (h : s.stage p) : listsExactly s.outMem s.outLen := by
  obtain ⟨-, -, -, ⟨-, -, hol, hout⟩ | ⟨-, -, -, _, -, -, -, -, hlist, -⟩⟩ := stage_groups h
  · rw [hol, hout]; exact listsExactly_nil
  · exact hlist

theorem stage_noCodes {s : State} {p : Phase} (h : s.stage p) (hp : p = .load ∨ p = .counted ∨ p = .built) :
    s.noCodes := by
  rcases hp with rfl | rfl | rfl
  · obtain ⟨-, -, hk, -⟩ := h; exact hk
  · obtain ⟨-, -, hk, -⟩ := h; exact hk
  · obtain ⟨-, -, -, hk, -⟩ := h; exact hk

theorem labelAt_eq_none {s : State} (hlist : listsExactly s.node s.nnode) (hk : s.noCodes) (i : Nat) : s.labelAt i = none := by
  rw [State.labelAt, Option.bind_eq_none_iff]
  intro n hn
  exact hk.1 (i, n) ((mem_node_iff hlist).2 hn)

/-- Settles O59, from the lists of cells that every line of R41 gives. -/
theorem whatHoldsAValue : Obligations.WhatHoldsAValue := by
  intro s h
  obtain ⟨p, hst⟩ := h.exists_stage
  have hnode := stage_node_listed hst
  refine ⟨inAt_isSome h.1.inMem_listed, outAt_isSome (stage_outMem_listed hst), nodeAt_isSome_iff hnode,
    fun b => Iff.rfl, fun hp => ?_⟩
  have hpf : s.phase ≠ .fault := fun hf => by simp [hf] at hp
  exact labelAt_eq_none hnode (stage_noCodes (h.stage_of_phase rfl hpf) hp)

/-! ### The reset values (R40) -/

/-- Settles O11: no memory or array of the reset state lists an entry, and `CLR` reaches that state. -/
theorem resetValues : Obligations.ResetValues := by
  refine ⟨fun p => ?_, rfl, fun s => by rw [exec_clr, State.clear_eq_reset]⟩
  have hin (a : Nat) : (State.resetWith p).inAt a = none := if_neg (Nat.not_lt_zero a)
  have hout (a : Nat) : (State.resetWith p).outAt a = none := if_neg (Nat.not_lt_zero a)
  have hnode (i : Nat) : (State.resetWith p).nodeAt i = none := if_neg (Nat.not_lt_zero i)
  exact ⟨rfl, rfl, rfl, freqIn_nil, rfl, rfl, rfl, rfl, rfl, fun _ => rfl, rfl, rfl, rfl,
    fun a => ⟨hin a, lookup_nil a⟩, fun a => ⟨hout a, lookup_nil a⟩, hnode, fun b => lookup_nil b.toNat, rfl⟩

/-! ### The codes of `PHASE` and `ERR` (R34, R35) -/

theorem phase_code_ne (p : Phase) : p.code ≠ 5 ∧ p.code ≠ 6 := by cases p <;> decide

theorem errCode_code_ne_seven (e : ErrCode) : e.code ≠ 7 := by cases e <;> decide

theorem errCode_code_eq_zero (e : ErrCode) : e.code = 0 ↔ e = .none := by cases e <;> decide

/-- Settles O58: of the codes of `ERR` only that of `NONE` is 0, and R41's `errOk` says when `ERR` is `NONE`. -/
theorem phaseAndErrCodes : Obligations.PhaseAndErrCodes := by
  refine ⟨by decide, by decide, fun s => ?_, fun s h => ?_⟩
  · obtain ⟨h5, h6⟩ := phase_code_ne s.phase
    exact ⟨h5, h6, errCode_code_ne_seven s.err⟩
  · obtain ⟨⟨-, -, -, -, herr, -⟩, -⟩ := h
    rw [Ne, errCode_code_eq_zero, herr, not_not]

end Sys2Proof.Machine
end

/-! ## State (10_state.md): codewords as bit strings (R31) -/

section
namespace Sys2Proof.Machine

/-- Appending a bit doubles the number a codeword spells and adds the bit, while it fits the 255 bits. -/
theorem append_code_toNat (w : Codeword) (b : Bool) (hfit : w.code.toNat < 2 ^ w.clen) (hlen : w.clen < 255) :
    (w.append b).code.toNat = 2 * w.code.toNat + b.toNat := by
  have hpow : 2 ^ w.clen ≤ 2 ^ 254 := Nat.pow_le_pow_right (by decide) (by omega)
  have hb : (if b then 1 else 0 : CodeBits).toNat = b.toNat := by cases b <;> rfl
  have hshift : (w.code <<< 1).toNat = 2 ^ 1 * w.code.toNat := by
    rw [BitVec.toNat_shiftLeft, Nat.shiftLeft_eq, Nat.mod_eq_of_lt (by omega), Nat.mul_comm]
  rw [Codeword.append, BitVec.toNat_or, hb, hshift, ← Nat.two_pow_add_eq_or_of_lt (by cases b <;> decide), Nat.pow_one]

/-- The number that a bit string spells, first bit most significant (R31). -/
def bitsValue (bits : List Bool) : Nat :=
  ((List.range bits.length).map fun k => (bits.getD k false).toNat * 2 ^ (bits.length - 1 - k)).sum

theorem bitsValue_append (bits : List Bool) (b : Bool) : bitsValue (bits ++ [b]) = 2 * bitsValue bits + b.toNat := by
  have hterm : ∀ k ∈ List.range bits.length,
      ((bits ++ [b]).getD k false).toNat * 2 ^ (bits.length - k) =
        2 * ((bits.getD k false).toNat * 2 ^ (bits.length - 1 - k)) := by
    intro k hk
    have hlt := List.mem_range.1 hk
    rw [List.getD_append _ _ _ _ hlt, show bits.length - k = bits.length - 1 - k + 1 by omega, Nat.pow_succ]
    ring
  have hlast : (bits ++ [b]).getD bits.length false = b := by simp
  simp only [bitsValue, List.length_append, List.length_singleton, Nat.add_sub_cancel, List.range_succ, List.map_append,
    List.sum_append, List.map_congr_left hterm, List.sum_map_mul_left, List.map_singleton, List.sum_singleton, hlast,
    Nat.sub_self, Nat.pow_zero, Nat.mul_one]

theorem ofBits_code_lt (bits : List Bool) : (Codeword.ofBits bits).code.toNat < 2 ^ (Codeword.ofBits bits).clen := by
  induction bits using List.reverseRecOn with
  | nil => decide
  | append_singleton bits b ih => rw [ofBits_append]; exact append_code_lt _ b ih

theorem ofBits_code_toNat (bits : List Bool) (h : bits.length ≤ 255) :
    (Codeword.ofBits bits).code.toNat = bitsValue bits := by
  induction bits using List.reverseRecOn with
  | nil => rfl
  | append_singleton bits b ih =>
    rw [List.length_append, List.length_singleton] at h
    have hclen := (bits_ofBits bits (by omega)).2
    rw [ofBits_append, append_code_toNat _ b (ofBits_code_lt bits) (by omega), ih (by omega), bitsValue_append]

/-- Bit `k` of a codeword's bit string, counted from the first, is `code[clen-1-k]` (R31). -/
theorem bits_getD (w : Codeword) {k : Nat} (hk : k < w.clen) : w.bits.getD k false = w.code.getLsbD (w.clen - 1 - k) := by
  simp [Codeword.bits, Codeword.bitAt, hk]

/-- Two codewords that hold no bit above their length and have the same bit string are the same. -/
theorem codeword_eq_of_bits_eq {v w : Codeword} (hv : v.code.toNat < 2 ^ v.clen) (hw : w.code.toNat < 2 ^ w.clen)
    (h : v.bits = w.bits) : v = w := by
  have hclen : v.clen = w.clen := by rw [← bits_length v, h, bits_length]
  have hcode : v.code = w.code := by
    refine BitVec.eq_of_getLsbD_eq fun k _ => ?_
    by_cases hk : k < w.clen
    · have hbit := bits_getD w (k := w.clen - 1 - k) (by omega)
      rw [← h, bits_getD v (by omega), hclen, show w.clen - 1 - (w.clen - 1 - k) = k by omega] at hbit
      exact hbit
    · have hpow : 2 ^ w.clen ≤ 2 ^ k := Nat.pow_le_pow_right (by decide) (by omega)
      rw [hclen] at hv
      rw [BitVec.getLsbD, BitVec.getLsbD, Nat.testBit_lt_two_pow (hv.trans_le hpow), Nat.testBit_lt_two_pow (hw.trans_le hpow)]
  exact congrArg₂ Codeword.mk hclen hcode

/-- Settles O42: the bit string determines the stored form, and every string of at most 255 bits is stored. -/
theorem codewordStorage : Obligations.CodewordStorage := by
  refine ⟨fun bits hlen => ?_, fun w hlen hfit => ?_, fun bits b _ => ofBits_append bits b⟩
  · obtain ⟨hbits, hclen⟩ := bits_ofBits bits hlen
    refine ⟨hclen, ofBits_code_toNat bits hlen, fun k hk => ?_, hbits⟩
    rw [← hclen, ← bits_getD _ (by omega), hbits]
  · exact codeword_eq_of_bits_eq (ofBits_code_lt _) hfit (bits_ofBits w.bits (by rwa [bits_length])).1

end Sys2Proof.Machine
end

/-! ## Memory (20_memory.md): what the commands store to `IN` and `OUT` (R60, R61) -/

section
namespace Sys2Proof.Machine

/-! ### The stores of a command that answers a next state -/

/-- Of the commands but `CLR`, one that changes a memory runs its own rule: dispatch itself stores no byte (R101). -/
theorem exec_memories_eq_or_body {i : Instr} {s t : State} (h : exec i s = .next t) (hc : i ≠ .clr) :
    (t.inMem = s.inMem ∧ t.outMem = s.outMem) ∨ body i s = .next t := by
  rcases exec_next_cases h with ⟨he, -⟩ | ⟨-, -, rfl⟩ | ⟨-, -, -, rfl⟩ | ⟨-, -, -, hb⟩
  · exact absurd he hc
  · exact .inl ⟨rfl, rfl⟩
  · exact .inl ⟨rfl, rfl⟩
  · exact .inr hb

/-- `IN` is as before, or `PUT` has stored its byte at `LEN` (R60, R106). -/
theorem exec_inMem {i : Instr} {s t : State} (h : exec i s = .next t) (hc : i ≠ .clr) :
    t.inMem = s.inMem ∨ ∃ b, i = .put b ∧ t.inMem = Memory.write s.inMem s.len b := by
  by_cases hput : ∃ b, i = .put b
  · obtain ⟨b, rfl⟩ := hput
    rcases exec_memories_eq_or_body h hc with ⟨e, -⟩ | hb
    · exact .inl e
    · rcases bodyPut_cases hb with ⟨-, rfl⟩ | ⟨-, rfl⟩
      · exact .inl rfl
      · exact .inr ⟨b, rfl, rfl⟩
  · obtain ⟨-, -, hin, -⟩ := eachRegisterHasItsWriters i s t h
    exact .inl (hin hc (not_exists.1 hput)).2

/-- The rules of `ENC` and `RUN` leave `OUT` as it is, or store a string of `OUTLEN` bytes from address 0 (R61, R185). -/
theorem body_outMem {i : Instr} {s t : State} (h : body i s = .next t) (hi : i = .enc ∨ i = .run) :
    t.outMem = s.outMem ∨ ∃ bytes, t.outLen = bytes.length ∧ t.outMem = Memory.writeBytes s.outMem 0 bytes := by
  rcases hi with rfl | rfl
  · obtain ⟨bytes, e⟩ := bodyEnc_cases h
    exact .inr ⟨bytes, by rw [e], by rw [e]⟩
  · rcases bodyRun_frame h with ⟨-, rfl⟩ | ⟨-, bytes, e⟩
    · exact .inl rfl
    · exact .inr ⟨bytes, by rw [e], by rw [e]⟩

/-- `OUT` is as before, or `ENC` or `RUN` has stored a string of `OUTLEN` bytes from address 0 (R61, R185). -/
theorem exec_outMem {i : Instr} {s t : State} (h : exec i s = .next t) (hc : i ≠ .clr) :
    t.outMem = s.outMem ∨ (i = .enc ∨ i = .run) ∧
      ∃ bytes, t.outLen = bytes.length ∧ t.outMem = Memory.writeBytes s.outMem 0 bytes := by
  by_cases hi : i = .enc ∨ i = .run
  · rcases exec_memories_eq_or_body h hc with ⟨-, e⟩ | hb
    · exact .inl e
    · exact (body_outMem hb hi).imp_right fun hw => ⟨hi, hw⟩
  · obtain ⟨-, -, -, -, -, -, -, hout, -⟩ := eachRegisterHasItsWriters i s t h
    obtain ⟨henc, hrun⟩ := not_or.1 hi
    obtain ⟨-, -, -, hmem⟩ := hout hc henc hrun
    exact .inl hmem

/-! ### The obligations -/

/-- Settles O16: a store reads back at its own addresses only, and `CLR` lists no cell. -/
theorem memoryFrame : Obligations.MemoryFrame := by
  refine fun i s t h => ⟨fun hc a ha => ?_, fun hc a ha => ?_, ?_⟩
  · rcases exec_inMem h hc with e | ⟨b, hi, e⟩
    · rw [e]
    · rw [e, Memory.read_write, if_neg (ha ⟨b, hi⟩).symm]
  · rcases exec_outMem h hc with e | ⟨hi, bytes, hlen, e⟩
    · rw [e]
    · have hle : bytes.length ≤ a := hlen ▸ ha hi
      rw [e, Memory.read_writeBytes, if_neg (by omega)]
  · rintro rfl a
    obtain rfl : s.clear = t := Host.Outcome.next.inj h
    exact ⟨lookup_nil a, lookup_nil a⟩

/-- Settles O17: stores keep the indices rising, and the memories after `CLR` list no cell. -/
theorem memoriesStayCanonical : Obligations.MemoriesStayCanonical := by
  intro i s t hin hout h
  by_cases hc : i = .clr
  · subst hc
    obtain rfl : s.clear = t := Host.Outcome.next.inj h
    exact ⟨List.Pairwise.nil, List.Pairwise.nil⟩
  · constructor
    · rcases exec_inMem h hc with e | ⟨b, -, e⟩
      · exact e ▸ hin
      · exact e ▸ Memory.write_wf hin s.len b
    · rcases exec_outMem h hc with e | ⟨-, bytes, -, e⟩
      · exact e ▸ hout
      · exact e ▸ Memory.writeBytes_wf hout 0 bytes

end Sys2Proof.Machine
end

/-! ## Encoding (30_encoding.md): the two directions of the encoding (R80 to R82), the opcode map (R82), the illegal words
(R83) and the pseudo-instructions (R87) -/

section
namespace Sys2Proof

/-! ### The fields of a built word (R80) -/

@[simp] theorem opField_mkWord (op arg : Byte) : opField (mkWord op arg) = op := by
  apply BitVec.eq_of_toNat_eq
  have := arg.isLt
  rw [opField_toNat, mkWord_toNat]
  omega

@[simp] theorem argField_mkWord (op arg : Byte) : argField (mkWord op arg) = arg := by
  apply BitVec.eq_of_toNat_eq
  have := arg.isLt
  rw [argField_toNat, mkWord_toNat]
  omega

/-! ### Decode and encode (R80 to R82) -/

theorem decode_encode (i : Instr) : decode (encode i) = .ok i := by
  cases i with
  | put b =>
    obtain ⟨-, -, hput, -⟩ := decode_iff (encode (.put b))
    have hop : (encode (.put b)).toNat / 256 = 2 := by
      have := b.isLt
      simp only [encode_toNat]
      omega
    exact (hput b).2 ⟨hop, (argField_mkWord 2 b).symm⟩
  | _ => rfl

theorem encode_of_decode {cmd : Word} {i : Instr} (h : decode cmd = .ok i) : encode i = cmd := by
  obtain ⟨hnop, hclr, hput, hcnt, hbld, hasg, henc, hrun⟩ := decode_iff cmd
  apply BitVec.eq_of_toNat_eq
  rw [encode_toNat]
  cases i with
  | nop => exact (hnop.1 h).symm
  | clr => exact (hclr.1 h).symm
  | put b =>
    obtain ⟨hop, rfl⟩ := (hput b).1 h
    simp only [argField_toNat]
    omega
  | cnt => exact (hcnt.1 h).symm
  | bld => exact (hbld.1 h).symm
  | asg => exact (hasg.1 h).symm
  | enc => exact (henc.1 h).symm
  | run => exact (hrun.1 h).symm

/-- Settles O2: a command's fields are read back, and the opcode and operand of a legal word determine it. -/
theorem decodeEncodeAgree : Obligations.DecodeEncodeAgree :=
  ⟨fun i _ => decode_encode i, fun _ _ h => encode_of_decode h⟩

/-- Settles O1: the decoder computes on the eleven words. -/
theorem writtenWordsDecode : Obligations.WrittenWordsDecode := by
  unfold Obligations.WrittenWordsDecode
  decide

/-! ### The opcode map (R82) -/

/-- The full mask compares the whole word. -/
theorem and_all_eq_iff (cmd w : Word) : cmd &&& 0xFFFF = w ↔ cmd.toNat = w.toNat := by
  rw [and_all, BitVec.toNat_inj]

/-- The mask of `PUT`'s row compares the opcode. -/
theorem and_high_byte_eq_iff (cmd : Word) : cmd &&& 0xFF00 = 0x0200 ↔ cmd.toNat / 256 = 2 := by
  rw [← BitVec.toNat_inj, and_high_byte, show (0x0200 : Word).toNat = 2 * 256 from rfl]
  omega

theorem decode_put_iff (cmd : Word) (b : Byte) :
    decode cmd = .ok (.put b) ↔ cmd &&& 0xFF00 = 0x0200 ∧ b.toNat = cmd.toNat % 256 := by
  obtain ⟨-, -, hput, -⟩ := decode_iff cmd
  rw [hput, and_high_byte_eq_iff, ← argField_toNat, BitVec.toNat_inj]

/-- The row of a command in the opcode map. -/
def Instr.row : Instr → OpcodeRow
  | .nop => ⟨"NOP", 0x0000, 0xFFFF⟩
  | .clr => ⟨"CLR", 0x0100, 0xFFFF⟩
  | .put _ => ⟨"PUT", 0x0200, 0xFF00⟩
  | .cnt => ⟨"CNT", 0x0300, 0xFFFF⟩
  | .bld => ⟨"BLD", 0x0400, 0xFFFF⟩
  | .asg => ⟨"ASG", 0x0500, 0xFFFF⟩
  | .enc => ⟨"ENC", 0x0600, 0xFFFF⟩
  | .run => ⟨"RUN", 0x0700, 0xFFFF⟩

theorem row_mem_opcodeMap (i : Instr) : i.row ∈ opcodeMap := by
  cases i <;> simp [Instr.row, opcodeMap]

theorem row_mnemonic (i : Instr) : i.row.mnemonic = i.mnemonic := by
  cases i <;> rfl

theorem opcodeMap_mnemonic_inj : ∀ r ∈ opcodeMap, ∀ r' ∈ opcodeMap, r.mnemonic = r'.mnemonic → r = r' := by decide

theorem row_eq_iff_mnemonic_eq {i : Instr} {r : OpcodeRow} (hr : r ∈ opcodeMap) : i.row = r ↔ i.mnemonic = r.mnemonic := by
  rw [← row_mnemonic]
  exact ⟨fun h => by rw [h], opcodeMap_mnemonic_inj _ (row_mem_opcodeMap i) r hr⟩

theorem row_accepts_encode (i : Instr) : i.row.accepts (encode i) = true := by
  cases i with
  | put b =>
    rw [OpcodeRow.accepts, beq_iff_eq]
    exact ((decode_put_iff _ b).1 (decode_encode (.put b))).1
  | _ => rfl

/-- A word that a row of the map accepts decodes to a command of that row. -/
theorem exists_decode_of_accepts {r : OpcodeRow} {cmd : Word} (hr : r ∈ opcodeMap) (ha : r.accepts cmd = true) :
    ∃ i : Instr, i.row = r ∧ decode cmd = .ok i := by
  obtain ⟨hnop, hclr, -, hcnt, hbld, hasg, henc, hrun⟩ := decode_iff cmd
  rw [OpcodeRow.accepts, beq_iff_eq] at ha
  simp only [opcodeMap, List.mem_cons, List.not_mem_nil, or_false] at hr
  rcases hr with rfl | rfl | rfl | rfl | rfl | rfl | rfl | rfl
  · exact ⟨.nop, rfl, hnop.2 ((and_all_eq_iff _ _).1 ha)⟩
  · exact ⟨.clr, rfl, hclr.2 ((and_all_eq_iff _ _).1 ha)⟩
  · exact ⟨.put (argField cmd), rfl, (decode_put_iff _ _).2 ⟨ha, argField_toNat cmd⟩⟩
  · exact ⟨.cnt, rfl, hcnt.2 ((and_all_eq_iff _ _).1 ha)⟩
  · exact ⟨.bld, rfl, hbld.2 ((and_all_eq_iff _ _).1 ha)⟩
  · exact ⟨.asg, rfl, hasg.2 ((and_all_eq_iff _ _).1 ha)⟩
  · exact ⟨.enc, rfl, henc.2 ((and_all_eq_iff _ _).1 ha)⟩
  · exact ⟨.run, rfl, hrun.2 ((and_all_eq_iff _ _).1 ha)⟩

/-- A row accepts exactly the words that decode to a command of the row (R82). -/
theorem accepts_iff_decode {r : OpcodeRow} (hr : r ∈ opcodeMap) (cmd : Word) :
    r.accepts cmd = true ↔ ∃ i, decode cmd = .ok i ∧ i.row = r := by
  constructor
  · intro ha
    obtain ⟨i, hi, hd⟩ := exists_decode_of_accepts hr ha
    exact ⟨i, hd, hi⟩
  · rintro ⟨i, hd, rfl⟩
    rw [← encode_of_decode hd]
    exact row_accepts_encode i

/-- No word matches two rows: it decodes to one command, and a command has one row. -/
theorem opcodeMap_disjoint {r r' : OpcodeRow} {cmd : Word} (hr : r ∈ opcodeMap) (hr' : r' ∈ opcodeMap)
    (ha : r.accepts cmd = true) (ha' : r'.accepts cmd = true) : r = r' := by
  obtain ⟨i, hi, rfl⟩ := (accepts_iff_decode hr cmd).1 ha
  obtain ⟨j, hj, rfl⟩ := (accepts_iff_decode hr' cmd).1 ha'
  cases hi.symm.trans hj
  rfl

/-- Settles O3: the masks compare the whole word or the opcode alone, and the rows are those of the decoded commands. -/
theorem decodeFollowsTheOpcodeMap : Obligations.DecodeFollowsTheOpcodeMap := by
  intro cmd
  obtain ⟨hnop, hclr, -, hcnt, hbld, hasg, henc, hrun⟩ := decode_iff cmd
  simp only [and_all_eq_iff]
  refine ⟨hnop, hclr, decode_put_iff cmd, hcnt, hbld, hasg, henc, hrun, fun r hr => ?_,
    fun r hr r' hr' => opcodeMap_disjoint hr hr'⟩
  simp only [accepts_iff_decode hr, row_eq_iff_mnemonic_eq hr]

end Sys2Proof
end

section
namespace Sys2Proof.Machine

/-! ### The illegal words and their numbers (R83) -/

/-- The symbols from `k` on, the last part of the ascending list (R21). -/
theorem mem_drop_allSymbols {k : Nat} {b : Byte} : b ∈ allSymbols.drop k ↔ k ≤ b.toNat := by
  have hb : b.toNat < 256 := b.isLt
  rw [allSymbols, numSymbols, ← List.map_drop, List.range_eq_range', List.drop_range', List.mem_map]
  constructor
  · rintro ⟨n, hn, rfl⟩
    obtain ⟨h1, h2⟩ := List.mem_range'_1.1 hn
    rw [BitVec.toNat_ofNat]
    omega
  · intro hk
    exact ⟨b.toNat, List.mem_range'_1.2 (by omega), by simp⟩

theorem drop_allSymbols_nodup (k : Nat) : (allSymbols.drop k).Nodup :=
  allSymbols_nodup.sublist (List.drop_sublist k _)

/-- The words with an opcode and an operand of the given lists. -/
def wordsWith (ops args : List Byte) : List Word := (ops ×ˢ args).map fun f => mkWord f.1 f.2

theorem wordsWith_length (ops args : List Byte) : (wordsWith ops args).length = ops.length * args.length := by
  rw [wordsWith, List.length_map, List.length_product]

theorem mem_wordsWith {ops args : List Byte} {cmd : Word} :
    cmd ∈ wordsWith ops args ↔ opField cmd ∈ ops ∧ argField cmd ∈ args := by
  simp only [wordsWith, List.mem_map, Prod.exists, List.mem_product]
  constructor
  · rintro ⟨op, arg, h, rfl⟩
    rwa [opField_mkWord, argField_mkWord]
  · exact fun h => ⟨opField cmd, argField cmd, h, mkWord_fields cmd⟩

theorem wordsWith_nodup {ops args : List Byte} (ho : ops.Nodup) (ha : args.Nodup) : (wordsWith ops args).Nodup := by
  refine (ho.product ha).map_on ?_
  rintro ⟨o, a⟩ - ⟨o', a'⟩ - h
  rw [Prod.mk.injEq]
  exact ⟨by simpa using congrArg opField h, by simpa using congrArg argField h⟩

/-- The opcodes of the commands that take no operand (R81, R82). -/
def plainOpcodes : List Byte := [0, 1, 3, 4, 5, 6, 7]

theorem mem_plainOpcodes {b : Byte} : b ∈ plainOpcodes ↔ b.toNat < 8 ∧ b.toNat ≠ 2 := by
  simp only [plainOpcodes, List.mem_cons, List.not_mem_nil, or_false]
  bv_omega

/-- The words of the commands: `PUT` with any operand, the others with operand 0 (R81, R82). -/
def legalWords : List Word := wordsWith [2] allSymbols ++ wordsWith plainOpcodes [0]

/-- The words with a reserved opcode (R83). -/
def reservedWords : List Word := wordsWith (allSymbols.drop 8) allSymbols

/-- The words with an operand their opcode does not take (R83). -/
def operandWords : List Word := wordsWith plainOpcodes (allSymbols.drop 1)

theorem mem_legalWords {cmd : Word} : cmd ∈ legalWords ↔
    cmd.toNat / 256 = 2 ∨ (cmd.toNat / 256 < 8 ∧ cmd.toNat / 256 ≠ 2) ∧ cmd.toNat % 256 = 0 := by
  have hput : opField cmd = 2 ↔ cmd.toNat / 256 = 2 := by rw [← takesOperand_iff, takesOperand, beq_iff_eq]
  rw [legalWords, List.mem_append, mem_wordsWith, mem_wordsWith, List.mem_singleton, List.mem_singleton, hput,
    and_iff_left (mem_allSymbols _), mem_plainOpcodes, opField_toNat, argField_eq_zero]

theorem mem_legalWords_iff_decode {cmd : Word} : cmd ∈ legalWords ↔ ∃ i, decode cmd = .ok i := by
  have h := decode_illegal_iff cmd
  rw [← not_exists] at h
  rw [← not_iff_not, h, mem_legalWords]
  omega

theorem mem_reservedWords {cmd : Word} : cmd ∈ reservedWords ↔ 8 ≤ cmd.toNat / 256 := by
  rw [reservedWords, mem_wordsWith, mem_drop_allSymbols, opField_toNat]
  exact and_iff_left (mem_allSymbols _)

theorem mem_operandWords {cmd : Word} :
    cmd ∈ operandWords ↔ cmd.toNat / 256 < 8 ∧ cmd.toNat / 256 ≠ 2 ∧ cmd.toNat % 256 ≠ 0 := by
  rw [operandWords, mem_wordsWith, mem_plainOpcodes, mem_drop_allSymbols, opField_toNat, argField_toNat]
  omega

theorem wordClasses_nodup : (legalWords ++ reservedWords ++ operandWords).Nodup := by
  have hplain : plainOpcodes.Nodup := by decide
  have hlegal : legalWords.Nodup :=
    (wordsWith_nodup (by decide) allSymbols_nodup).append (wordsWith_nodup hplain (by decide)) fun cmd h2 hp => by
      have hop := (mem_plainOpcodes.1 (mem_wordsWith.1 hp).1).2
      rw [List.mem_singleton.1 (mem_wordsWith.1 h2).1] at hop
      exact hop rfl
  have hreserved : reservedWords.Nodup := wordsWith_nodup (drop_allSymbols_nodup 8) allSymbols_nodup
  have hoperand : operandWords.Nodup := wordsWith_nodup hplain (drop_allSymbols_nodup 1)
  refine (hlegal.append hreserved fun cmd hl hr => ?_).append hoperand fun cmd hlr ho => ?_
  · rw [mem_legalWords] at hl
    rw [mem_reservedWords] at hr
    omega
  · rw [List.mem_append, mem_legalWords, mem_reservedWords] at hlr
    rw [mem_operandWords] at ho
    omega

/-- An illegal word raises `ILLEGAL_COMMAND` in every phase but `FAULT` (R83, R101). -/
theorem execWord_illegal {cmd : Word} {s : State} (h : ∀ i, decode cmd ≠ .ok i) (hp : s.phase ≠ .fault) :
    execWord cmd s = .next (s.raise .illegalCommand) := by
  cases hd : decode cmd with
  | ok i => exact absurd hd (h i)
  | error e => rw [execWord_error hd, execIllegal, if_neg hp]

/-- Settles O4: the three classes are products of opcodes and operands, `256 + 7`, `248 * 256` and `7 * 255` words. -/
theorem illegalWords : Obligations.IllegalWords := by
  refine ⟨decode_illegal_iff, ⟨legalWords, reservedWords, operandWords, wordClasses_nodup, ?_,
    fun _ => mem_legalWords_iff_decode, ?_, fun _ => mem_reservedWords, ?_, fun _ => mem_operandWords⟩,
    fun _ _ => execWord_illegal⟩
  · simp [legalWords, plainOpcodes, wordsWith_length]
  · simp [reservedWords, wordsWith_length]
  · simp [operandWords, plainOpcodes, wordsWith_length]

/-! ### The pseudo-instructions (R87) -/

theorem execAll_append (is js : List Instr) (s : State) : execAll (is ++ js) s = andThen (execAll is s) (execAll js) := by
  induction is generalizing s with
  | nil => rfl
  | cons i is ih => simp only [List.cons_append, execAll, funext ih, andThen_assoc]

/-- In phase `FAULT` commands other than `CLR` are ignored, one after the other (R101 step 1). -/
theorem execAll_fault {is : List Instr} {s : State} (hp : s.phase = .fault) (hc : .clr ∉ is) : execAll is s = .next s := by
  induction is with
  | nil => rfl
  | cons i is ih =>
    obtain ⟨hi, his⟩ := not_or.1 (mt List.mem_cons.2 hc)
    rw [execAll, exec_fault hp (Ne.symm hi), andThen_next, ih his]

theorem andThen_congr {r : Result} {k l : State → Result} (h : ∀ s, r = .next s → k s = l s) :
    andThen r k = andThen r l := by
  cases r with
  | next s => exact h s rfl
  | fault f => rfl
  | refused e => rfl

theorem execAll_singleton (i : Instr) (s : State) : execAll [i] s = exec i s := by
  rw [execAll]
  cases exec i s <;> rfl

/-- The four stage commands from phase `LOAD` do what `RUN`'s rule does (R108): each finds the phase the one before reached, or
the fault it raised. -/
theorem execAll_steps_load {s : State} (hp : s.phase = .load) : execAll Pseudo.steps.expand s = bodyRun s := by
  have hcnt : exec .cnt s = bodyCnt s := exec_allowed (by simp [hp]) (by simp [allowed, hp])
  rw [Pseudo.expand, execAll, hcnt, bodyRun]
  refine andThen_congr fun a ha => ?_
  by_cases hfa : a.phase = .fault
  · rw [unlessFaulted, if_pos hfa, execAll_fault hfa (by decide)]
  have hpa : a.phase = .counted := bodyCnt_phase ha hfa
  have hbld : exec .bld a = bodyBld a := exec_allowed hfa (by simp [allowed, hpa])
  rw [unlessFaulted, if_neg hfa, execAll, hbld]
  refine andThen_congr fun b hb => ?_
  by_cases hfb : b.phase = .fault
  · rw [unlessFaulted, if_pos hfb, execAll_fault hfb (by decide)]
  have hpb : b.phase = .built := bodyBld_phase hb hfb
  have hasg : exec .asg b = bodyAsg b := exec_allowed hfb (by simp [allowed, hpb])
  rw [unlessFaulted, if_neg hfb, execAll, hasg]
  refine andThen_congr fun c hc => ?_
  have hpc : c.phase = .assigned := bodyAsg_phase hc
  have henc : exec .enc c = bodyEnc c := exec_allowed (by simp [hpc]) (by simp [allowed, hpc])
  rw [execAll_singleton, henc]

theorem execAll_steps (s : State) : execAll Pseudo.steps.expand s = exec .run s := by
  by_cases hf : s.phase = .fault
  · rw [exec_fault hf (by simp), execAll_fault hf (by decide)]
  by_cases hl : s.phase = .load
  · rw [execAll_steps_load hl, exec_allowed hf (by simp [allowed, hl])]; rfl
  · have hcnt : exec .cnt s = .next (s.raise .badSequence) := exec_notAllowed hf (by simp [allowed, hl])
    rw [exec_notAllowed hf (by simp [allowed, hl]), Pseudo.expand, execAll, hcnt, andThen_next,
      execAll_fault (State.raise_phase _ _) (by decide)]

theorem bodyPut_eq {s : State} (h : s.len < s.params.inCap) (b : Byte) :
    bodyPut b s = .next { s with inMem := Memory.write s.inMem s.len b, len := s.len + 1 } := by
  rw [bodyPut, if_neg (by omega), State.writeIn, if_pos h]

/-- `PUT` with room left appends its byte to the input (R106). -/
theorem exec_put_load {s : State} (hinv : s.Inv) (hp : s.phase = .load) (hl : s.len < s.params.inCap) (b : Byte) :
    ∃ t, exec (.put b) s = .next t ∧ t.Inv ∧ t.phase = .load ∧ t.params = s.params ∧ t.len = s.len + 1 ∧
      t.bytes = s.bytes ++ [b] := by
  have he : exec (.put b) s = bodyPut b s := exec_allowed (by simp [hp]) (by simp [allowed, hp])
  rw [bodyPut_eq hl] at he
  refine ⟨_, he, exec_inv hinv he, hp, rfl, rfl, ?_⟩
  have hmem : Memory.write s.inMem s.len b = s.inMem ++ [(s.len, b)] := (hinv.1.inMem_listed.store b).1
  simp [State.bytes, hmem]

/-- `PUTB` of bytes that fit appends them to the input, in order (R87, R106). -/
theorem execAll_putb_load (bs : List Byte) {s : State} (hinv : s.Inv) (hp : s.phase = .load)
    (hl : s.len + bs.length ≤ s.params.inCap) :
    ∃ t, execAll (bs.map .put) s = .next t ∧ t.Inv ∧ t.phase = .load ∧ t.bytes = s.bytes ++ bs := by
  induction bs generalizing s with
  | nil => exact ⟨s, rfl, hinv, hp, by simp⟩
  | cons b bs ih =>
    rw [List.length_cons] at hl
    obtain ⟨u, hu, huinv, hup, hpar, hlen, hub⟩ := exec_put_load hinv hp (by omega) b
    obtain ⟨t, ht, htinv, htp, htb⟩ := ih huinv hup (by rw [hpar, hlen]; omega)
    refine ⟨t, ?_, htinv, htp, ?_⟩
    · rw [List.map_cons, execAll, hu, andThen_next, ht]
    · rw [htb, hub, List.append_assoc, List.singleton_append]

/-- `RUN` on an input that is not empty ends in `DONE` and keeps the input (R108). -/
theorem exec_run_load {s : State} (hinv : s.Inv) (hp : s.phase = .load) (hl : s.len ≠ 0) :
    ∃ t, exec .run s = .next t ∧ t.succeeded ∧ t.bytes = s.bytes ∧ t.Inv := by
  have hpf : s.phase ≠ .fault := by simp [hp]
  obtain ⟨a, b, c, t, -, -, -, -, hrun, fa, fb, fc, ft, -⟩ :=
    bodyRun_stages hinv.1 (hinv.err_eq_none hpf) (hinv.stage_of_phase hp (by simp)) hl
  have he : exec .run s = .next t := (exec_allowed hpf (by simp [allowed, hp])).trans hrun
  have hpt : t.phase = .done := by rw [ft]
  have htinv : t.Inv := exec_inv hinv he
  have hmem : t.inMem = s.inMem := by rw [ft, fc, fb, fa]
  exact ⟨t, he, ⟨hpt, htinv.err_eq_none (by simp [hpt])⟩, by rw [State.bytes, hmem, State.bytes], htinv⟩

/-- `COMPRESS` (R87): the input is cleared, loaded and run through the four stages. -/
theorem execAll_compress {s : State} {bs : List Byte} (hpar : s.params.wellFormed = true) (hbs : bs ≠ [])
    (hl : bs.length ≤ s.params.inCap) :
    ∃ t, execAll (Pseudo.compress bs).expand s = .next t ∧ t.succeeded ∧ t.input? = some bs ∧ t.Inv := by
  have hclear : s.clear.Inv := by
    rw [State.clear_eq_reset]
    exact resetWith_inv hpar s.cmds
  obtain ⟨u, hu, huinv, hup, hub⟩ := execAll_putb_load bs hclear rfl (by simpa using hl)
  have hub : u.bytes = bs := hub
  have hulen : u.len ≠ 0 := by
    rw [← bytes_length huinv.1.inMem_listed, hub]
    simpa using hbs
  obtain ⟨t, ht, hdone, htb, htinv⟩ := exec_run_load huinv hup hulen
  refine ⟨t, ?_, hdone, ?_, htinv⟩
  · rw [Pseudo.expand, execAll, exec_clr, andThen_next, execAll_append, hu, andThen_next, execAll_singleton, ht]
  · rw [input?_eq htinv.1.inMem_listed, htb, hub]

/-- Settles O53: the expansions are as listed, `STEPS` follows `RUN`'s rule stage by stage, and `COMPRESS` clears, loads and
runs. -/
theorem pseudoInstructions : Obligations.PseudoInstructions :=
  ⟨fun _ => rfl, fun _ => rfl, fun _ => rfl, rfl, execAll_steps, fun _ _ => execAll_compress⟩

end Sys2Proof.Machine
end

/-! ## The step and the commands of control (40_commands.md): dispatch (R100 to R102), `NOP` (R103), `CLR` (R104), `PUT` (R106),
`RUN` (R108) -/

section
namespace Sys2Proof.Machine

/-! ### Dispatch (R100, R101) -/

/-- In phase `FAULT` every word but that of `CLR` is ignored, legal or not (R101 step 1). -/
theorem execWord_fault {cmd : Word} {s : State} (hp : s.phase = .fault) (hc : decode cmd ≠ .ok .clr) :
    execWord cmd s = .next s := by
  cases hd : decode cmd with
  | ok i =>
    have hi : i ≠ .clr := by rintro rfl; exact hc hd
    rw [execWord_ok hd, exec_fault hp hi]
  | error e => rw [execWord_error hd, execIllegal, if_pos hp]

/-- Settles O7: the check of the phase comes before the decoder's answer, and that before R101's table. -/
theorem dispatchOrderAndPhases : Obligations.DispatchOrderAndPhases := by
  refine ⟨fun i p _ => by cases i <;> simp [allowed], fun cmd s => ⟨fun hf => ⟨?_, fun hne => ?_⟩, fun hp =>
    ⟨fun hd => execWord_illegal hd hp, fun i hd => ⟨fun ha => ?_, fun ha => ?_⟩⟩⟩⟩
  · rintro rfl
    exact execWord_ok (decode_encode .clr) s
  · exact execWord_fault hf fun hd => hne (encode_of_decode hd).symm
  · rw [execWord_ok hd, exec_notAllowed hp ha]
  · rw [execWord_ok hd, exec_allowed hp ha]
    cases i <;> rfl

/-- Settles O5: the step takes the word off the pending ones and hands it to the decoder. -/
theorem stepRunsTheDecodedCommand : Obligations.StepRunsTheDecodedCommand := by
  refine fun s cmd rest hs => ⟨fun i hd => ?_, fun hd hp => ?_, fun hd hp => ?_⟩ <;> rw [step_of_command hs]
  · exact execWord_ok hd _
  · exact execWord_fault hp (hd .clr)
  · exact execWord_illegal hd hp

/-! ### The phase a command leaves (R102) -/

/-- The phase that the rule of a command reaches when it raises no fault, from the phase it starts in (R102). -/
def phaseReached (p : Phase) : Instr → Phase
  | .nop => p
  | .clr | .put _ => .load
  | .cnt => .counted
  | .bld => .built
  | .asg => .assigned
  | .enc | .run => .done

theorem body_phase {i : Instr} {s t : State} (ha : allowed i s.phase = true) (h : body i s = .next t) :
    t.phase = .fault ∨ t.phase = phaseReached s.phase i := by
  cases i with
  | nop => cases h; exact .inr rfl
  | clr => cases h; exact .inr rfl
  | put b =>
    rcases bodyPut_cases h with ⟨-, rfl⟩ | ⟨-, rfl⟩
    · exact .inl rfl
    · exact .inr (by simpa [allowed, phaseReached] using ha)
  | cnt => exact (em _).imp_right (bodyCnt_phase h)
  | bld => exact (em _).imp_right (bodyBld_phase h)
  | asg => exact .inr (bodyAsg_phase h)
  | enc =>
    obtain ⟨_, e⟩ := bodyEnc_cases h
    exact .inr (by rw [e]; rfl)
  | run =>
    rcases bodyRun_frame h with ⟨-, rfl⟩ | ⟨-, _, e⟩
    · exact .inl rfl
    · exact .inr (by rw [e]; rfl)

/-- Settles O8: dispatch keeps `PHASE` or enters `FAULT`; a rule that runs starts in the phase R101's table gives it. -/
theorem phaseTransitions : Obligations.PhaseTransitions := by
  intro i s t h
  rcases exec_next_cases h with ⟨hc, rfl⟩ | ⟨hc, hf, rfl⟩ | ⟨-, hp, -, rfl⟩ | ⟨-, hp, ha, hb⟩
  · exact .inl ⟨hc, rfl⟩
  · exact .inr (.inl ⟨hc, hf, hf⟩)
  · exact .inr (.inr (.inl ⟨hp, rfl⟩))
  · rcases body_phase ha hb with hf | hr
    · exact .inr (.inr (.inl ⟨hp, hf⟩))
    · -- each command has its own line of R102, between the phases that `allowed` and `phaseReached` name
      cases i <;> simp_all [allowed, phaseReached]

/-! ### `NOP` (R103) and `CLR` (R104) -/

/-- Settles O9: R101's table allows `NOP` in every phase. -/
theorem nopDoesNothing : Obligations.NopDoesNothing := ⟨rfl, exec_nop⟩

/-- `0x0101 .. 0x01FF` are words of no command, `CLR` among them (R83, R104). -/
theorem decode_clr_operand {arg : Byte} (h : arg ≠ 0) : ∀ i, decode (mkWord 1 arg) ≠ .ok i := by
  have harg : arg.toNat ≠ 0 := fun h0 => h (BitVec.eq_of_toNat_eq h0)
  have hop : (1 : Byte).toNat = 1 := rfl
  rw [decode_illegal_iff, mkWord_toNat]
  omega

/-- `LEN` is lowered by `CLR` only (R104): `PUT` raises it, no other command writes it. -/
theorem exec_len_le {i : Instr} {s t : State} (h : exec i s = .next t) (hc : i ≠ .clr) : s.len ≤ t.len := by
  rcases exec_next_cases h with ⟨he, -⟩ | ⟨-, -, rfl⟩ | ⟨-, -, -, rfl⟩ | ⟨-, -, -, hb⟩
  · exact absurd he hc
  · exact le_rfl
  · exact le_rfl
  · by_cases hput : ∃ b, i = .put b
    · obtain ⟨b, rfl⟩ := hput
      rcases bodyPut_cases hb with ⟨-, rfl⟩ | ⟨-, rfl⟩
      · exact le_rfl
      · exact Nat.le_succ _
    · obtain ⟨-, -, hin, -⟩ := eachRegisterHasItsWriters i s t h
      exact (hin hc (not_exists.1 hput)).1.ge

/-- A sound state in `LOAD` without input is the reset state (R41, R104). -/
theorem clear_eq_self {s : State} (h : s.Inv) (hp : s.phase = .load) (hl : s.len = 0) : s.clear = s := by
  have herr : s.err = .none := h.err_eq_none (by simp [hp])
  obtain ⟨⟨hfreq, hnsym⟩, ⟨hnode, hnnode, hroot, hnseq⟩, ⟨-, hcrom⟩, htb, hpad, hol, hout⟩ : s.stage .load :=
    h.stage_of_phase hp (by simp)
  obtain ⟨⟨-, hin, -, hmq, -⟩, -⟩ := h
  have hin : s.inMem = [] := List.eq_nil_of_length_eq_zero (hin.length.trans hl)
  cases s
  simp_all [State.clear]

/-- Settles O10: words with `CLR`'s opcode and an operand are illegal, the other commands never lower `LEN`, and a sound state in
`LOAD` without input is `CLR`'s own result. -/
theorem clrClearsEverything : Obligations.ClrClearsEverything := by
  refine ⟨rfl, fun _ => rfl, fun arg s ha => ⟨decode_clr_operand ha, fun hf => ?_⟩, fun i s t h hc => ⟨fun hf => ?_, ?_⟩,
    fun s hinv hp hl => ?_⟩
  · exact execWord_fault hf (decode_clr_operand ha .clr)
  · rw [exec_fault hf hc] at h
    exact Host.Outcome.next.inj h ▸ hf
  · exact exec_len_le h hc
  · rw [exec_clr, clear_eq_self hinv hp hl]

/-! ### `PUT` (R106) -/

theorem exec_put_eq_bodyPut {s : State} (hp : s.phase = .load) (b : Byte) : exec (.put b) s = bodyPut b s :=
  exec_allowed (by simp [hp]) (by simp [allowed, hp])

theorem bodyPut_full {s : State} (h : s.len = s.params.inCap) (b : Byte) :
    bodyPut b s = .next (s.raise .inputOverflow) := by
  rw [bodyPut, if_pos h]

/-- `IN_CAP` fits the width of `LEN` (R6, R22). -/
theorem inCap_lt {p : Params} (h : p.wellFormed = true) : p.inCap < 2 ^ p.freqW := by
  simp only [Params.wellFormed, Bool.and_eq_true, decide_eq_true_eq] at h
  omega

/-- Settles O12: the store at `LEN` reads back there, and no other address of `IN` is written. -/
theorem putAppendsOneByte : Obligations.PutAppendsOneByte := by
  refine ⟨fun _ => rfl, fun b s _ => ⟨fun hp hl => ?_, fun hp hl => ?_, fun hp hf => ?_⟩⟩
  · refine ⟨_, (exec_put_eq_bodyPut hp b).trans (bodyPut_eq hl b), rfl, ?_, fun a ha => ?_, fun a ha => ?_, fun hw => ?_, fun hw => ?_⟩
    · simp [State.inAt, Memory.read_write]
    · rw [Memory.read_write, if_neg ha.symm]
    · have hne : s.len ≠ a := by omega
      have hlt : a < s.len + 1 := by omega
      simp [State.inAt, Memory.read_write, ha, hne, hlt]
    · exact Memory.write_wf hw s.len b
    · exact lt_of_le_of_lt hl (inCap_lt hw)
  · exact (exec_put_eq_bodyPut hp b).trans (bodyPut_full hl b)
  · exact exec_notAllowed hf (by simp [allowed, hp])

/-! ### `RUN` (R108) -/

theorem bodyCnt_empty {s : State} (h : s.len = 0) : bodyCnt s = .next (s.raise .emptyInput) := by
  rw [bodyCnt, if_pos h]

theorem bodyRun_empty {s : State} (h : s.len = 0) : bodyRun s = .next (s.raise .emptyInput) := by
  rw [bodyRun, bodyCnt_empty h, andThen_next, unlessFaulted, if_pos (State.raise_phase _ _)]

theorem exec_run_eq_bodyRun {s : State} (hp : s.phase = .load) : exec .run s = bodyRun s :=
  exec_allowed (by simp [hp]) (by simp [allowed, hp])

/-- Settles O13: `STEPS` stands for the four commands, and after `CNT` on input `BLD` finds a symbol. -/
theorem runIsTheFourCommands : Obligations.RunIsTheFourCommands := by
  refine ⟨rfl, fun s => (execAll_steps s).symm, fun s hp hf => exec_notAllowed hf (by simp [allowed, hp]),
    fun s hp hl => (exec_run_eq_bodyRun hp).trans (bodyRun_empty hl), fun s t hp h hf => ?_⟩
  rw [exec_run_eq_bodyRun hp] at h
  rcases bodyRun_frame h with he | ⟨-, _, e⟩
  · exact he
  · rw [e] at hf
    cases hf

/-- Settles O14: `RUN` writes its stages' registers, and `MQ` is empty before and after (R29). -/
theorem runCompletes : Obligations.RunCompletes := by
  intro s hinv hp hl
  obtain ⟨t, ht, hdone, -, htinv⟩ := exec_run_load hinv hp (by omega)
  refine ⟨t, ht, ?_, hdone, htinv⟩
  obtain ⟨⟨-, -, -, hmq, -⟩, -⟩ := hinv
  obtain ⟨⟨-, -, -, htmq, -⟩, -⟩ := htinv
  rw [exec_run_eq_bodyRun hp] at ht
  rcases bodyRun_frame ht with ⟨h0, -⟩ | ⟨-, _, e⟩
  · omega
  · rw [e, htmq, hmq]

/-! ### Every word has its next state (R100) -/

/-- The rule of each command completes from every sound state in the phase R101's table allows it in. -/
theorem body_completes {i : Instr} {s : State} (h : s.Inv) (ha : allowed i s.phase = true) : ∃ t, body i s = .next t := by
  cases i with
  | nop => exact ⟨s, rfl⟩
  | clr => exact ⟨s.clear, rfl⟩
  | put b =>
    obtain ⟨⟨-, -, hle, -⟩, -⟩ := h
    rcases hle.eq_or_lt with hl | hl
    · exact ⟨_, bodyPut_full hl b⟩
    · exact ⟨_, bodyPut_eq hl b⟩
  | cnt =>
    by_cases hl : s.len = 0
    · exact ⟨_, bodyCnt_empty hl⟩
    · obtain ⟨t, ht, -⟩ := bodyCnt_stage h.1 (h.stage_of_phase (by simpa [allowed] using ha) (by simp)) hl
      exact ⟨t, ht⟩
  | bld =>
    obtain ⟨t, ht, -⟩ := bodyBld_stage h.1 (h.stage_of_phase (by simpa [allowed] using ha) (by simp))
    exact ⟨t, ht⟩
  | asg =>
    obtain ⟨t, ht, -⟩ := bodyAsg_stage h.1 (h.stage_of_phase (by simpa [allowed] using ha) (by simp))
    exact ⟨t, ht⟩
  | enc =>
    obtain ⟨t, ht, -⟩ := bodyEnc_stage h.1 (h.stage_of_phase (by simpa [allowed] using ha) (by simp))
    exact ⟨t, ht⟩
  | run =>
    have hp : s.phase = .load := by simpa [allowed] using ha
    by_cases hl : s.len = 0
    · exact ⟨_, bodyRun_empty hl⟩
    · obtain ⟨t, ht, -⟩ := exec_run_load h hp hl
      exact ⟨t, (exec_run_eq_bodyRun hp).symm.trans ht⟩

theorem exec_completes {s : State} (h : s.Inv) (i : Instr) : ∃ t, exec i s = .next t := by
  by_cases hc : i = .clr
  · exact ⟨_, hc ▸ exec_clr s⟩
  · rw [exec_eq_dispatch hc]
    rcases dispatch_cases i (body i) s with ⟨-, e⟩ | ⟨-, -, e⟩ | ⟨-, ha, e⟩ <;> rw [e]
    · exact ⟨_, rfl⟩
    · exact ⟨_, rfl⟩
    · exact body_completes h ha

theorem execIllegal_completes (s : State) : ∃ t, execIllegal s = .next t := by
  unfold execIllegal
  split <;> exact ⟨_, rfl⟩

theorem execWord_completes {s : State} (h : s.Inv) (cmd : Word) : ∃ t, execWord cmd s = .next t := by
  cases hd : decode cmd with
  | ok i => exact execWord_ok hd s ▸ exec_completes h i
  | error e => exact execWord_error hd s ▸ execIllegal_completes s

/-- Settles O56: each rule completes on the line of R41 it starts at, and the pending words play no part in the invariant. -/
theorem everyWordHasItsNextState : Obligations.EveryWordHasItsNextState := by
  refine ⟨fun s cmd h => execWord_completes h cmd, fun s h => ?_⟩
  cases hs : s.cmds with
  | nil => exact ⟨s, step_of_no_command hs⟩
  | cons w rest => exact step_of_command hs ▸ execWord_completes ((inv_cmds_iff s rest).2 h) w

end Sys2Proof.Machine
end

/-! ## The Symbol Table (41_symbol_table.md): `CNT` (R121, R122) and the properties of the counts (R123) -/

section
namespace Sys2Proof.Machine

/-! ### `CNT` and `BLD` on empty input (R121, R146) -/

theorem exec_cnt_eq_bodyCnt {s : State} (hp : s.phase = .load) : exec .cnt s = bodyCnt s :=
  exec_allowed (by simp [hp]) (by simp [allowed, hp])

theorem exec_cnt_empty {s : State} (hp : s.phase = .load) (hl : s.len = 0) :
    exec .cnt s = .next (s.raise .emptyInput) := by
  rw [exec_cnt_eq_bodyCnt hp, bodyCnt_empty hl]

theorem exec_bld_eq_bodyBld {s : State} (hp : s.phase = .counted) : exec .bld s = bodyBld s :=
  exec_allowed (by simp [hp]) (by simp [allowed, hp])

theorem bodyBld_empty {s : State} (h : s.nsym = 0) : bodyBld s = .next (s.raise .emptyInput) := by
  rw [bodyBld, if_pos h]

/-- Settles O23: both rules make the check first, and `raise` writes `PHASE` and `ERR` only (R228). -/
theorem emptyInputFailsFast : Obligations.EmptyInputFailsFast :=
  ⟨fun _ hp hl => exec_cnt_empty hp hl, fun _ hp hn => (exec_bld_eq_bodyBld hp).trans (bodyBld_empty hn)⟩

/-! ### The counts of `CNT` (R122) -/

/-- `CNT` on input that is not empty, from a sound state in `LOAD`, whose counters are all 0 (R41). -/
theorem exec_cnt_load {s : State} (h : s.Inv) (hp : s.phase = .load) (hl : 1 ≤ s.len) :
    exec .cnt s = .next { s with freq := countBytes [] s.bytes, nsym := countSymbols (countBytes [] s.bytes),
                                 phase := .counted } := by
  obtain ⟨⟨hfreq, -⟩, -⟩ : s.stage .load := h.stage_of_phase hp (by simp)
  rw [exec_cnt_eq_bodyCnt hp, bodyCnt_eq h.1.inMem_listed (by omega), hfreq]

theorem freqIn_countBytes_nil (bs : List Byte) (b : Byte) : freqIn (countBytes [] bs) b = bs.count b := by
  rw [freqIn_countBytes, freqIn_nil, Nat.zero_add]

/-- `IN[a]` is the `a`-th input byte, and there is none at or above `LEN` (R38, R60). -/
theorem inAt_eq_getElem? {s : State} (h : listsExactly s.inMem s.len) (a : Nat) : s.inAt a = s.bytes[a]? := by
  rw [State.inAt, Memory.read, h.lookup, State.bytes, List.getElem?_map, ite_eq_left_iff]
  intro ha
  rw [List.getElem?_eq_none (by rw [h.length]; omega), Option.map_none]

/-- Counting a value in a list is counting the positions that hold it. -/
theorem countP_range_getElem? (bs : List Byte) (b : Byte) :
    ((List.range bs.length).countP fun a => decide (bs[a]? = some b)) = bs.count b := by
  induction bs with
  | nil => rfl
  | cons c bs ih =>
    rw [List.length_cons, List.range_succ_eq_map, List.countP_cons, List.countP_map, List.count_cons, ← ih]
    simp [Function.comp_def]

/-- The counter of `CNT` is R122's number of addresses. -/
theorem count_bytes_eq_countP_inAt {s : State} (h : listsExactly s.inMem s.len) (b : Byte) :
    s.bytes.count b = (List.range s.len).countP fun a => decide (s.inAt a = some b) := by
  simp only [inAt_eq_getElem? h]
  rw [← bytes_length h, countP_range_getElem?]

theorem countSymbols_eq_countP_range (m : SparseMap Nat) :
    countSymbols m = (List.range 256).countP fun v => decide (0 < freqIn m (BitVec.ofNat 8 v)) :=
  List.countP_map

/-- Settles O24: each counter starts at 0, and `CNT`'s loop adds to it the number of addresses that hold its symbol. -/
theorem cntCounts : Obligations.CntCounts := by
  refine ⟨rfl, fun s h hp hl => ?_, fun _ hp hl => exec_cnt_empty hp hl,
    fun s hp hf => exec_notAllowed hf (by simp [allowed, hp])⟩
  refine ⟨_, exec_cnt_load h hp hl, rfl, fun b => ?_, countSymbols_eq_countP_range _⟩
  rw [← count_bytes_eq_countP_inAt h.1.inMem_listed]
  exact freqIn_countBytes_nil s.bytes b

/-! ### The properties (a) to (d) (R123) -/

/-- From `CNT` on the counters are those of the input (R41, R42). -/
theorem stage_counts {s : State} {p : Phase} (h : s.stage p) (hp : p ≠ .load) : s.counts := by
  cases p with
  | load => exact absurd rfl hp
  | fault => exact h.elim
  | counted | built | assigned | done => exact h.1

theorem State.counts.freqAt_eq {s : State} (h : s.counts) (b : Byte) : s.freqAt b = s.bytes.count b := by
  obtain ⟨-, -, -, hcount, -⟩ := h
  exact hcount b (mem_allSymbols b)

/-- R123 (a). -/
theorem sum_freqAt {s : State} (hb : listsExactly s.inMem s.len) (hc : s.counts) :
    ((List.range 256).map fun v => s.freqAt (BitVec.ofNat 8 v)).sum = s.len := by
  have hsum : (allSymbols.map s.freqAt).sum = s.len := by
    rw [← bytes_length hb, ← sum_count, funext hc.freqAt_eq]
  rwa [allSymbols, List.map_map] at hsum

theorem State.counts.freqAt_pos {s : State} (h : s.counts) (b : Byte) : 0 < s.freqAt b ↔ b ∈ s.bytes := by
  rw [h.freqAt_eq, List.count_pos_iff]

/-- R123 (c). -/
theorem freqAt_pos_iff_inAt {s : State} (hb : listsExactly s.inMem s.len) (hc : s.counts) (b : Byte) :
    0 < s.freqAt b ↔ ∃ a, s.inAt a = some b := by
  simp only [hc.freqAt_pos, inAt_eq_getElem? hb, List.mem_iff_getElem?]

/-- R123 (d): each occurring symbol takes up an input byte of its own. -/
theorem counts_nsym_le_len {s : State} (hb : listsExactly s.inMem s.len) (hc : s.counts) : s.nsym ≤ s.len := by
  have hsub : s.occurring ⊆ s.bytes := fun b h => (hc.freqAt_pos b).1 (mem_occurring.1 h)
  obtain ⟨-, -, -, -, hn⟩ := hc
  rw [hn, ← bytes_length hb]
  exact ((occurring_nodup s).subperm hsub).length_le

/-! ### The order of the input does not matter (R123 (e)) -/

/-- Stores to two indices commute. -/
theorem store_comm {α : Type} {i j : Nat} (h : i ≠ j) (m : SparseMap α) (v w : α) :
    store (store m i v) j w = store (store m j w) i v := by
  induction m with
  | nil => grind [store]
  | cons c m ih =>
    obtain ⟨k, x⟩ := c
    by_cases hk : k < i ∧ k < j
    · obtain ⟨hi, hj⟩ := hk
      simp only [store, if_neg hi.not_gt, if_neg hi.ne', if_neg hj.not_gt, if_neg hj.ne', ih]
    · -- one of the two stores ends at the head
      grind [store]

theorem countBytes_perm {bs bs' : List Byte} (h : bs.Perm bs') (m : SparseMap Nat) : countBytes m bs = countBytes m bs' := by
  induction h generalizing m with
  | nil => rfl
  | cons b _ ih => exact ih _
  | swap b c bs =>
    by_cases hbc : b = c
    · rw [hbc]
    · have hne : c.toNat ≠ b.toNat := fun e => hbc (BitVec.eq_of_toNat_eq e).symm
      simp only [countBytes, freqIn_store, if_neg hbc, if_neg (Ne.symm hbc), store_comm hne]
  | trans _ _ ih ih' => exact (ih m).trans (ih' m)

/-- Settles O25: the counters are the input's byte counts, and the two counting loops end with the same map. -/
theorem countProperties : Obligations.CountProperties := by
  refine ⟨fun s h hp hf => ?_, fun s s' t t' h h' hp hp' hl hperm ht ht' => ?_⟩
  · have hb : listsExactly s.inMem s.len := h.1.inMem_listed
    have hc : s.counts := stage_counts (h.stage_of_phase rfl hf) hp
    exact ⟨sum_freqAt hb hc, freqAt_le_len hb hc, freqAt_pos_iff_inAt hb hc, counts_nsym_pos hb hc,
      le_min (counts_nsym_le hc) (counts_nsym_le_len hb hc)⟩
  · have hlen : s.len = s'.len := by
      rw [← bytes_length h.1.inMem_listed, hperm.length_eq, bytes_length h'.1.inMem_listed]
    rw [exec_cnt_load h hp hl] at ht
    rw [exec_cnt_load h' hp' (hlen ▸ hl), ← countBytes_perm hperm] at ht'
    cases ht
    cases ht'
    exact ⟨rfl, rfl⟩

end Sys2Proof.Machine
end

/-! ## The merge queue (42_merge_queue.md): its order (R130, R133) and its four operations (R131 to R136) -/

section
namespace Sys2Proof.Machine

/-! ### `extractMin` (R132, R133) -/

/-- R130 and R132: where no two entries share a sequence number, the minimum's key is less than every other entry's. -/
theorem minEntry_key_lt {q : List Entry} {e x : Entry} (hmin : minEntry q = some e) (hseq : (q.map Entry.seq).Nodup)
    (hx : x ∈ q) (hne : x ≠ e) : e.weight < x.weight ∨ e.weight = x.weight ∧ e.seq < x.seq := by
  obtain ⟨he, hle⟩ := minEntry_spec hmin
  have hnot : Entry.before x e = false := hle x hx
  have hdiff : x.seq ≠ e.seq := fun h => hne (List.inj_on_of_nodup_map hseq hx he h)
  rw [← Bool.not_eq_true, before_iff] at hnot
  omega

/-- Settles O27: the minimum is before every other entry, and the entry extracted next is another one. -/
theorem extractMinTakesTheLeast : Obligations.ExtractMinTakesTheLeast := by
  intro s hq hseq
  obtain ⟨e, hmin⟩ := exists_minEntry hq
  refine ⟨e, mqExtractMin_of_min hmin, (minEntry_spec hmin).1, fun x => minEntry_key_lt hmin hseq, fun e' s' h => ?_⟩
  have hmem : e' ∈ s.mq.erase e := (mqExtractMin_frame h).1
  obtain ⟨hne, hin⟩ := hseq.of_map.mem_erase_iff.1 hmem
  exact minEntry_key_lt hmin hseq hin hne

/-! ### `insert` (R131) -/

/-- Settles O26: the new entry stands at the end of the list. -/
theorem insertAddsOneEntry : Obligations.InsertAddsOneEntry := by
  intro s node weight
  have hperm : (s.mqInsert node weight).mq.Perm ({ weight := weight, seq := s.nseq, node := node } :: s.mq) :=
    List.perm_append_singleton _ _
  exact ⟨rfl, hperm, hperm.length_eq⟩

/-! ### `size` and `isEmpty`, and the empty queue (R134, R135, R136) -/

theorem mqSize_eq_zero {s : State} : s.mqSize = 0 ↔ s.mq = [] := List.length_eq_zero_iff

theorem mqIsEmpty_iff {s : State} : s.mqIsEmpty = true ↔ s.mqSize = 0 := beq_iff_eq

/-- R132 and R134: an extraction lowers the size by one. -/
theorem mqExtractMin_mqSize {s u : State} {e : Entry} (h : s.mqExtractMin = some (e, u)) : u.mqSize + 1 = s.mqSize := by
  rw [(mqExtractMin_frame h).2]
  exact length_erase_min (mqExtractMin_eq_some h).1

theorem mqExtractMin_nseq {s u : State} {e : Entry} (h : s.mqExtractMin = some (e, u)) : u.nseq = s.nseq := by
  rw [(mqExtractMin_frame h).2]

/-- Settles O28: an extraction fails on the empty list only, and otherwise takes out one entry and leaves `NSEQ`. -/
theorem queueSizeAndEmpty : Obligations.QueueSizeAndEmpty := fun _ =>
  ⟨rfl, mqIsEmpty_iff, mqExtractMin_eq_none.trans mqSize_eq_zero.symm,
    fun _ _ h => ⟨mqExtractMin_mqSize h, mqExtractMin_nseq h⟩⟩

end Sys2Proof.Machine
end

/-! ## The Tree Builder (43_tree_builder.md): seeding (R147), the merges (R148), the finished tree (R149 to R153) and why its code
is optimal (R154) -/

section
namespace Sys2Proof.Machine

/-! ### Seeding (R147) -/

/-- The `k`-th occurring symbol stands at index `k` of the seeded arena. -/
theorem seeded_nodeAt {s : State} {k : Nat} {b : Byte} (h : s.occurring[k]? = some b) :
    s.seeded.nodeAt k = some (Node.ofSymbol b (s.freqAt b)) := by
  have hk : k < s.seeded.nnode := (List.getElem?_eq_some_iff.1 h).1
  have hlist : listsExactly s.seeded.node s.seeded.nnode := seedNodes_fst _ _
  rw [State.nodeAt, if_pos hk, hlist.lookup, ← List.getElem?_map, State.seeded, seedNodes_snd, List.getElem?_map, h,
    Option.map_some]

/-- Its queue entry stands at place `k` of the queue, with `seq = k`. -/
theorem seeded_mq_getElem? {s : State} {k : Nat} {b : Byte} (h : s.occurring[k]? = some b) :
    s.seeded.mq[k]? = some { weight := s.freqAt b, seq := k, node := k } := by
  simp [State.seeded, seedEntries, h]

/-- Settles O30, by seeding in closed form, `State.seeded`. -/
theorem seedingInAscendingOrder : Obligations.SeedingInAscendingOrder := by
  intro s hinv hp
  obtain ⟨-, htree, -⟩ : s.stage .counted := hinv.stage_of_phase hp (by simp)
  obtain ⟨⟨-, -, -, hmq, -⟩, -⟩ := hinv
  refine ⟨occurring_sorted s, fun b => mem_occurring, s.seeded, seed_allSymbols htree hmq, rfl, ?_,
    fun k b hk => ⟨seeded_nodeAt hk, seeded_mq_getElem? hk⟩⟩
  simp [State.seeded, seedEntries]

/-! ### One merge (R148) -/

/-- With two extractions to make, a merge is the creation of their parent. -/
theorem mergeOnce_eq_createNode {s s1 s2 : State} {first second : Entry} (h1 : s.mqExtractMin = some (first, s1))
    (h2 : s1.mqExtractMin = some (second, s2)) : mergeOnce s = s2.createNode (Node.ofMerge first second) := by
  rw [mergeOnce, h1, orRefuse_some, h2, orRefuse_some]

/-- Settles O31: the extractions write `MQ` only, and the creation of the parent writes entry `NNODE` of the arena only. -/
theorem oneMerge : Obligations.OneMerge := by
  intro s s1 s2 first second hn h1 h2
  obtain ⟨-, e1⟩ := mqExtractMin_frame h1
  obtain ⟨-, e2⟩ := mqExtractMin_frame h2
  have hnode : s2.node = s.node := by rw [e2, e1]
  have hnn : s2.nnode = s.nnode := by rw [e2, e1]
  have hseq : s2.nseq = s.nseq := by rw [e2, e1]
  have hrun := (mergeOnce_eq_createNode h1 h2).trans (createNode_eq (n := Node.ofMerge first second) (hnn ▸ hn))
  rw [hnode, hnn, hseq] at hrun
  refine ⟨_, hrun, rfl, ?_, fun i hi => lookup_store_ne _ hi.symm _, List.perm_append_singleton _ _⟩
  rw [State.nodeAt, if_pos (Nat.lt_succ_self _)]
  exact lookup_store_self _ _ _

/-! ### `BLD` on counted input (R145, R149) -/

theorem exec_bld_counted {s : State} (h : s.Inv) (hp : s.phase = .counted) : ∃ t, exec .bld s = .next t ∧
    t = { s with node := t.node, nnode := t.nnode, root := t.root, nseq := t.nseq, phase := .built } ∧ t.stage .built := by
  rw [exec_bld_eq_bodyBld hp]
  exact bodyBld_stage h.1 (h.stage_of_phase hp (by simp))

/-- Settles O29: `BLD` reaches the next line of R41, and `MQ` is empty between commands (R29). -/
theorem bldCompletes : Obligations.BldCompletes := by
  refine ⟨rfl, fun s hinv hp => ?_⟩
  obtain ⟨t, ht, hframe, -⟩ := exec_bld_counted hinv hp
  have htinv : t.Inv := exec_inv hinv ht
  obtain ⟨⟨-, -, -, hmq, -⟩, -⟩ := id htinv
  exact ⟨t, ht, hframe, hmq, htinv⟩

/-! ### The finished arena (R150) -/

/-- From `BLD` on, the counters, the tree and the choice of its merges stand (R41). -/
theorem State.Inv.finished {s : State} (h : s.Inv) (hp : s.phase = .built ∨ s.phase = .assigned ∨ s.phase = .done) :
    s.counts ∧ s.hasTree ∧ s.greedy := by
  rcases hp with hp | hp | hp
  all_goals
    obtain ⟨hc, hs, hg, -⟩ := h.stage_of_phase hp (by simp)
    exact ⟨hc, hs, hg⟩

/-- In a map that lists `0 .. n-1` an entry stands at the place of its index. -/
theorem listsExactly.getElem?_fst {α : Type} {m : SparseMap α} {n : Nat} (h : listsExactly m n) {c : Nat × α} (hc : c ∈ m) :
    m[c.1]? = some c := by
  obtain ⟨k, hk, rfl⟩ := List.getElem_of_mem hc
  rw [h.getElem hk, List.getElem?_eq_getElem hk]

theorem getElem?_of_nodeAt {s : State} (hs : s.hasTree) {i : Nat} {n : Node} (hn : s.nodeAt i = some n) :
    s.node[i]? = some (i, n) := by
  obtain ⟨hlist, -⟩ := hs
  exact hlist.getElem?_fst ((mem_node_iff hlist (c := (i, n))).2 hn)

/-- The entries below `NSYM` are the seeded ones (R147). -/
theorem mem_take_of_lt {s : State} (hs : s.hasTree) {i : Nat} {n : Node} (hn : s.nodeAt i = some n) (hi : i < s.nsym) :
    (i, n) ∈ s.node.take s.nsym :=
  List.mem_of_getElem? ((List.getElem?_take_of_lt hi).trans (getElem?_of_nodeAt hs hn))

/-- The entries from `NSYM` on are the merged ones (R148). -/
theorem mem_drop_of_le {s : State} (hs : s.hasTree) {i : Nat} {n : Node} (hn : s.nodeAt i = some n) (hi : s.nsym ≤ i) :
    (i, n) ∈ s.node.drop s.nsym := by
  have hget : (s.node.drop s.nsym)[i - s.nsym]? = some (i, n) := by
    rw [List.getElem?_drop, Nat.add_sub_cancel' hi, getElem?_of_nodeAt hs hn]
  exact List.mem_of_getElem? hget

/-- What is said of the merged entries, by index (R150, R151). -/
theorem inner_node {s : State} (hs : s.hasTree) {i : Nat} {n : Node} (hn : s.nodeAt i = some n) (hi : s.nsym ≤ i) :
    n.leaf = false ∧ n.left < i ∧ n.right < i ∧ n.weight = s.weightAt n.left + s.weightAt n.right := by
  have hmem := mem_drop_of_le hs hn hi
  obtain ⟨-, -, -, -, -, hinner, -⟩ := hs
  obtain ⟨hleaf, -, hleft, hright, hw⟩ := hinner _ hmem
  exact ⟨hleaf, hleft, hright, hw⟩

/-- The leaves are the entries below `NSYM` (R150). -/
theorem leaf_iff_lt {s : State} (hs : s.hasTree) {i : Nat} {n : Node} (hn : s.nodeAt i = some n) :
    n.leaf = true ↔ i < s.nsym := by
  constructor
  · intro hleaf
    by_contra hi
    obtain ⟨hinner, -⟩ := inner_node hs hn (Nat.le_of_not_lt hi)
    rw [hleaf] at hinner
    cases hinner
  · intro hi
    obtain ⟨hleaf, -⟩ := take_leaf hs (mem_take_of_lt hs hn hi)
    exact hleaf

theorem inner_iff_le {s : State} (hs : s.hasTree) {i : Nat} {n : Node} (hn : s.nodeAt i = some n) :
    n.leaf = false ↔ s.nsym ≤ i := by
  rw [← Bool.not_eq_true, leaf_iff_lt hs hn, Nat.not_lt]

/-- The leaves stand in the order of their symbols (R147, R150). -/
theorem occurring_getElem?_of_leaf {s : State} (hs : s.hasTree) {i : Nat} {n : Node} (hn : s.nodeAt i = some n)
    (hi : i < s.nsym) : s.occurring[i]? = some n.sym := by
  rw [← take_syms hs, List.getElem?_map, List.getElem?_take_of_lt hi, getElem?_of_nodeAt hs hn, Option.map_some]

theorem kids_of_inner {s : State} {i : Nat} {n : Node} (hn : s.nodeAt i = some n) (hl : n.leaf = false) :
    s.kids i = [n.right, n.left] := by
  simp [State.kids, hn, hl]

theorem leavesBefore_ne {s : State} {j k : Nat} (h : s.leavesBefore j k) : j ≠ k := by
  rintro rfl
  rcases h with h | ⟨-, h⟩ <;> omega

/-- An entry that has a parent waits for no later one (R28). -/
theorem parent_le {s : State} (hg : s.greedy) {c d : Nat × Node} (hc : c ∈ s.node) (hd : d ∈ s.node)
    (hcl : c.2.leaf = false) (hdl : d.2.leaf = false) {x : Nat} (hcx : c.2.left = x ∨ c.2.right = x)
    (hdx : d.2.left = x ∨ d.2.right = x) : d.1 ≤ c.1 := by
  by_contra hlt
  obtain ⟨⟨-, hright⟩, ⟨-, hleft⟩, -⟩ := hg d hd hdl
  have hr := hright c hc (Nat.lt_of_not_le hlt) hcl
  have hl := hleft c hc (Nat.lt_of_not_le hlt) hcl
  omega

/-- Every entry but the root has one parent (R28, R150). -/
theorem existsUnique_parent {s : State} (hs : s.hasTree) (hg : s.greedy) {x : Nat} (hx : x < s.root) :
    ∃ p n, s.nodeAt p = some n ∧ n.leaf = false ∧ (n.left = x ∨ n.right = x) ∧
      ∀ p' n', s.nodeAt p' = some n' → n'.leaf = false → n'.left = x ∨ n'.right = x → p' = p := by
  obtain ⟨⟨p, n⟩, hmem, hl, hkid⟩ := exists_parent hs hx
  have hkid : n.left = x ∨ n.right = x := hkid.symm.imp Eq.symm Eq.symm
  obtain ⟨hlist, -⟩ := hs
  refine ⟨p, n, (mem_node_iff hlist).1 hmem, hl, hkid, fun p' n' hn' hl' hkid' => ?_⟩
  have hmem' : (p', n') ∈ s.node := (mem_node_iff hlist).2 hn'
  exact Nat.le_antisymm (parent_le hg hmem hmem' hl hl' hkid hkid') (parent_le hg hmem' hmem hl' hl hkid' hkid)

/-- The root is nobody's child (R28, R150). -/
theorem child_ne_root {s : State} (ht : TreeFacts s) {p : Nat} {n : Node} (hn : s.nodeAt p = some n) (hl : n.leaf = false) :
    n.left ≠ s.root ∧ n.right ≠ s.root := by
  have hkid : ∀ i ∈ s.kids p, i < s.root := fun i hi => (ht.kids_lt hi).2
  rw [kids_of_inner hn hl] at hkid
  exact ⟨(hkid n.left (by simp)).ne, (hkid n.right (by simp)).ne⟩

/-- Settles O32: layout and children from `hasTree`; that the two children differ and that the parent is the only one from the
order in which entries leave the queue. -/
theorem treeShape : Obligations.TreeShape := by
  intro s hinv hp
  obtain ⟨hc, hs, hg⟩ := hinv.finished hp
  have hpos : 1 ≤ s.nsym := counts_nsym_pos hinv.1.inMem_listed hc
  have hle := counts_nsym_le hc
  obtain ⟨hlist, hnn, hroot, hseq, -⟩ := id hs
  refine ⟨hpos, hnn, by omega, hroot, hseq, fun k hk => ?_, fun k hk hkn => ?_, fun x hx hxr => ?_, fun p n hn hl => ?_⟩
  · obtain ⟨n, hn⟩ := nodeAt_isSome hlist (i := k) (by omega)
    exact ⟨n, hn, (leaf_iff_lt hs hn).2 hk, occurring_getElem?_of_leaf hs hn hk⟩
  · obtain ⟨n, hn⟩ := nodeAt_isSome hlist hkn
    obtain ⟨hl, hleft, hright, -⟩ := inner_node hs hn hk
    obtain ⟨-, -, hbefore, -⟩ := hg (k, n) ((mem_node_iff hlist).2 hn) hl
    exact ⟨n, hn, hl, hleft, hright, (leavesBefore_ne hbefore).symm⟩
  · exact existsUnique_parent hs hg (by omega)
  · exact child_ne_root (treeFacts_of_hasTree hs hpos) hn hl

/-- Settles O33: `BLD` leaves a greedy tree, whose internal nodes are the entries from `NSYM` on. -/
theorem mergesJoinTheTwoLeast : Obligations.MergesJoinTheTwoLeast := by
  intro s hinv hp
  obtain ⟨t, ht, -, -, hs, hg, -⟩ := exec_bld_counted hinv hp
  refine ⟨t, ht, fun i hi hin => ?_⟩
  obtain ⟨hlist, -⟩ := id hs
  obtain ⟨n, hn⟩ := nodeAt_isSome hlist hin
  have hl : n.leaf = false := (inner_iff_le hs hn).2 hi
  exact ⟨n, hn, hl, hg (i, n) ((mem_node_iff hlist).2 hn) hl⟩

/-! ### The weights (R151) -/

theorem weightAt_of_nodeAt {s : State} {i : Nat} {n : Node} (hn : s.nodeAt i = some n) : s.weightAt i = n.weight := by
  rw [State.weightAt, hn]; rfl

theorem leaf_weight {s : State} (hs : s.hasTree) {i : Nat} {n : Node} (hn : s.nodeAt i = some n) (hi : i < s.nsym) :
    0 < n.weight ∧ n.weight = s.freqAt n.sym := by
  obtain ⟨-, hocc, hw⟩ := take_leaf hs (mem_take_of_lt hs hn hi)
  exact ⟨hw ▸ mem_occurring.1 hocc, hw⟩

/-- No entry weighs nothing: an occurring symbol has a positive counter, and sums of positive weights are positive. -/
theorem weightAt_pos {s : State} (hs : s.hasTree) (i : Nat) (hi : i < s.nnode) : 0 < s.weightAt i := by
  obtain ⟨hlist, -⟩ := id hs
  induction i using Nat.strong_induction_on with
  | _ i ih =>
    obtain ⟨n, hn⟩ := nodeAt_isSome hlist hi
    rw [weightAt_of_nodeAt hn]
    rcases Nat.lt_or_ge i s.nsym with hlt | hge
    · exact (leaf_weight hs hn hlt).1
    · obtain ⟨-, hleft, -, hw⟩ := inner_node hs hn hge
      have hpos := ih n.left hleft (hleft.trans hi)
      omega

/-- What waits right after a merge is its result, or waited before and was left behind by both children. -/
theorem eq_or_weightAt_le_of_waits {s : State} (hg : s.greedy) {c : Nat × Node} (hc : c ∈ s.node) (hl : c.2.leaf = false)
    {x : Nat} (hx : s.waits (c.1 + 1) x) : x = c.1 ∨ s.weightAt c.2.right ≤ s.weightAt x ∧ s.weightAt c.2.left ≤ s.weightAt x := by
  obtain ⟨hlt, hno⟩ := hx
  obtain ⟨-, -, hrl, hrest⟩ := hg c hc hl
  by_cases hxc : x = c.1
  · exact .inl hxc
  obtain ⟨hxr, hxl⟩ := hno c hc (Nat.lt_succ_self _) hl
  have hwaits : s.waits c.1 x := ⟨by omega, fun d hd hdc => hno d hd (hdc.trans (Nat.lt_succ_self _))⟩
  have hlx := hrest x hwaits hxr hxl
  unfold State.leavesBefore at hrl hlx
  exact .inr ⟨by omega, by omega⟩

/-- A merge makes nothing lighter than the merge before it: it takes that one's result, or two entries that weigh no less than
that one's two. -/
theorem weightAt_le_succ {s : State} (hs : s.hasTree) (hg : s.greedy) {i : Nat} (hi : s.nsym ≤ i) (hin : i + 1 < s.nnode) :
    s.weightAt i ≤ s.weightAt (i + 1) := by
  obtain ⟨hlist, -⟩ := id hs
  obtain ⟨m, hm⟩ := nodeAt_isSome hlist (Nat.lt_of_succ_lt hin)
  obtain ⟨n, hn⟩ := nodeAt_isSome hlist hin
  obtain ⟨hml, -, -, hmw⟩ := inner_node hs hm hi
  obtain ⟨hnl, -, -, hnw⟩ := inner_node hs hn (Nat.le_succ_of_le hi)
  obtain ⟨hright, hleft, -⟩ := hg (i + 1, n) ((mem_node_iff hlist).2 hn) hnl
  have hmem : (i, m) ∈ s.node := (mem_node_iff hlist).2 hm
  rw [weightAt_of_nodeAt hn, hnw]
  rcases eq_or_weightAt_le_of_waits hg hmem hml hright with hr | ⟨-, hr⟩
  · rw [hr]; exact Nat.le_add_left _ _
  rcases eq_or_weightAt_le_of_waits hg hmem hml hleft with hl | ⟨hl, -⟩
  · rw [hl]; exact Nat.le_add_right _ _
  · rw [weightAt_of_nodeAt hm, hmw, Nat.add_comm]
    exact Nat.add_le_add hl hr

/-- The internal nodes come in non-decreasing order of weight (R151). -/
theorem weightAt_mono {s : State} (hs : s.hasTree) (hg : s.greedy) {i j : Nat} (hi : s.nsym ≤ i) (hij : i ≤ j)
    (hj : j < s.nnode) : s.weightAt i ≤ s.weightAt j := by
  induction j, hij using Nat.le_induction with
  | base => exact Nat.le_refl _
  | succ j hij ih => exact (ih (Nat.lt_of_succ_lt hj)).trans (weightAt_le_succ hs hg (hi.trans hij) hj)

/-- Settles O34: leaves and sums from `hasTree`, the bounds by going up and down the tree, the order from the greedy merges. -/
theorem treeWeights : Obligations.TreeWeights := by
  intro s hinv hp
  obtain ⟨hc, hs, hg⟩ := hinv.finished hp
  have hpos : 1 ≤ s.nsym := counts_nsym_pos hinv.1.inMem_listed hc
  obtain ⟨-, hnn, hroot, -, -, -, -, hrootw⟩ := id hs
  refine ⟨fun i n hn hl => ?_, fun i n hn hl => ?_, fun i hi => ⟨weightAt_pos hs i hi, ?_⟩, hrootw,
    fun i j hi hij hj => weightAt_mono hs hg hi hij hj⟩
  · exact (leaf_weight hs hn ((leaf_iff_lt hs hn).1 hl)).2
  · obtain ⟨-, -, -, hw⟩ := inner_node hs hn ((inner_iff_le hs hn).1 hl)
    exact hw
  · exact weightAt_le_len hs s.root i (by omega) (by omega)

/-! ### One symbol (R152, R169) -/

/-- The one leaf of a tree with one symbol. -/
def singleLeaf (b : Byte) (weight : Nat) (label : Option PathLabel) : Node :=
  { leaf := true, sym := b, left := 0, right := 0, weight := weight, label := label }

/-- The codeword `"0"` of R169. -/
def singleWord : Codeword := { clen := 1, code := 0 }

/-- One occurring symbol is the whole input. -/
theorem freqAt_eq_len {s : State} {b : Byte} (hb : listsExactly s.inMem s.len) (hc : s.counts) (h : s.occurring = [b]) :
    s.freqAt b = s.len := by
  have hsum := sum_occurring fun b _ => hc.freqAt_eq b
  rw [h, bytes_length hb] at hsum
  simpa using hsum

/-- With one entry in the queue there is nothing to merge (R148). -/
theorem mergeLoop_single {s : State} {e : Entry} (h : s.mq = [e]) (k : Nat) : mergeLoop k s = .next s := by
  cases k with
  | zero => rfl
  | succ k => rw [mergeLoop, if_neg (by simp [State.mqSize, h])]

/-- The last entry of the queue names the root (R149). -/
theorem finishBuild_single {s : State} {e : Entry} (h : s.mq = [e]) :
    finishBuild s = .next { s with mq := [], root := e.node, phase := .built } := by
  rw [finishBuild, mqExtractMin_of_min (e := e) (by rw [h]; rfl), orRefuse_some, h, List.erase_cons_head]

/-- With one symbol `BLD` seeds its leaf, merges nothing and extracts it as the root (R152). -/
theorem bodyBld_single {s : State} {b : Byte} (hb : listsExactly s.inMem s.len) (hm : s.mq = []) (hc : s.counts)
    (ht : s.noTree) (h : s.occurring = [b]) :
    bodyBld s = .next { s with node := [(0, singleLeaf b s.len none)], nnode := 1, root := 0, nseq := 1, phase := .built } := by
  have hseeded : s.seeded = { s with node := [(0, singleLeaf b s.len none)], nnode := 1, nseq := 1,
                                     mq := [{ weight := s.len, seq := 0, node := 0 }] } := by
    rw [State.seeded, h, ← freqAt_eq_len hb hc h]; rfl
  have hn : s.nsym ≠ 0 := by
    have := counts_nsym_pos hb hc
    omega
  rw [bodyBld, if_neg hn, seed_allSymbols ht hm, andThen_next, hseeded, mergeLoop_single rfl, andThen_next,
    finishBuild_single rfl]
  simp [hm]

/-- On that tree `ASG` labels the root with the codeword `"0"` and fills one cell of the ROM (R169, R172). -/
theorem bodyAsg_single {s : State} {b : Byte} {w : Nat} (hnode : s.node = [(0, singleLeaf b w none)]) (hnn : s.nnode = 1)
    (hroot : s.root = 0) (hrom : s.crom = []) :
    bodyAsg s = .next { s with node := [(0, singleLeaf b w (some { depth := 0, word := singleWord }))],
                               crom := [(b.toNat, singleWord)], phase := .assigned } := by
  cases s
  obtain rfl := hnode
  obtain rfl := hnn
  obtain rfl := hroot
  obtain rfl := hrom
  rfl

/-- Settles O35: the two rules run on the one leaf. -/
theorem singleSymbol : Obligations.SingleSymbol := by
  intro s b hinv hp hocc
  obtain ⟨hc, htree, ⟨-, hrom⟩, -⟩ : s.stage .counted := hinv.stage_of_phase hp (by simp)
  obtain ⟨⟨-, hin, -, hmq, -⟩, -⟩ := hinv
  have hbld := (exec_bld_eq_bodyBld hp).trans (bodyBld_single hin hmq hc htree hocc)
  refine ⟨_, _, hbld, ?_, rfl, rfl, ?_⟩
  · rw [exec_allowed (by simp) (by simp [allowed])]
    exact bodyAsg_single rfl rfl rfl hrom
  · simp [State.romBits, State.romAt, lookup, Codeword.bits, Codeword.bitAt]

/-! ### The code is optimal (R154) -/

/-- The ROM's length of an occurring symbol is its leaf's `clen`. -/
theorem romLen_of_leaf {s : State} (hs : s.hasTree) (hk : s.codes) {i : Nat} {n : Node} {l : PathLabel}
    (hn : s.nodeAt i = some n) (hi : i < s.nsym) (hl : n.label = some l) : s.romLen n.sym = l.word.clen := by
  rw [State.romLen, romAt_leaf hs hk (mem_take_of_lt hs hn hi) hl]; rfl

/-- With two symbols or more a leaf's codeword is as long as the leaf is deep (R168). -/
theorem romLen_eq_depth {s : State} (hs : s.hasTree) (h2 : 2 ≤ s.nsym) (hk : s.codes) {i : Nat} {n : Node} {l : PathLabel}
    (hn : s.nodeAt i = some n) (hleaf : n.leaf = true) (hl : n.label = some l) : s.romLen n.sym = l.depth := by
  obtain ⟨-, -, hclen, -⟩ := label_bounds hs (by omega) hk s.nnode i n l (by omega) hn hl
  rw [romLen_of_leaf hs hk hn ((leaf_iff_lt hs hn).1 hleaf) hl, hclen, if_neg (by omega), Nat.add_zero]

/-- With one symbol the codeword has one bit (R169). -/
theorem romLen_single {s : State} (hs : s.hasTree) (h1 : s.nsym = 1) (hk : s.codes) {b : Byte} (hb : b ∈ s.occurring) :
    s.romLen b = 1 := by
  obtain ⟨w, hw⟩ := Option.isSome_iff_exists.1 ((romValid_iff hs hk b).2 (mem_occurring.1 hb))
  obtain ⟨i, n, l, hn, -, -, hl, rfl⟩ := romAt_eq_some hs hk hw
  obtain ⟨-, hdepth, hclen, -⟩ := label_bounds hs (by omega) hk s.nnode i n l (by omega) hn hl
  rw [if_pos h1] at hclen
  rw [State.romLen, hw, Option.map_some, Option.getD_some]
  omega

/-- The weighted length of the code `"0"` is the length of the input. -/
theorem weightedLength_of_ones {s : State} (hb : listsExactly s.inMem s.len) (hc : s.counts) {len : Byte → Nat}
    (h : ∀ b ∈ s.occurring, len b = 1) : s.weightedLength len = s.len := by
  have hmul : s.weightedLength len = (s.occurring.map s.freqAt).sum :=
    congrArg List.sum (List.map_congr_left fun b hbm => by rw [h b hbm, Nat.mul_one])
  rw [hmul, sum_occurring fun b _ => hc.freqAt_eq b, bytes_length hb]

/-- From `ASG` on the codewords stand (R41). -/
theorem State.Inv.assigned_codes {s : State} (h : s.Inv) (hp : s.phase = .assigned ∨ s.phase = .done) : s.codes := by
  rcases hp with hp | hp
  all_goals
    obtain ⟨-, -, -, hk, -⟩ := h.stage_of_phase hp (by simp)
    exact hk

theorem totalBits_eq_weightedLength {s : State} (h : s.Inv) (hp : s.phase = .done) :
    s.totalBits = s.weightedLength s.romLen := by
  obtain ⟨hc, -, -, -, ws, hws, htb, -⟩ := h.stage_done hp
  rw [htb, sumLengths_eq hc hws]

/-- Settles O36: the ROM's weighted length is the sum of the internal weights, and by the exchange argument none of the codes
R154 compares it with costs less than that. -/
theorem codeIsOptimal : Obligations.CodeIsOptimal := by
  intro s hinv hp
  obtain ⟨hc, hs, hg⟩ := hinv.finished (.inr hp)
  have hk : s.codes := hinv.assigned_codes hp
  have hone : s.nsym = 1 → ∀ b ∈ s.occurring, s.romLen b = 1 := fun h1 b hb => romLen_single hs h1 hk hb
  refine ⟨fun h2 => ?_, hone, fun hd => ⟨totalBits_eq_weightedLength hinv hd, fun h1 => ?_⟩⟩
  · have hcost : s.weightedLength s.romLen = s.innerWeight := weightedLength_eq hs h2 hk
    exact ⟨fun code hcode => hcost ▸ innerWeight_le hs hg hcode, hcost,
      fun i n l hn hleaf hl => romLen_eq_depth hs h2 hk hn hleaf hl⟩
  · rw [totalBits_eq_weightedLength hinv hd, weightedLength_of_ones hinv.1.inMem_listed hc (hone h1)]

end Sys2Proof.Machine
end

/-! ## The Code Assigner and the ROM (44_code_assigner.md): `ASG` (R165), the codewords (R166 to R170), the code as a whole (R171)
and the ROM (R172) -/

section
namespace Sys2Proof.Machine

/-! ### `ASG` on a finished tree (R165) -/

theorem exec_asg_built {s : State} (h : s.Inv) (hp : s.phase = .built) : ∃ t, exec .asg s = .next t ∧
    t = { s with node := t.node, crom := t.crom, phase := .assigned } ∧
    (∀ i, (t.nodeAt i).map Node.unlabelled = (s.nodeAt i).map Node.unlabelled) ∧ t.stage .assigned := by
  rw [exec_allowed (i := .asg) (by simp [hp]) (by simp [allowed, hp])]
  exact bodyAsg_stage h.1 (h.stage_of_phase hp (by simp))

theorem labelAt_of_nodeAt {s : State} {i : Nat} {n : Node} (hn : s.nodeAt i = some n) : s.labelAt i = n.label := by
  rw [State.labelAt, hn, Option.bind_some]

/-- Where the codewords stand, every entry has its codeword fields. -/
theorem exists_labelAt {s : State} (hs : s.hasTree) (hk : s.codes) {i : Nat} (hi : i < s.nnode) :
    ∃ l, s.labelAt i = some l := by
  obtain ⟨hlist, -⟩ := hs
  obtain ⟨hlabelled, -⟩ := hk
  obtain ⟨n, hn⟩ := nodeAt_isSome hlist hi
  rw [labelAt_of_nodeAt hn]
  exact Option.ne_none_iff_exists'.1 (hlabelled (i, n) ((mem_node_iff hlist).2 hn))

/-- Settles O37: `ASG` reaches the next line of R41, in which every entry has its codeword fields. -/
theorem asgCompletes : Obligations.AsgCompletes := by
  refine ⟨rfl, fun s hinv hp => ?_⟩
  obtain ⟨t, ht, hframe, hnodes, -, hs, -, hk, -⟩ := exec_asg_built hinv hp
  exact ⟨t, ht, hframe, hnodes, fun i hi => exists_labelAt hs hk hi, exec_inv hinv ht⟩

/-! ### The codewords follow the tree (R166 to R170) -/

/-- What stands from `ASG` on (R41), with the bounds on `NSYM` (R24). -/
theorem State.Inv.coded {s : State} (h : s.Inv) (hp : s.phase = .assigned ∨ s.phase = .done) :
    s.counts ∧ s.hasTree ∧ s.codes ∧ 1 ≤ s.nsym ∧ s.nsym ≤ 256 := by
  obtain ⟨hc, hs, -⟩ := h.finished (.inr hp)
  exact ⟨hc, hs, h.assigned_codes hp, counts_nsym_pos h.1.inMem_listed hc, counts_nsym_le hc⟩

theorem root_label {s : State} (hk : s.codes) {r : Node} {l : PathLabel} (hr : s.nodeAt s.root = some r)
    (hl : r.label = some l) : l = rootLabel r := by
  obtain ⟨-, hroot, -⟩ := hk
  rw [labelAt_of_nodeAt hr, hl, hr, Option.map_some] at hroot
  exact Option.some.inj hroot

theorem child_labels {s : State} (hs : s.hasTree) (hk : s.codes) {p : Nat} {n : Node} {l : PathLabel}
    (hn : s.nodeAt p = some n) (hleaf : n.leaf = false) (hl : n.label = some l) :
    s.labelAt n.right = some (l.child true) ∧ s.labelAt n.left = some (l.child false) := by
  obtain ⟨hlist, -⟩ := hs
  obtain ⟨-, -, hkids, -⟩ := hk
  simpa only [hl, Option.map_some] using hkids (p, n) ((mem_node_iff hlist).2 hn) hleaf

/-- The codeword of an internal entry has room for one more bit, which its children need (R168). -/
theorem inner_clen_lt {s : State} (hs : s.hasTree) (hn : 1 ≤ s.nsym) (hle : s.nsym ≤ 256) (hk : s.codes) {p : Nat} {n : Node}
    {l : PathLabel} (hp : s.nodeAt p = some n) (hleaf : n.leaf = false) (hl : n.label = some l) :
    l.word.clen < 255 ∧ l.word.code.toNat < 2 ^ l.word.clen := by
  obtain ⟨hdepth, -, hclen, hfit⟩ := label_bounds hs hn hk s.nnode p n l (by omega) hp hl
  have hinner := (inner_iff_le hs hp).1 hleaf
  have hlt := nodeAt_lt hp
  have hdepth := hdepth hleaf
  obtain ⟨-, hnn, hroot, -⟩ := hs
  rw [if_neg (by omega)] at hclen
  exact ⟨by omega, hfit⟩

/-- Settles O38: the root's and the children's labels are R41's, and appending a bit to a codeword with room for it appends to the
bit string (R31). -/
theorem codewordsFollowTheTree : Obligations.CodewordsFollowTheTree := by
  intro s hinv hp
  obtain ⟨-, hs, hk, hpos, hle⟩ := hinv.coded hp
  refine ⟨fun r l hr hl => ?_, fun p n l hn hleaf hl => ?_⟩
  · obtain rfl := root_label hk hr hl
    refine ⟨rfl, fun hleaf => ?_, fun hleaf => ?_⟩ <;> simp [rootLabel, hleaf, Codeword.append, Codeword.empty]
  · obtain ⟨hright, hleft⟩ := child_labels hs hk hn hleaf hl
    obtain ⟨hroom, hfit⟩ := inner_clen_lt hs hpos hle hk hn hleaf hl
    exact ⟨l.child true, l.child false, hright, hleft, rfl, rfl, rfl, rfl, bits_append _ _ hroom, bits_append _ _ hroom,
      append_code_toNat _ true hfit hroom, append_code_toNat _ false hfit hroom⟩

/-! ### The bounds (R168) -/

theorem romAt_of_leaf {s : State} (hs : s.hasTree) (hk : s.codes) {i : Nat} {n : Node} {l : PathLabel}
    (hn : s.nodeAt i = some n) (hleaf : n.leaf = true) (hl : n.label = some l) : s.romAt n.sym = some l.word :=
  romAt_leaf hs hk (mem_take_of_lt hs hn ((leaf_iff_lt hs hn).1 hleaf)) hl

/-- Settles O39: depths from the distance to the root, and a leaf's codeword is in the ROM, which holds no empty one. -/
theorem codewordBounds : Obligations.CodewordBounds := by
  intro s hinv hp i n l hn hl
  obtain ⟨-, hs, hk, hpos, hle⟩ := hinv.coded hp
  obtain ⟨-, hdepth, hclen, hfit⟩ := label_bounds hs hpos hk s.nnode i n l (by omega) hn hl
  refine ⟨by omega, by omega, hfit, fun h2 => ⟨?_, fun hleaf => ?_⟩, fun h1 => ?_⟩
  · rw [hclen, if_neg (by omega), Nat.add_zero]
  · exact (rom_clen hs hpos hle hk (romAt_of_leaf hs hk hn hleaf hl)).1
  · rw [if_pos h1] at hclen
    omega

/-! ### The code as a whole (R171) -/

theorem romBits_of_romAt {s : State} {b : Byte} {w : Codeword} (h : s.romAt b = some w) : s.romBits b = w.bits := by
  rw [State.romBits, h]; rfl

theorem exists_romAt {s : State} (hs : s.hasTree) (hk : s.codes) {b : Byte} (hb : b ∈ s.occurring) :
    ∃ w, s.romAt b = some w :=
  Option.isSome_iff_exists.1 ((romValid_iff hs hk b).2 (mem_occurring.1 hb))

theorem romBits_ne_nil {s : State} (hs : s.hasTree) (hn : 1 ≤ s.nsym) (hle : s.nsym ≤ 256) (hk : s.codes) {b : Byte}
    (hb : b ∈ s.occurring) : s.romBits b ≠ [] := by
  obtain ⟨w, hw⟩ := exists_romAt hs hk hb
  have hclen := (rom_clen hs hn hle hk hw).1
  rw [romBits_of_romAt hw, ← List.length_pos_iff, bits_length]
  omega

/-- With one symbol the only leaf is the root, whose codeword is `"0"` (R169). -/
theorem romBits_single {s : State} (hs : s.hasTree) (h1 : s.nsym = 1) (hk : s.codes) {b : Byte} (hb : b ∈ s.occurring) :
    s.romBits b = [false] := by
  obtain ⟨w, hw⟩ := exists_romAt hs hk hb
  obtain ⟨i, n, l, hn, hleaf, -, hl, rfl⟩ := romAt_eq_some hs hk hw
  have hlt := nodeAt_lt hn
  obtain ⟨-, hnn, hroot, -⟩ := hs
  obtain rfl : i = s.root := by omega
  obtain rfl := root_label hk hn hl
  rw [romBits_of_romAt hw, rootLabel, hleaf, if_pos rfl, bits_append _ _ (by decide), bits_empty, List.nil_append]

/-- A codeword that another begins with is that other one: both are paths to leaves of one tree (R167, R171). -/
theorem eq_of_romBits_prefix {s : State} (hc : s.counts) (hs : s.hasTree) (hn : 1 ≤ s.nsym) (hle : s.nsym ≤ 256)
    (hk : s.codes) {b c : Byte} (hb : b ∈ s.occurring) (hcm : c ∈ s.occurring) (h : s.romBits b <+: s.romBits c) : b = c := by
  rcases hn.eq_or_lt with h1 | h2
  · obtain ⟨-, -, -, -, hlen⟩ := hc
    obtain ⟨d, hd⟩ := List.length_eq_one_iff.1 (hlen.symm.trans h1.symm)
    rw [hd, List.mem_singleton] at hb hcm
    rw [hb, hcm]
  · have ht := treeFacts_of_hasTree hs hn
    have hlast := ht.root
    obtain ⟨root, -, hroot⟩ := treeIn_spec ht s.root (by omega)
    have htree : s.tree s.root = some root := hroot _ (Nat.lt_succ_self _)
    obtain ⟨v, hv⟩ := exists_romAt hs hk hb
    obtain ⟨w, hw⟩ := exists_romAt hs hk hcm
    rw [romBits_of_romAt hv, romBits_of_romAt hw] at h
    exact (follow_leaf_prefix (rom_follow hs h2 hle hk htree hv).2 (rom_follow hs h2 hle hk htree hw).2 h).2

/-- Of two beginnings of one infinite sequence one begins with the other. -/
theorem map_range_prefix_total (f : Nat → Bool) (m n : Nat) :
    (List.range m).map f <+: (List.range n).map f ∨ (List.range n).map f <+: (List.range m).map f := by
  have hle : ∀ {m n : Nat}, m ≤ n → (List.range m).map f <+: (List.range n).map f := fun h => by
    obtain ⟨k, rfl⟩ := Nat.exists_eq_add_of_le h
    rw [List.range_add, List.map_append]
    exact List.prefix_append _ _
  exact (Nat.le_total m n).imp hle hle

/-- Settles O40: codewords are paths to leaves, so none begins with another; every infinite path passes a leaf, and two codewords
it begins with are one. -/
theorem codeIsPrefixFree : Obligations.CodeIsPrefixFree := by
  intro s hinv hp
  obtain ⟨hc, hs, hk, hpos, hle⟩ := hinv.coded hp
  have heq {b c : Byte} (hb : b ∈ s.occurring) (hcm : c ∈ s.occurring) (h : s.romBits b <+: s.romBits c) : b = c :=
    eq_of_romBits_prefix hc hs hpos hle hk hb hcm h
  refine ⟨fun b hb c hcm hne h => hne (heq hb hcm h), fun b hb => romBits_ne_nil hs hpos hle hk hb,
    fun b hb c hcm h => heq hb hcm (h ▸ List.prefix_rfl), fun h1 b hb => romBits_single hs h1 hk hb, fun h2 f => ?_⟩
  obtain ⟨b, w, hw, hb, hbits⟩ := exists_codeword hs h2 hle hk f
  have hbf : s.romBits b = (List.range (s.romBits b).length).map f := by
    rw [romBits_of_romAt hw, bits_length, hbits]
  refine ⟨b, ⟨hb, hbf⟩, fun c hcm hcf => ?_⟩
  have htotal := map_range_prefix_total f (s.romBits c).length (s.romBits b).length
  rw [← hcf, ← hbf] at htotal
  rcases htotal with h | h
  · exact heq hcm hb h
  · exact (heq hb hcm h).symm

/-! ### The ROM (R172) -/

/-- The number of valid entries of the ROM is `NSYM`. -/
theorem countP_romValid {s : State} (hc : s.counts) (hs : s.hasTree) (hk : s.codes) :
    ((List.range 256).countP fun v => s.romValid (BitVec.ofNat 8 v)) = s.nsym := by
  have hvalid : ∀ b, s.romValid b = decide (0 < freqIn s.freq b) := fun b => by
    rw [Bool.eq_iff_iff, decide_eq_true_iff]
    exact romValid_iff hs hk b
  obtain ⟨-, -, -, -, hn⟩ := hc
  simp only [hvalid]
  rw [hn, ← countSymbols_eq, countSymbols_eq_countP_range]

/-- From `ASG` to the next `CLR` the ROM is not written (R42, R172): `ASG` and `RUN`, its writers, are not allowed there. -/
theorem exec_crom_eq {i : Instr} {s t : State} (hp : s.phase = .assigned ∨ s.phase = .done) (hi : i ≠ .clr)
    (h : exec i s = .next t) : t.crom = s.crom := by
  by_cases hw : i = .asg ∨ i = .run
  · have hf : s.phase ≠ .fault := by rcases hp with hp | hp <;> simp [hp]
    have ha : allowed i s.phase = false := by rcases hw with rfl | rfl <;> rcases hp with hp | hp <;> simp [allowed, hp]
    rw [exec_notAllowed hf ha] at h
    cases h
    rfl
  · obtain ⟨hasg, hrun⟩ := not_or.1 hw
    obtain ⟨-, -, -, -, -, -, hcrom, -⟩ := eachRegisterHasItsWriters i s t h
    exact hcrom hi hasg hrun

/-- Settles O41: the leaves are the entries the ROM is filled from, and only `ASG` and `RUN` fill it. -/
theorem romHoldsTheLeaves : Obligations.RomHoldsTheLeaves := by
  intro s hinv hp
  obtain ⟨hc, hs, hk, -⟩ := hinv.coded hp
  exact ⟨fun i n l hn hleaf hl => romAt_of_leaf hs hk hn hleaf hl, romValid_iff hs hk, countP_romValid hc hs hk,
    fun i t hi h => exec_crom_eq hp hi h⟩

end Sys2Proof.Machine
end

/-! ## The Bit Encoder (45_bit_encoder.md): the shift-and-OR procedure (R185), `ENC` (R186 to R188), its results (R189) and the
properties of the encoding (R193) -/

section
namespace Sys2Proof.Machine

/-! ### The shift-and-OR procedure (R185) -/

/-- After whole bytes the packer has written them all and holds no partial byte. -/
theorem Packs.whole {p : List Bool} {k : Packer} (h : Packs p k) (h8 : p.length % 8 = 0) :
    k.out = packBits p (p.length / 8) ∧ k.nb = 0 ∧ k.acc = 0 := by
  refine ⟨h.out, h.nb.trans h8, ?_⟩
  rw [h.acc, List.drop_of_length_le (by omega)]
  rfl

/-- The loops of R185 pack `BITS` and the padding zeros (R187). -/
theorem packs_emitAll (ws : List Codeword) : Packs (padBits (concatBits ws) (padOf (sumLengths ws))) (emitAll ws) :=
  (packs_start.words ws).emitBits _

/-- `|PADDED|` of R187. -/
theorem padded_length (ws : List Codeword) :
    (padBits (concatBits ws) (padOf (sumLengths ws))).length = sumLengths ws + padOf (sumLengths ws) := by
  rw [padBits_length, concatBits_length]

/-- Settles O45: each `emit` packs one more bit, and the padding completes the last byte. -/
theorem shiftAndOrAgrees : Obligations.ShiftAndOrAgrees := by
  intro ws
  rw [← padded_length]
  exact (packs_emitAll ws).whole (by rw [padded_length, add_padOf_mod])

/-! ### The codewords of the input (R186) -/

/-- Looking up a byte string finds the codeword of each byte, in order. -/
theorem map_rom_of_lookupAll {rom : Byte → Option Codeword} {bs : List Byte} {ws : List Codeword}
    (h : lookupAll rom bs = some ws) : bs.map rom = ws.map some := by
  induction bs generalizing ws with
  | nil =>
    obtain rfl := Option.some.inj h
    rfl
  | cons b bs ih =>
    unfold lookupAll at h
    split at h
    · next w vs hw hvs =>
      obtain rfl := Option.some.inj h
      rw [List.map_cons, List.map_cons, hw, ih hvs]
    · cases h

theorem getElem?_of_lookupAll {rom : Byte → Option Codeword} {bs : List Byte} {ws : List Codeword}
    (h : lookupAll rom bs = some ws) {k : Nat} (hk : k < bs.length) :
    ∃ b w, bs[k]? = some b ∧ rom b = some w ∧ ws[k]? = some w := by
  have hkw : k < ws.length := by rwa [length_of_lookupAll h]
  have hat := congrArg (·[k]?) (map_rom_of_lookupAll h)
  simp only [List.getElem?_map, List.getElem?_eq_getElem hk, List.getElem?_eq_getElem hkw, Option.map_some] at hat
  exact ⟨bs[k], ws[k], List.getElem?_eq_getElem hk, Option.some.inj hat, List.getElem?_eq_getElem hkw⟩

/-- `BITS` is the ROM's bit strings of the bytes, one after the other (R186). -/
theorem concatBits_of_lookupAll {s : State} {bs : List Byte} {ws : List Codeword} (h : lookupAll s.romAt bs = some ws) :
    concatBits ws = bs.flatMap s.romBits := by
  have hbits := congrArg (List.flatMap fun o : Option Codeword => (o.map Codeword.bits).getD []) (map_rom_of_lookupAll h)
  rw [List.flatMap_map, List.flatMap_map] at hbits
  exact hbits.symm

/-! ### Padding and packing (R64, R187, R188) -/

/-- R64's sum of eight bits fits a byte. -/
theorem packedByte_toNat (p : List Bool) (j : Nat) :
    (packedByte p j).toNat = ((List.range 8).map fun k => (p.getD (8 * j + k) false).toNat * 2 ^ (7 - k)).sum := by
  have hle : ((List.range 8).map fun k => (p.getD (8 * j + k) false).toNat * 2 ^ (7 - k)).sum ≤
      ((List.range 8).map fun k => 2 ^ (7 - k)).sum :=
    List.sum_le_sum fun k _ => (Nat.mul_le_mul_right _ (Bool.toNat_le _)).trans_eq (Nat.one_mul _)
  have hall : ((List.range 8).map fun k => 2 ^ (7 - k)).sum = 255 := by decide
  rw [packedByte, BitVec.toNat_ofNat, Nat.mod_eq_of_lt (by omega)]

theorem getD_padBits_of_le {bits : List Bool} {i : Nat} (h : bits.length ≤ i) (pad : Nat) :
    (padBits bits pad).getD i false = false := by
  rw [padBits, List.getD_append_right _ _ _ _ h, List.getD_eq_getElem?_getD, List.getElem?_replicate]
  split <;> rfl

/-- The padding zeros are the lowest bits of the last byte (R189). -/
theorem two_pow_dvd_last_packedByte {bits : List Bool} {pad j : Nat} (h : bits.length + pad = 8 * (j + 1)) :
    2 ^ pad ∣ (packedByte (padBits bits pad) j).toNat := by
  rw [packedByte_toNat]
  refine List.dvd_sum fun x hx => ?_
  obtain ⟨k, hk, rfl⟩ := List.mem_map.1 hx
  by_cases hpad : pad ≤ 7 - k
  · exact Dvd.dvd.mul_left (Nat.pow_dvd_pow 2 hpad) _
  · have hk8 := List.mem_range.1 hk
    rw [getD_padBits_of_le (by omega), Bool.toNat_false, Nat.zero_mul]
    exact Nat.dvd_zero _

/-- Reading the packed bytes back and dropping the padding gives the bits (R193 (c), R215). -/
theorem unpackBits_packBits {bits : List Bool} {pad n : Nat} (h : bits.length + pad = 8 * n) :
    unpackBits pad (packBits (padBits bits pad) n) = some bits := by
  have hlen := padBits_length bits pad
  rw [unpackBits, unpack_packBits n _ (hlen.trans h), if_pos (by omega), hlen, Nat.add_sub_cancel, padBits, List.take_left]

/-! ### The results of `ENC` (R185 to R189) -/

/-- `OUT[a]` is the `a`-th packed byte, and there is none at or above `OUTLEN` (R38, R61). -/
theorem outAt_eq_getElem? {s : State} (h : listsExactly s.outMem s.outLen) (a : Nat) :
    s.outAt a = (s.outMem.map Prod.snd)[a]? := by
  rw [State.outAt, Memory.read, h.lookup, List.getElem?_map, ite_eq_left_iff]
  intro ha
  rw [List.getElem?_eq_none (by rw [h.length]; omega), Option.map_none]

/-- What the encoder leaves (R186 to R188), cell by cell and as a whole. -/
theorem State.output.results {s : State} (h : s.output) : ∃ ws, lookupAll s.romAt s.bytes = some ws ∧
    s.totalBits = sumLengths ws ∧ s.pad = padOf s.totalBits ∧ 8 * s.outLen = s.totalBits + s.pad ∧
    (∀ j, j < s.outLen → s.outAt j = some (packedByte (padBits (concatBits ws) s.pad) j)) ∧
    s.output? = some (packBits (padBits (concatBits ws) s.pad) s.outLen) := by
  obtain ⟨ws, hws, htb, hpad, hol, hlist, hout⟩ := h
  refine ⟨ws, hws, htb, hpad, ?_, fun j hj => ?_, by rw [output?_eq hlist, hout]⟩
  · have hmod := add_padOf_mod s.totalBits
    rw [← hpad] at hmod
    omega
  · rw [outAt_eq_getElem? hlist, hout, packBits, List.getElem?_map, List.getElem?_range hj, Option.map_some]

theorem exec_enc_assigned {s : State} (h : s.Inv) (hp : s.phase = .assigned) : ∃ t, exec .enc s = .next t ∧
    t = { s with outMem := t.outMem, totalBits := t.totalBits, pad := t.pad, outLen := t.outLen, phase := .done } ∧
    t.output := by
  rw [exec_allowed (i := .enc) (by simp [hp]) (by simp [allowed, hp])]
  obtain ⟨t, ht, hframe, -, -, -, -, hout⟩ := bodyEnc_stage h.1 (h.stage_of_phase hp (by simp))
  exact ⟨t, ht, hframe, hout⟩

/-- Settles O43: `ENC` reaches R41's line for `DONE`, whose bytes R64's sum gives, and stores nothing at or above `OUTLEN`. -/
theorem encEncodes : Obligations.EncEncodes := by
  refine ⟨rfl, fun s hinv hp => ?_⟩
  obtain ⟨t, ht, hframe, hout⟩ := exec_enc_assigned hinv hp
  obtain ⟨ws, hws, htb, hpad, hol, hcells, -⟩ := hout.results
  have hlist := hinv.1.inMem_listed
  have hlen := bytes_length hlist
  have hlook : lookupAll s.romAt s.bytes = some ws := by rw [hframe] at hws; exact hws
  obtain ⟨-, hframeOut, -⟩ := memoryFrame .enc s t ht
  refine ⟨t, ws, ht, hframe, (length_of_lookupAll hlook).trans hlen, fun k hk => ?_, htb,
    htb.trans (concatBits_length ws).symm, hpad, hol, fun j hj => ⟨_, hcells j hj, packedByte_toNat _ j⟩,
    fun a ha => hframeOut (by simp) a fun _ => ha⟩
  rw [inAt_eq_getElem? hlist]
  exact getElem?_of_lookupAll hlook (by rwa [hlen])

/-! ### What holds in `DONE` (R189) -/

/-- The encoder's results stand in `DONE`, and there is at least one bit of output for each byte of input (R41, R193 (b)). -/
theorem State.Inv.encoded {s : State} (h : s.Inv) (hp : s.phase = .done) :
    s.output ∧ 1 ≤ s.len ∧ s.len ≤ s.totalBits ∧ s.totalBits ≤ 255 * s.len := by
  obtain ⟨hc, hs, -, hk, hout⟩ := h.stage_done hp
  obtain ⟨ws, hws, htb, -⟩ := hout.results
  obtain ⟨hlo, hhi⟩ := totalBits_bounds h.1.inMem_listed hc hs hk hws
  obtain ⟨hpos, -⟩ := hc
  exact ⟨hout, hpos, htb ▸ hlo, htb ▸ hhi⟩

theorem exec_done_results {i : Instr} {s t : State} (hp : s.phase = .done) (hi : i ≠ .clr) (h : exec i s = .next t) :
    t.totalBits = s.totalBits ∧ t.pad = s.pad ∧ t.outLen = s.outLen ∧ ∀ a, t.outAt a = s.outAt a := by
  rcases resultsStandInDone i s hp hi with ⟨e, -⟩ | ⟨e, -⟩
  all_goals
    rw [e] at h
    cases h
    exact ⟨rfl, rfl, rfl, fun _ => rfl⟩

/-- Settles O44: the padding completes the last byte, of which its zeros are the lowest bits, and in `DONE` only `CLR` writes a
result. -/
theorem resultRegisters : Obligations.ResultRegisters := by
  intro s hinv hp
  obtain ⟨hout, hpos, hlo, -⟩ := hinv.encoded hp
  obtain ⟨ws, -, htb, hpad, hol, hcells, -⟩ := hout.results
  have hpad7 : s.pad ≤ 7 := hpad ▸ padOf_le _
  have hlast : (concatBits ws).length + s.pad = 8 * (s.outLen - 1 + 1) := by rw [concatBits_length, ← htb]; omega
  exact ⟨hpad7, by omega, hol, by omega, by omega,
    ⟨_, hcells _ (by omega), Nat.mod_eq_zero_of_dvd (two_pow_dvd_last_packedByte hlast)⟩,
    fun i t hi h => exec_done_results hp hi h⟩

/-! ### The properties of the encoding (R193) -/

/-- Words of which none is empty and none begins another (R171) parse in one way only when concatenated (R193 (d)). -/
theorem flatMap_inj_of_prefixFree {syms : List Byte} {code : Byte → List Bool} (hpf : prefixFree syms code)
    (hne : ∀ b ∈ syms, code b ≠ []) (bs cs : List Byte) (hbs : ∀ b ∈ bs, b ∈ syms) (hcs : ∀ c ∈ cs, c ∈ syms)
    (h : bs.flatMap code = cs.flatMap code) : bs = cs := by
  induction bs generalizing cs with
  | nil =>
    cases cs with
    | nil => rfl
    | cons c cs => exact absurd (List.append_eq_nil_iff.1 h.symm).1 (hne c (hcs c List.mem_cons_self))
  | cons b bs ih =>
    cases cs with
    | nil => exact absurd (List.append_eq_nil_iff.1 h).1 (hne b (hbs b List.mem_cons_self))
    | cons c cs =>
      rw [List.forall_mem_cons] at hbs hcs
      obtain ⟨hb, hbs⟩ := hbs
      obtain ⟨hc, hcs⟩ := hcs
      rw [List.flatMap_cons, List.flatMap_cons] at h
      -- both first words begin the same string, so one begins with the other
      have hbc : b = c := by
        by_contra hdiff
        have hpre : code b <+: code c ++ cs.flatMap code := h ▸ List.prefix_append _ _
        rcases List.prefix_or_prefix_of_prefix hpre (List.prefix_append _ _) with hbc | hcb
        · exact hpf b hb c hc hdiff hbc
        · exact hpf c hc b hb (Ne.symm hdiff) hcb
      subst hbc
      rw [ih cs hbs hcs (List.append_cancel_left h)]

/-- Settles O46: (a) and (b) sum the codeword lengths, (c) is unpacking after packing, (d) follows from R171. -/
theorem encodingProperties : Obligations.EncodingProperties := by
  intro s hinv hp
  obtain ⟨hout, -, hlo, hhi⟩ := hinv.encoded hp
  obtain ⟨ws, hws, htb, -, hol, -, hbytes⟩ := hout.results
  obtain ⟨hpf, hne, -⟩ := codeIsPrefixFree s hinv (.inr hp)
  refine ⟨totalBits_eq_weightedLength hinv hp, hlo, hhi, ⟨_, hbytes, ?_⟩, flatMap_inj_of_prefixFree hpf hne⟩
  rw [← concatBits_of_lookupAll hws, unpackBits_packBits (by rw [concatBits_length, ← htb, hol])]

end Sys2Proof.Machine
end

/-! ## The Artifact Serializer (46_artifact_serializer.md): numerals (R210), the tree text (R206) and its parser (R214), the
artifact (R212) and the round-trip law (R215) -/

section
namespace Sys2Proof.Machine

/-! ### Numerals (R210) -/

theorem digitChar_toNat {d : Nat} (h : d < 10) : (digitChar d).toNat = 48 + d := by
  rw [digitChar, Char.toNat_ofNat, if_pos (.inl (by omega))]

theorem digitChar_eq_zero_iff {d : Nat} (h : d < 10) : digitChar d = '0' ↔ d = 0 := by
  constructor
  · intro e
    have hcode : (digitChar d).toNat = 48 := by rw [e]; rfl
    rw [digitChar_toNat h] at hcode
    omega
  · rintro rfl
    rfl

theorem dec_length_of_lt_ten {n : Nat} (h : n < 10) : (dec n).length = 1 := by
  rw [dec, if_pos h]; rfl

theorem dec_length (n : Nat) : 1 ≤ (dec n).length ∧ (dec n).length ≤ 3 := by
  unfold dec
  split
  · simp
  · split <;> simp

/-- Only the numeral of 0 begins with the digit 0: the first digit of a longer one is the quotient by its power of ten. -/
theorem dec_head_zero {n : Nat} (h : n < 1000) (hz : (dec n).head? = some '0') : n = 0 ∧ dec n = ['0'] := by
  have hn : n = 0 := by
    unfold dec at hz
    split at hz
    · next h10 => exact (digitChar_eq_zero_iff h10).1 (Option.some.inj hz)
    · split at hz
      all_goals
        have hquot := (digitChar_eq_zero_iff (by omega)).1 (Option.some.inj hz)
        omega
  subst hn
  exact ⟨rfl, rfl⟩

/-- A digit's code fits a byte. -/
theorem asciiByte_toNat_of_isDigit {c : Char} (h : isDigit c = true) : (asciiByte c).toNat = c.toNat := by
  simp only [isDigit, Bool.and_eq_true, decide_eq_true_eq] at h
  rw [asciiByte, BitVec.toNat_ofNat, Nat.mod_eq_of_lt (by omega)]

/-- Settles O47, by the three branches of `Dec`: one, two or three digits. -/
theorem decimalNumerals : Obligations.DecimalNumerals := by
  intro n hn
  obtain ⟨hdigits, hvalue, -⟩ := dec_digits n (by omega)
  obtain ⟨hlo, hhi⟩ := dec_length n
  exact ⟨hlo, hhi, hdigits, hvalue, dec_head_zero (by omega),
    List.map_congr_left fun c hc => asciiByte_toNat_of_isDigit (List.all_eq_true.1 hdigits c hc)⟩

/-! ### The tree text (R206) -/

/-- From `BLD` on the arena is one tree (R28, R150). -/
theorem State.Inv.treeFacts {s : State} (h : s.Inv) (hp : s.phase = .built ∨ s.phase = .assigned ∨ s.phase = .done) :
    TreeFacts s := by
  obtain ⟨hc, hs, -⟩ := h.finished hp
  exact treeFacts_of_hasTree hs (counts_nsym_pos h.1.inMem_listed hc)

theorem treeText_of_tree {s : State} {i : Nat} {t : Tree} (h : s.tree i = some t) : s.treeText i = some t.text := by
  rw [State.treeText, treeTextIn_eq, show treeIn s.nodeAt (i + 1) i = some t from h, Option.map_some]

theorem treeTextRule_leaf {s : State} {i : Nat} {n : Node} (hn : s.nodeAt i = some n) (hleaf : n.leaf = true) :
    s.treeTextRule i = some (dec n.sym.toNat) := by
  simp [State.treeTextRule, hn, hleaf]

theorem treeTextRule_internal {s : State} {i : Nat} {n : Node} {l r : Tree} (hn : s.nodeAt i = some n)
    (hleaf : n.leaf = false) (hl : s.tree n.left = some l) (hr : s.tree n.right = some r) :
    s.treeTextRule i = some (Tree.node2 l r).text := by
  simp [State.treeTextRule, hn, hleaf, treeText_of_tree hl, treeText_of_tree hr, Tree.text]

/-- Settles O48: every entry has its tree, a leaf or a node over its children's trees, of which the text is rendered. -/
theorem treeTextEquations : Obligations.TreeTextEquations := by
  intro s hinv hp i hi
  have ht := hinv.treeFacts hp
  obtain ⟨n, hn⟩ := nodeAt_isSome ht.listed hi
  cases hleaf : n.leaf with
  | true =>
    have htext := treeText_of_tree (tree_leaf hn hleaf)
    rw [htext, treeTextRule_leaf hn hleaf]
    exact ⟨rfl, rfl⟩
  | false =>
    obtain ⟨l, r, hl, hr, htree⟩ := tree_internal ht hn hleaf
    rw [treeText_of_tree htree, treeTextRule_internal hn hleaf hl hr]
    exact ⟨rfl, rfl⟩

/-! ### Parsing the text (R214) -/

theorem parse_text (t : Tree) : parse t.text = some t := by
  have hat := parseAt_text t (t.text.length + 1) [] (Nat.le_succ _) (by simp)
  rw [List.append_nil] at hat
  rw [parse, hat]

/-- The root of a finished arena has its tree, with no one-child node (R150, R208). -/
theorem exists_root_tree {s : State} (ht : TreeFacts s) : ∃ t, s.tree s.root = some t ∧ t.isFull = true := by
  have hroot := ht.root
  obtain ⟨t, hfull, htree⟩ := treeIn_spec ht s.root (by omega)
  exact ⟨t, htree _ (Nat.lt_succ_self _), hfull⟩

/-- Settles O49: the text of the arena is its tree rendered, and the parser inverts the renderer. -/
theorem parseReadsTheTreeBack : Obligations.ParseReadsTheTreeBack := by
  refine ⟨parse_text, fun s hinv hp => ?_⟩
  obtain ⟨t, htree, hfull⟩ := exists_root_tree (hinv.treeFacts hp)
  exact ⟨t.text, t, treeText_of_tree htree, htree, parse_text t, hfull⟩

/-! ### The round-trip law (R215) -/

theorem decodeArtifact_leaf {b : Byte} {pad : Nat} {bytes : List Byte} {bits : List Bool}
    (h : unpackBits pad bytes = some bits) :
    decodeArtifact (.leaf b) pad bytes = some (List.replicate bits.length b) := by
  simp [decodeArtifact, h]

theorem decodeArtifact_node2 {l r : Tree} {pad : Nat} {bytes : List Byte} {bits : List Bool}
    (hfull : (Tree.node2 l r).isFull = true) (h : unpackBits pad bytes = some bits) :
    decodeArtifact (.node2 l r) pad bytes = walk (.node2 l r) (.node2 l r) bits := by
  simp [decodeArtifact, h, hfull]

/-- With one symbol the tree is its bare leaf (R152, R208). -/
theorem root_tree_single {s : State} (ht : TreeFacts s) (hs : s.hasTree) (h1 : s.nsym = 1) :
    ∃ b ∈ s.occurring, s.tree s.root = some (.leaf b) := by
  have hlast := ht.root
  obtain ⟨n, hn⟩ := nodeAt_isSome ht.listed (i := s.root) (by omega)
  have hlt : s.root < s.nsym := by
    obtain ⟨-, -, hroot, -⟩ := hs
    omega
  obtain ⟨-, hb, -⟩ := take_leaf hs (mem_take_of_lt hs hn hlt)
  exact ⟨n.sym, hb, tree_leaf hn ((leaf_iff_lt hs hn).2 hlt)⟩

/-- With two symbols or more the root has two children (R150). -/
theorem root_tree_node2 {s : State} (ht : TreeFacts s) (hs : s.hasTree) (h2 : 2 ≤ s.nsym) :
    ∃ l r, s.tree s.root = some (.node2 l r) := by
  have hlast := ht.root
  obtain ⟨n, hn⟩ := nodeAt_isSome ht.listed (i := s.root) (by omega)
  have hle : s.nsym ≤ s.root := by
    obtain ⟨-, -, hroot, -⟩ := hs
    omega
  obtain ⟨l, r, -, -, htree⟩ := tree_internal ht hn ((inner_iff_le hs hn).2 hle)
  exact ⟨l, r, htree⟩

/-- One occurring symbol, repeated, is the whole input. -/
theorem bytes_eq_replicate {s : State} (hc : s.counts) (h1 : s.nsym = 1) {b : Byte} (hb : b ∈ s.occurring) :
    s.bytes = List.replicate s.bytes.length b := by
  have hlen : s.occurring.length = 1 := by
    obtain ⟨-, -, -, -, hn⟩ := hc
    rw [← hn, h1]
  obtain ⟨a, ha⟩ := List.length_eq_one_iff.1 hlen
  have hall : ∀ c ∈ s.occurring, c = b := by
    rw [ha, List.mem_singleton] at hb
    simp [ha, hb]
  exact List.eq_replicate_of_mem fun c hcm => hall c (mem_occurring.2 ((hc.freqAt_pos c).2 hcm))

/-- With one symbol every bit of the output, and no other, stands for it (R169, R215). -/
theorem decode_single {s : State} (hc : s.counts) (hs : s.hasTree) (hk : s.codes) (h1 : s.nsym = 1) {b : Byte}
    (hb : b ∈ s.occurring) {packed : List Byte} (hbits : unpackBits s.pad packed = some (s.bytes.flatMap s.romBits)) :
    decodeArtifact (.leaf b) s.pad packed = some s.bytes := by
  have hrep := bytes_eq_replicate hc h1 hb
  have hlen : (s.bytes.flatMap s.romBits).length = s.bytes.length := by
    rw [hrep, List.flatMap_replicate, romBits_single hs h1 hk hb]
    simp
  rw [decodeArtifact_leaf hbits, hlen, ← hrep]

/-- With two symbols or more the walk follows each codeword to the leaf of its symbol (R167, R215). -/
theorem decode_node2 {s : State} (hc : s.counts) (hs : s.hasTree) (hk : s.codes) (h2 : 2 ≤ s.nsym) {l r : Tree}
    (htree : s.tree s.root = some (.node2 l r)) (hfull : (Tree.node2 l r).isFull = true) {packed : List Byte}
    (hbits : unpackBits s.pad packed = some (s.bytes.flatMap s.romBits)) :
    decodeArtifact (.node2 l r) s.pad packed = some s.bytes := by
  obtain ⟨ws, hws, -⟩ := lookupAll_bytes hc hs hk
  rw [decodeArtifact_node2 hfull hbits, ← concatBits_of_lookupAll hws]
  exact walk_words (fun _ _ hw => rom_follow hs h2 (counts_nsym_le hc) hk htree hw) hws

/-- Settles O50: unpacking gives the codewords of the input back (R193 (c)), and the parsed tree is the arena's own, on which
they decode. -/
theorem roundTrip : Obligations.RoundTrip := by
  intro s hinv hp
  have ht := hinv.treeFacts (.inr (.inr hp))
  obtain ⟨hc, hs, hk, hpos, -⟩ := hinv.coded (.inr hp)
  obtain ⟨-, -, -, ⟨packed, hout, hbits⟩, -⟩ := encodingProperties s hinv hp
  obtain ⟨tree, htree, hfull⟩ := exists_root_tree ht
  refine ⟨tree.text, tree, packed, s.bytes, treeText_of_tree htree, parse_text tree, hout,
    input?_eq hinv.1.inMem_listed, ?_⟩
  rcases hpos.eq_or_lt with h1 | h2
  · obtain ⟨b, hb, hleaf⟩ := root_tree_single ht hs h1.symm
    obtain rfl := Option.some.inj (htree.symm.trans hleaf)
    exact decode_single hc hs hk h1.symm hb hbits
  · obtain ⟨l, r, hnode⟩ := root_tree_node2 ht hs h2
    obtain rfl := Option.some.inj (htree.symm.trans hnode)
    exact decode_node2 hc hs hk h2 htree hfull hbits

/-! ### The artifact (R212) -/

theorem artifact_of_done {s : State} {text : List Char} {packed : List Byte} (hp : s.phase = .done)
    (htext : s.treeText s.root = some text) (hout : s.output? = some packed) (name : List Byte) :
    s.artifact name = some { name := name, treeText := text, pad := s.pad, packed := packed } := by
  rw [State.artifact, if_pos hp, htext, hout]

/-- Settles O51: the four parts exist in `DONE`, and a padding count of at most 7 is one digit (R189). -/
theorem artifactLayout : Obligations.ArtifactLayout := by
  intro s name hinv
  refine ⟨fun hp => artifact_eq_none hp name, fun hp => ?_⟩
  obtain ⟨text, htext⟩ := exists_treeText_root (hinv.treeFacts (.inr (.inr hp)))
  obtain ⟨hout, -⟩ := hinv.encoded hp
  obtain ⟨ws, -, -, hpad, -, -, hpacked⟩ := hout.results
  have hpad7 : s.pad ≤ 7 := hpad ▸ padOf_le _
  exact ⟨_, text, _, artifact_of_done hp htext hpacked name, htext, hpacked, packBits_length _ _,
    dec_length_of_lt_ten (by omega), rfl⟩

end Sys2Proof.Machine
end

/-! ## Faults (60_exceptions.md): which word raises which fault (R225, R229), precise faults (R228), phase `FAULT` (R231), the
host's codes (R233) -/

section
namespace Sys2Proof.Machine

/-! ### The fault of a word (R225, R229) -/

/-- The fault that the rule of an allowed command raises (R225: `EMPTY_INPUT` and `INPUT_OVERFLOW`). -/
def State.ruleFault (s : State) : Instr → Option FaultKind
  | .put _ => if s.len = s.params.inCap then some .inputOverflow else none
  | .cnt | .run => if s.len = 0 then some .emptyInput else none
  | .bld => if s.nsym = 0 then some .emptyInput else none
  | .nop | .clr | .asg | .enc => none

/-- The fault that a word raises out of phase `FAULT`: the first in R229's order. -/
def State.wordFault (s : State) (cmd : Word) : Option FaultKind :=
  match decode cmd with
  | .error _ => some .illegalCommand
  | .ok i => if allowed i s.phase = true then s.ruleFault i else some .badSequence

theorem wordFault_illegal {cmd : Word} {s : State} {e : DecodeError} (h : decode cmd = .error e) :
    s.wordFault cmd = some .illegalCommand := by
  simp only [State.wordFault, h]

theorem wordFault_allowed {cmd : Word} {i : Instr} {s : State} (h : decode cmd = .ok i) (ha : allowed i s.phase = true) :
    s.wordFault cmd = s.ruleFault i := by
  simp only [State.wordFault, h, if_pos ha]

theorem wordFault_notAllowed {cmd : Word} {i : Instr} {s : State} (h : decode cmd = .ok i)
    (ha : allowed i s.phase = false) : s.wordFault cmd = some .badSequence := by
  simp only [State.wordFault, h, ha, Bool.false_eq_true, if_false]

theorem raise_injective (s : State) : Function.Injective s.raise := by
  intro f g h
  have herr : f.err = g.err := congrArg State.err h
  revert herr
  cases f <;> cases g <;> decide

/-- A rule whose fault condition is met raises the fault, before it writes anything (R228). -/
theorem body_of_ruleFault {i : Instr} {s : State} {f : FaultKind} (h : s.ruleFault i = some f) :
    body i s = .next (s.raise f) := by
  cases i with
  | nop | clr | asg | enc => cases h
  | put b =>
    obtain ⟨hl, rfl⟩ : s.len = s.params.inCap ∧ FaultKind.inputOverflow = f := by simpa [State.ruleFault] using h
    exact bodyPut_full hl b
  | cnt =>
    obtain ⟨hl, rfl⟩ : s.len = 0 ∧ FaultKind.emptyInput = f := by simpa [State.ruleFault] using h
    exact bodyCnt_empty hl
  | bld =>
    obtain ⟨hn, rfl⟩ : s.nsym = 0 ∧ FaultKind.emptyInput = f := by simpa [State.ruleFault] using h
    exact bodyBld_empty hn
  | run =>
    obtain ⟨hl, rfl⟩ : s.len = 0 ∧ FaultKind.emptyInput = f := by simpa [State.ruleFault] using h
    exact bodyRun_empty hl

/-- A rule that starts out of phase `FAULT` enters it on its fault condition only, whatever the state. -/
theorem exists_ruleFault_of_body {i : Instr} {s t : State} (hp : s.phase ≠ .fault) (h : body i s = .next t)
    (hf : t.phase = .fault) : ∃ f, s.ruleFault i = some f ∧ t = s.raise f := by
  cases i with
  | nop => cases h; exact absurd hf hp
  | clr => cases h; cases hf
  | put b =>
    rcases bodyPut_cases h with ⟨hl, e⟩ | ⟨-, rfl⟩
    · exact ⟨_, if_pos hl, e⟩
    · exact absurd hf hp
  | cnt =>
    rcases bodyCnt_cases h with ⟨hl, e⟩ | ⟨-, _, -, rfl⟩
    · exact ⟨_, if_pos hl, e⟩
    · cases hf
  | bld =>
    rcases bodyBld_cases h with ⟨hn, e⟩ | ⟨-, e⟩
    · exact ⟨_, if_pos hn, e⟩
    · rw [e] at hf; cases hf
  | asg => rw [bodyAsg_phase h] at hf; cases hf
  | enc =>
    obtain ⟨_, e⟩ := bodyEnc_cases h
    rw [e] at hf; cases hf
  | run =>
    rcases bodyRun_frame h with ⟨hl, e⟩ | ⟨-, _, e⟩
    · exact ⟨_, if_pos hl, e⟩
    · rw [e] at hf; cases hf

theorem execIllegal_raises {s : State} (hp : s.phase ≠ .fault) : execIllegal s = .next (s.raise .illegalCommand) := if_neg hp

theorem execWord_of_wordFault {cmd : Word} {s : State} {f : FaultKind} (hp : s.phase ≠ .fault)
    (h : s.wordFault cmd = some f) : execWord cmd s = .next (s.raise f) := by
  cases hd : decode cmd with
  | error e =>
    obtain rfl := Option.some.inj ((wordFault_illegal hd).symm.trans h)
    rw [execWord_error hd, execIllegal_raises hp]
  | ok i =>
    rw [execWord_ok hd]
    cases ha : allowed i s.phase with
    | false =>
      obtain rfl := Option.some.inj ((wordFault_notAllowed hd ha).symm.trans h)
      exact exec_notAllowed hp ha
    | true =>
      rw [wordFault_allowed hd ha] at h
      rw [exec_allowed hp ha, body_of_ruleFault h]

/-- Every way into phase `FAULT`, from any state at all: the fault of the word, with `PHASE` and `ERR` written only. -/
theorem exists_wordFault_of_execWord {cmd : Word} {s t : State} (hp : s.phase ≠ .fault) (h : execWord cmd s = .next t)
    (hf : t.phase = .fault) : ∃ f, s.wordFault cmd = some f ∧ t = s.raise f := by
  cases hd : decode cmd with
  | error e =>
    rw [execWord_error hd, execIllegal_raises hp] at h
    exact ⟨_, wordFault_illegal hd, (Host.Outcome.next.inj h).symm⟩
  | ok i =>
    rw [execWord_ok hd] at h
    cases ha : allowed i s.phase with
    | false =>
      rw [exec_notAllowed hp ha] at h
      exact ⟨_, wordFault_notAllowed hd ha, (Host.Outcome.next.inj h).symm⟩
    | true =>
      rw [exec_allowed hp ha] at h
      rw [wordFault_allowed hd ha]
      exact exists_ruleFault_of_body hp h hf

theorem execWord_eq_raise_iff {cmd : Word} {s : State} {f : FaultKind} (hp : s.phase ≠ .fault) :
    execWord cmd s = .next (s.raise f) ↔ s.wordFault cmd = some f := by
  refine ⟨fun h => ?_, execWord_of_wordFault hp⟩
  obtain ⟨g, hg, e⟩ := exists_wordFault_of_execWord hp h rfl
  rw [hg, raise_injective s e]

/-- Settles O20: the only ways into phase `FAULT` are fault entries. -/
theorem faultsArePrecise : Obligations.FaultsArePrecise := by
  intro cmd s t hp h hf
  obtain ⟨f, -, e⟩ := exists_wordFault_of_execWord hp h hf
  exact ⟨f, e⟩

/-! ### The conditions of R225's table -/

theorem ruleFault_ne_illegalCommand (s : State) (i : Instr) : s.ruleFault i ≠ some .illegalCommand := by
  cases i <;> simp [State.ruleFault]

theorem ruleFault_ne_badSequence (s : State) (i : Instr) : s.ruleFault i ≠ some .badSequence := by
  cases i <;> simp [State.ruleFault]

theorem ruleFault_eq_inputOverflow {s : State} {i : Instr} :
    s.ruleFault i = some .inputOverflow ↔ s.len = s.params.inCap ∧ ∃ b, i = .put b := by
  cases i <;> simp [State.ruleFault]

theorem ruleFault_eq_emptyInput {s : State} {i : Instr} :
    s.ruleFault i = some .emptyInput ↔ s.len = 0 ∧ (i = .cnt ∨ i = .run) ∨ s.nsym = 0 ∧ i = .bld := by
  cases i <;> simp [State.ruleFault]

theorem wordFault_eq_illegalCommand {cmd : Word} {s : State} :
    s.wordFault cmd = some .illegalCommand ↔ ∀ i, decode cmd ≠ .ok i := by
  cases hd : decode cmd with
  | error e => simp [wordFault_illegal hd]
  | ok i =>
    cases ha : allowed i s.phase with
    | false => simp [wordFault_notAllowed hd ha]
    | true => simp [wordFault_allowed hd ha, ruleFault_ne_illegalCommand]

theorem wordFault_eq_badSequence {cmd : Word} {s : State} :
    s.wordFault cmd = some .badSequence ↔ ∃ i, decode cmd = .ok i ∧ allowed i s.phase = false := by
  cases hd : decode cmd with
  | error e => simp [wordFault_illegal hd]
  | ok i =>
    cases ha : allowed i s.phase with
    | false => simp [wordFault_notAllowed hd ha, ha]
    | true => simp [wordFault_allowed hd ha, ruleFault_ne_badSequence, ha]

/-- The faults after R229's first two are those of an allowed command's rule. -/
theorem wordFault_eq_rule {cmd : Word} {s : State} {f : FaultKind} (hi : f ≠ .illegalCommand) (hb : f ≠ .badSequence) :
    s.wordFault cmd = some f ↔ ∃ i, decode cmd = .ok i ∧ allowed i s.phase = true ∧ s.ruleFault i = some f := by
  cases hd : decode cmd with
  | error e => simp [wordFault_illegal hd, hi.symm]
  | ok i =>
    cases ha : allowed i s.phase with
    | false => simp [wordFault_notAllowed hd ha, ha, hb.symm]
    | true => simp [wordFault_allowed hd ha, ha]

theorem wordFault_eq_inputOverflow {cmd : Word} {s : State} : s.wordFault cmd = some .inputOverflow ↔
    s.phase = .load ∧ s.len = s.params.inCap ∧ ∃ b, decode cmd = .ok (.put b) := by
  rw [wordFault_eq_rule (by decide) (by decide)]
  constructor
  · rintro ⟨i, hd, ha, hf⟩
    obtain ⟨hl, b, rfl⟩ := ruleFault_eq_inputOverflow.1 hf
    exact ⟨by simpa [allowed] using ha, hl, b, hd⟩
  · rintro ⟨hp, hl, b, hd⟩
    exact ⟨_, hd, by simp [allowed, hp], ruleFault_eq_inputOverflow.2 ⟨hl, b, rfl⟩⟩

/-- In a sound state in `COUNTED` a symbol occurs, so `BLD` never raises `EMPTY_INPUT` (R146). -/
theorem State.Inv.nsym_ne_zero {s : State} (h : s.Inv) (hp : s.phase = .counted) : s.nsym ≠ 0 := by
  have hpos := counts_nsym_pos h.1.inMem_listed (stage_counts (h.stage_of_phase hp (by simp)) (by simp))
  omega

theorem wordFault_eq_emptyInput {cmd : Word} {s : State} (h : s.Inv) : s.wordFault cmd = some .emptyInput ↔
    s.phase = .load ∧ s.len = 0 ∧ (decode cmd = .ok .cnt ∨ decode cmd = .ok .run) := by
  rw [wordFault_eq_rule (by decide) (by decide)]
  constructor
  · rintro ⟨i, hd, ha, hf⟩
    rcases ruleFault_eq_emptyInput.1 hf with ⟨hl, rfl | rfl⟩ | ⟨hn, rfl⟩
    · exact ⟨by simpa [allowed] using ha, hl, .inl hd⟩
    · exact ⟨by simpa [allowed] using ha, hl, .inr hd⟩
    · exact absurd hn (h.nsym_ne_zero (by simpa [allowed] using ha))
  · rintro ⟨hp, hl, hd | hd⟩
    · exact ⟨_, hd, by simp [allowed, hp], ruleFault_eq_emptyInput.2 (.inl ⟨hl, .inl rfl⟩)⟩
    · exact ⟨_, hd, by simp [allowed, hp], ruleFault_eq_emptyInput.2 (.inl ⟨hl, .inr rfl⟩)⟩

/-- Settles O19: a word raises its fault in R229's order, and in a sound state `BLD`'s own check cannot fire. -/
theorem faultConditions : Obligations.FaultConditions := by
  refine ⟨by decide, fun cmd s h hp => ⟨(execWord_eq_raise_iff hp).trans wordFault_eq_illegalCommand,
    (execWord_eq_raise_iff hp).trans wordFault_eq_badSequence,
    (execWord_eq_raise_iff hp).trans (wordFault_eq_emptyInput h),
    (execWord_eq_raise_iff hp).trans wordFault_eq_inputOverflow,
    fun t => faultsArePrecise cmd s t hp⟩⟩

/-! ### Phase `FAULT` (R231) -/

/-- Settles O21: step 1 of dispatch, and `CLR` reaches the reset state. -/
theorem faultIsLeftByClrOnly : Obligations.FaultIsLeftByClrOnly := by
  refine fun cmd s hp => ⟨fun hne => execWord_fault hp fun hd => hne (encode_of_decode hd).symm, ?_⟩
  rintro rfl
  rw [← State.clear_eq_reset]
  exact execWord_ok (decode_encode .clr) s

/-! ### The codes of the host (R233) -/

theorem execIllegal_writes {s t : State} (h : execIllegal s = .next t) : t = s ∨ t = s.raise .illegalCommand := by
  unfold execIllegal at h
  split at h <;> cases h
  · exact .inl rfl
  · exact .inr rfl

/-- The values that a command can leave in `ERR`: the one before, `NONE` by `CLR`, or the code of one of the four faults. -/
theorem exec_err {i : Instr} {s t : State} (h : exec i s = .next t) :
    t.err = s.err ∨ t.err = .none ∨ ∃ f : FaultKind, t.err = f.err := by
  rcases exec_writes h with rfl | ⟨f, rfl⟩ | hw
  · exact .inl rfl
  · exact .inr (.inr ⟨f, rfl⟩)
  · cases i with
    | clr => exact .inr (.inl (congrArg State.err hw))
    | nop | put | cnt | bld | asg | enc | run => exact .inl (by rw [WritesOwnRegisters] at hw; rw [hw])

theorem step_err {s t : State} (h : step s = .next t) :
    t.err = s.err ∨ t.err = .none ∨ ∃ f : FaultKind, t.err = f.err := by
  rcases step_cases s with ⟨-, he⟩ | ⟨w, rest, -, ⟨i, -, he⟩ | ⟨e, -, he⟩⟩ <;> rw [he] at h
  · cases h; exact .inl rfl
  · exact exec_err (s := { s with cmds := rest }) h
  · rcases execIllegal_writes h with rfl | rfl
    · exact .inl rfl
    · exact .inr (.inr ⟨.illegalCommand, rfl⟩)

theorem fault_code_ne_host (f : FaultKind) : f.err.code ≠ 2 ∧ f.err.code ≠ 3 := by cases f <;> decide

/-- Settles O22: what a step writes to `ERR` is 0 or the code of one of the four faults. -/
theorem hostCodesNeverAppear : Obligations.HostCodesNeverAppear := by
  intro s t h2 h3 h
  rcases step_err h with he | he | ⟨f, he⟩ <;> rw [he]
  · exact ⟨h2, h3⟩
  · decide
  · exact fault_code_ne_host f

end Sys2Proof.Machine
end

/-! ## Reset and hazards (70_reset_and_hazards.md): one command at a time, and waiting (R250) -/

section
namespace Sys2Proof.Machine

/-- Settles O6: no command and no fault entry writes the pending words or the parameters, so a step only takes the first word. -/
theorem stepConsumesOneCommand : Obligations.StepConsumesOneCommand := by
  refine fun s => ⟨step_of_no_command, fun t h => ?_⟩
  rcases step_cases s with ⟨hs, he⟩ | ⟨w, rest, hs, ⟨i, -, he⟩ | ⟨e, -, he⟩⟩ <;> rw [he] at h
  · cases h; exact ⟨by simp [hs], rfl⟩
  · obtain ⟨hpar, hcmds, -⟩ := eachRegisterHasItsWriters i _ t h
    exact ⟨by simp [hcmds, hs], hpar⟩
  · rcases execIllegal_writes h with rfl | rfl
    · exact ⟨by simp [hs], rfl⟩
    · exact ⟨by simp [hs], rfl⟩

end Sys2Proof.Machine
end
